-- ==== Sys2Proof/Word.lean ====
section
/-! DEFINITION. The two word types of the engine: the byte every storage space, frame and channel transfer is made of
(spec/20_memory.md R60, R69) and the 32-bit word of the host's command port and status registers (R67, R110, R46). -/

namespace Sys2Proof

/-- A byte, bit 7 the most significant (00_scope.md R9). -/
abbrev Byte := BitVec 8

/-- A host command word or status register, bit 31 the most significant (20_memory.md R67). -/
abbrev Word := BitVec 32

/-- A sequence toggle: `false` is toggle 0, `true` is toggle 1 (00_scope.md R9, 10_state.md R25). -/
abbrev Toggle := Bool

end Sys2Proof
end

