-- ==== Sys2Proof/Config.lean ====
section
/-! DEFINITION. What an instance of the engine fixes (spec/00_scope.md R7), the events that drive it (R11), and the free values (R13;
93_implementation_defined.md U9). -/

namespace Sys2Proof

/-- The arguments of the model, fixed per instance (00_scope.md R7). They stand in State, where no step changes them, so that a
statement about every state is a statement about every instance. -/
structure Params where
  aCmd : Byte
  aRpl : Byte
  maxPayload : Nat
  rejConsumesRetry : Bool
deriving DecidableEq, Repr

/-- `RAW_CAP = 2 * (MAX_PAYLOAD + 1)` (R7). -/
def Params.rawCap (p : Params) : Nat := 2 * (p.maxPayload + 1)

/-- The three spaces whose cells start out with any value (20_memory.md R60; `txq` is a queue and starts empty). -/
inductive Space
  | txbuf | rxbuf | raw
deriving DecidableEq, Repr

/-- DESIGN CHOICE (log entry 2), unsafe for a claim about `State.reset` alone: the instance `State.reset` belongs to, the one the
spec's test vectors use (95_test_vectors.md, conventions). -/
def Config.params : Params := ⟨0x03, 0x01, 16, true⟩

/-- FREE VALUE (U9; log entry 3), safe: what cell `addr` of `space` holds when nobody has written it since the `epoch`-th reset. -/
opaque Config.unwrittenByte (epoch : Nat) (space : Space) (addr : Nat) : Byte

/-- FREE VALUE (U9, 20_memory.md R70; log entry 4), safe: the byte a host read of RXBUF at an index of MAX_PAYLOAD or above returns,
`steps` being the number of events the machine has been given. -/
opaque Config.outsideByte (steps addr : Nat) : Byte

namespace Machine

/-- 00_scope.md R11: everything that can make the engine step. -/
inductive Event
  | cmd (w : Word) (avail : Bool)
  | rx (b : Byte)
  | txTake
  | tick
  | chanErr
  | hostBufWrite (a : BitVec 16) (v : Byte)
  | reset
deriving DecidableEq, Repr, Inhabited

end Machine

/-- FREE VALUE (R11, R13, 45_timeout_retry.md R250; log entry 1), safe: the event a free source gives when the machine has been given `steps`
events. -/
opaque Config.freeEvent (steps : Nat) : Machine.Event

end Sys2Proof
end

