-- ==== Sys2Proof/Syntax.lean ====
section
/-! DEFINITION. The instructions, one constructor per row of spec/opcode_table.json: the four host commands, the nine frame kinds, the
delimiter and the three escape forms. -/

namespace Sys2Proof

/-- The side of the handshakes an endpoint takes (10_state.md R22). -/
inductive Role
  | initiator | responder
deriving DecidableEq, Repr

inductive Instr
  /-- OPEN (R111): role, retry_limit, timeout_duration. -/
  | openCmd (role : Role) (retryLimit : BitVec 8) (timeout : BitVec 16)
  /-- SEND (R112): payload length. -/
  | sendCmd (len : BitVec 16)
  /-- RECEIVE (R113). -/
  | receiveCmd
  /-- CLOSE (R114): report_stats. -/
  | closeCmd (reportStats : Bool)
  /-- Frame SET, control 0x03 (R95). -/
  | set
  /-- Frame UA, control 0x07 (R95). -/
  | ua
  /-- Frame DISC, control 0x0B (R95). -/
  | disc
  /-- Frame RR naming toggle 0, control 0xAA (R95). -/
  | rr0
  /-- Frame RR naming toggle 1, control 0xAB (R95). -/
  | rr1
  /-- Frame REJ naming toggle 0, control 0x54 (R95). -/
  | rej0
  /-- Frame REJ naming toggle 1, control 0x55 (R95). -/
  | rej1
  /-- Information frame with toggle 0, control 0x00 (R95). -/
  | i0
  /-- Information frame with toggle 1, control 0x80 (R95). -/
  | i1
  /-- The delimiter 0x7E (R93). -/
  | flag
  /-- The pair 7D 5E, the stuffed form of 0x7E (R99). -/
  | escFlag
  /-- The pair 7D 5D, the stuffed form of 0x7D (R99). -/
  | escEsc
  /-- The general receive form: ESC followed by `x` (R99, decision D17). -/
  | escAny (x : Byte)
deriving DecidableEq, Repr

end Sys2Proof
end

