-- ==== Sys2Proof/Machine/State.lean ====
section
/-! DEFINITION. The state of one engine (spec/10_state.md R20), the source of the events that drive it (00_scope.md R11, R13), the reasons a
step can stop, and the state after reset (R50, R310). -/

namespace Sys2Proof.Machine

/-- R21: whether a session exists. -/
inductive Session
  | closed | opened
deriving DecidableEq, Repr

/-- R26: the reader's eight states. `check` and `done` are entered and left inside one step (41_frame_reader.md R158, R159). -/
inductive ReaderState
  | start | flagSeen | addressSeen | controlSeen | bccOk | collecting | check | done
deriving DecidableEq, Repr

/-- R32: the fifteen phases; the reserved value 15 has no constructor (93_implementation_defined.md U13). -/
inductive Phase
  | idle
  | openITx | openIWait | openRWait | openRTx
  | sendTx | sendWait
  | recvWait | recvTxRej | recvTxDup | recvTxAck
  | closeITx | closeIWait | closeRWait | closeRTx
deriving DecidableEq, Repr

/-- 60_exceptions.md R270: the status codes; the reserved code 7 has no constructor (U13). -/
inductive Status
  | ok | duplicate | channelUnavailable | handshakeTimeout | linkExhausted | ioError | cmdError
deriving DecidableEq, Repr

/-- The operations that go through the attempt loop (45_timeout_retry.md R254). -/
inductive TimedOp
  | openOp | sendOp | closeOp
deriving DecidableEq, Repr

/-- Where events come from when the list of State is used up (log entry 1), so that a run can be of any length, the endless runs of 00_scope.md
R14 (b) among them. -/
inductive Source
  /-- Nothing more happens: the engine waits (R12). -/
  | silent
  /-- The list is given again and again. -/
  | repeating (es : List Event)
  /-- Any event at all, one after the other: the free values `Config.freeEvent`. -/
  | free
deriving DecidableEq, Repr

/-- The written cells of one space, addresses strictly rising (`Memory.wf`, Ops.lean). An unlisted cell holds no value of its own: it
reads as the free value `Config.unwrittenByte` (log entry 3). -/
abbrev Memory := List Host.Cell

/-- The state, a plain record; the groups and names are R20's. The last seven fields are ports and the model's own (log entries 1 to 6). -/
@[ext]
structure State where
  /-- The instance's parameters (R7); no step changes them. -/
  params : Params
  sess : Session
  role : Role
  retryLimit : BitVec 8
  timeoutDuration : BitVec 16
  sendToggle : Toggle
  expectToggle : Toggle
  framesTotal : BitVec 32
  framesValid : BitVec 32
  framesInvalid : BitVec 32
  framesDuplicate : BitVec 32
  retransmissions : BitVec 32
  timeouts : BitVec 32
  rs : ReaderState
  ctl : Byte
  /-- The RAW space (20_memory.md R64). -/
  raw : Memory
  rawLen : BitVec 18
  ovf : Bool
  phase : Phase
  tries : BitVec 8
  opLen : BitVec 16
  rxLen : BitVec 16
  armed : Bool
  remaining : BitVec 16
  txq : List Byte
  done : Bool
  status : Status
  resultLen : BitVec 16
  statsValid : Bool
  txbuf : Memory
  rxbuf : Memory
  /-- Output port `chan_release`: high after the step that pulsed it (42_session_open_close.md R198). -/
  chanRelease : Bool
  /-- The byte the last step put out on `tx_data` (45_timeout_retry.md R257). -/
  txOut : Option Byte
  /-- Input port `chan_avail` as sampled with the command being taken (00_scope.md R10). -/
  chanAvail : Bool
  /-- The events still to come, oldest first (R13; log entry 1). -/
  events : List Event
  /-- Where the events after those come from (R13, R14 (b); log entry 1). -/
  source : Source
  /-- How many `Reset` events there have been: the argument of the free value of an unwritten cell (log entry 3). -/
  epoch : Nat
  /-- How many events the machine has been given: the argument of the free values of a host read outside RXBUF and of a free source (log
  entries 4 and 1). -/
  steps : Nat
deriving DecidableEq, Repr

/-- Why the machine stops. All three are raised only in states no run reaches (R26, R253, R257; log entry 7): safe. -/
inductive Fault
  /-- Raised by the reader when a byte is taken while `rs` is CHECK or DONE, which R26 says is never so between steps. Safe. -/
  | transientReaderState
  /-- Raised by a timer expiry outside the three timed waits, which R253 says cannot happen. Safe. -/
  | timerOutsideTimedWait
  /-- Raised when the last byte of `txq` is taken outside a TX phase, which R257 says cannot happen. Safe. -/
  | drainOutsideTx
deriving DecidableEq, Repr

/-- Why the model declines to give a meaning. -/
inductive Refusal
  /-- Raised by an arm of exec that has no meaning yet. Safe. -/
  | notModelled (mnemonic : String)
  /-- Raised by step when the parameters break R7 or R8: "a model should refuse them, not give them a meaning" (R14 (d)). Safe. -/
  | parametersOutsideSpec
deriving DecidableEq, Repr

abbrev Result := Host.Outcome State Fault Refusal

/-- The state after reset of an engine with parameters `p` (R50): every register at its value, no buffer cell written, no event
given yet. The values of `params`, `chanAvail`, `txOut`, `events`, `source`,
`epoch`, `steps` are DESIGN CHOICE (log entries 1 to 6). -/
def State.resetWith (p : Params) : State where
  params := p
  sess := .closed
  role := .initiator
  retryLimit := 0
  timeoutDuration := 0
  sendToggle := false
  expectToggle := false
  framesTotal := 0
  framesValid := 0
  framesInvalid := 0
  framesDuplicate := 0
  retransmissions := 0
  timeouts := 0
  rs := .start
  ctl := 0
  raw := []
  rawLen := 0
  ovf := false
  phase := .idle
  tries := 0
  opLen := 0
  rxLen := 0
  armed := false
  remaining := 0
  txq := []
  done := false
  status := .ok
  resultLen := 0
  statsValid := false
  txbuf := []
  rxbuf := []
  chanRelease := false
  txOut := none
  chanAvail := false
  events := []
  source := .silent
  epoch := 0
  steps := 0

/-- The machine right after reset (R50, R310, R311), for the instance of the spec's test vectors (log entry 2). -/
def State.reset : State := State.resetWith Config.params

end Sys2Proof.Machine
end

