-- ==== Sys2Proof/Machine/Flags.lean ====
section
/-! DEFINITION. The flags and counters (spec/10_state.md R25, R37, R40 to R44): every update of a counter or toggle the rules make. Counter
arithmetic is modulo 2^32 (R44), which is addition of 32-bit words. -/

namespace Sys2Proof.Machine

/-- R42: `frames_total` moves with each of the three frame counters. -/
def State.countValid (s : State) : State :=
  { s with framesValid := s.framesValid + 1, framesTotal := s.framesTotal + 1 }

def State.countInvalid (s : State) : State :=
  { s with framesInvalid := s.framesInvalid + 1, framesTotal := s.framesTotal + 1 }

def State.countDuplicate (s : State) : State :=
  { s with framesDuplicate := s.framesDuplicate + 1, framesTotal := s.framesTotal + 1 }

def State.countRetransmission (s : State) : State := { s with retransmissions := s.retransmissions + 1 }

def State.countTimeout (s : State) : State := { s with timeouts := s.timeouts + 1 }

/-- R40: an accepted OPEN writes the six counters 0. -/
def State.clearCounters (s : State) : State :=
  { s with
    framesTotal := 0, framesValid := 0, framesInvalid := 0, framesDuplicate := 0, retransmissions := 0, timeouts := 0 }

/-- R25: written by an accepted OPEN. -/
def State.clearToggles (s : State) : State := { s with sendToggle := false, expectToggle := false }

def State.flipSendToggle (s : State) : State := { s with sendToggle := !s.sendToggle }

def State.flipExpectToggle (s : State) : State := { s with expectToggle := !s.expectToggle }

/-- R37: `busy` is not a register. -/
def State.busy (s : State) : Bool := s.phase != .idle

end Sys2Proof.Machine
end

