-- ==== Sys2Proof/WellFormed.lean ====
section
/-! DEFINITION. What the spec demands of an instruction's operands beyond their widths. -/

namespace Sys2Proof

/-- The escaped byte of ESC_ANY is none of 0x7E (FLAG ends collection first, opcode_table.json ESC_ANY) and none of 0x5E, 0x5D, whose
pairs are the rows ESC_FLAG and ESC_ESC (30_encoding.md R99). Every other operand is admitted at every value of its field. -/
def Instr.encodable : Instr → Bool
  | .escAny x => x != 0x7E && x != 0x5E && x != 0x5D
  | .openCmd _ _ _ | .sendCmd _ | .receiveCmd | .closeCmd _ => true
  | .set | .ua | .disc | .rr0 | .rr1 | .rej0 | .rej1 | .i0 | .i1 => true
  | .flag | .escFlag | .escEsc => true

/-- The constraints of the operand fields: `timeout_duration` not 0 (R111), `len` at most MAX_PAYLOAD (R112). A command that breaks one of
them is still taken, and refused by its own rule (60_exceptions.md R277). -/
def Instr.operandsOk (p : Params) : Instr → Bool
  | .openCmd _ _ timeout => timeout != 0
  | .sendCmd len => decide (len.toNat ≤ p.maxPayload)
  | .receiveCmd | .closeCmd _ => true
  | .set | .ua | .disc | .rr0 | .rr1 | .rej0 | .rej1 | .i0 | .i1 => true
  | .flag | .escFlag | .escEsc | .escAny _ => true

def Instr.wellFormed (p : Params) (i : Instr) : Bool := i.encodable && i.operandsOk p

end Sys2Proof
end

