-- ==== Sys2Proof/Decode.lean ====
section
/-! DEFINITION. The wire constants, the decoder (total, rejecting by name) and the encoder, from the tables of spec/30_encoding.md. -/

namespace Sys2Proof

/-! ### The constants of 00_scope.md R6 -/

def FLAG : Byte := 0x7E
def ESC : Byte := 0x7D
def ESC_MASK : Byte := 0x20
def C_SET : Byte := 0x03
def C_UA : Byte := 0x07
def C_DISC : Byte := 0x0B
def C_RR0 : Byte := 0xAA
def C_RR1 : Byte := 0xAB
def C_REJ0 : Byte := 0x54
def C_REJ1 : Byte := 0x55
def C_I0 : Byte := 0x00
def C_I1 : Byte := 0x80

/-- The nine control byte values (R6, R95). -/
def controlBytes : List Byte := [C_SET, C_UA, C_DISC, C_RR0, C_RR1, C_REJ0, C_REJ1, C_I0, C_I1]

/-- The control values of format I (R100). -/
def isInfo (c : Byte) : Bool := c == C_I0 || c == C_I1

/-! ### What is decoded -/

/-- The three shapes an instruction comes in: a command word, one byte (a control byte or the delimiter), a pair of region bytes. -/
inductive Encoded
  | command (w : Word)
  | byte (b : Byte)
  | pair (first second : Byte)
deriving DecidableEq, Repr

/-- Why the decoder rejects. -/
inductive DecodeError
  /-- A reserved bit of a command word is set (R115). -/
  | reservedBit
  /-- The byte is neither the delimiter nor one of the nine control values (R101). -/
  | noSuchControl
  /-- The pair does not begin with ESC: its bytes are literals (R99). -/
  | notAnEscape
  /-- ESC followed by FLAG: the FLAG ends collection, the escape dangles (R163). -/
  | danglingEscape
deriving DecidableEq, Repr

/-! ### Fields of the command word (R110 to R114) -/

def opField (w : Word) : BitVec 2 := w.extractLsb' 30 2
def roleField (w : Word) : Role := if w.getLsbD 29 then .responder else .initiator
def retryField (w : Word) : BitVec 8 := w.extractLsb' 16 8
def timeoutField (w : Word) : BitVec 16 := w.extractLsb' 0 16
def lenField (w : Word) : BitVec 16 := w.extractLsb' 0 16
def statsField (w : Word) : Bool := w.getLsbD 29

/-- R110: op 00 OPEN, 01 SEND, 10 RECEIVE, 11 CLOSE; R115: the reserved bits are looked at first. -/
def decodeCommand (w : Word) : Except DecodeError Instr :=
  match (opField w).toNat with
  | 0 => if w.extractLsb' 24 5 = 0 then .ok (.openCmd (roleField w) (retryField w) (timeoutField w)) else .error .reservedBit
  | 1 => if w.extractLsb' 16 14 = 0 then .ok (.sendCmd (lenField w)) else .error .reservedBit
  | 2 => if w.extractLsb' 0 30 = 0 then .ok .receiveCmd else .error .reservedBit
  | _ => if w.extractLsb' 0 29 = 0 then .ok (.closeCmd (statsField w)) else .error .reservedBit

/-- R95: the match is on all eight bits. -/
def decodeControl (c : Byte) : Except DecodeError Instr :=
  if c = C_SET then .ok .set
  else if c = C_UA then .ok .ua
  else if c = C_DISC then .ok .disc
  else if c = C_RR0 then .ok .rr0
  else if c = C_RR1 then .ok .rr1
  else if c = C_REJ0 then .ok .rej0
  else if c = C_REJ1 then .ok .rej1
  else if c = C_I0 then .ok .i0
  else if c = C_I1 then .ok .i1
  else .error .noSuchControl

/-- R99: ESC is a prefix; the two pairs a sender produces have rows of their own, every other second byte but FLAG is ESC_ANY. -/
def decodePair (first second : Byte) : Except DecodeError Instr :=
  if first ≠ ESC then .error .notAnEscape
  else if second = FLAG then .error .danglingEscape
  else if second = 0x5E then .ok .escFlag
  else if second = 0x5D then .ok .escEsc
  else .ok (.escAny second)

def decode : Encoded → Except DecodeError Instr
  | .command w => decodeCommand w
  | .byte b => if b = FLAG then .ok .flag else decodeControl b
  | .pair first second => decodePair first second

/-! ### The encoder -/

def roleBit : Role → BitVec 1
  | .initiator => 0
  | .responder => 1

/-- The patterns of R111 to R114, most significant field first. -/
def encodeOpen (role : Role) (retryLimit : BitVec 8) (timeout : BitVec 16) : Word :=
  (0b00#2 ++ roleBit role ++ 0b00000#5 ++ retryLimit ++ timeout : BitVec 32)

def encodeSend (len : BitVec 16) : Word := (0b01#2 ++ 0#14 ++ len : BitVec 32)

def encodeReceive : Word := (0b10#2 ++ 0#30 : BitVec 32)

def encodeClose (reportStats : Bool) : Word := (0b11#2 ++ BitVec.ofBool reportStats ++ 0#29 : BitVec 32)

def encode : Instr → Encoded
  | .openCmd role retryLimit timeout => .command (encodeOpen role retryLimit timeout)
  | .sendCmd len => .command (encodeSend len)
  | .receiveCmd => .command encodeReceive
  | .closeCmd reportStats => .command (encodeClose reportStats)
  | .set => .byte C_SET
  | .ua => .byte C_UA
  | .disc => .byte C_DISC
  | .rr0 => .byte C_RR0
  | .rr1 => .byte C_RR1
  | .rej0 => .byte C_REJ0
  | .rej1 => .byte C_REJ1
  | .i0 => .byte C_I0
  | .i1 => .byte C_I1
  | .flag => .byte FLAG
  | .escFlag => .pair ESC 0x5E
  | .escEsc => .pair ESC 0x5D
  | .escAny x => .pair ESC x

/-! ### The opcode table's numbering -/

/-- The instruction's words as they reach the engine. The table writes a pair as one 16-bit number with the byte that is sent FIRST in
bits 15 to 8 (30_encoding.md R99: `7D 5E` is `0x7D5E`). -/
def encodedOfTable (nbits w : Nat) : Option Encoded :=
  match nbits with
  | 32 => some (.command (BitVec.ofNat 32 w))
  | 16 => some (.pair (BitVec.ofNat 8 (w / 256)) (BitVec.ofNat 8 w))
  | 8 => some (.byte (BitVec.ofNat 8 w))
  | _ => none

/-- The instruction the decoder reads from a row of spec/opcode_table.json. -/
def decodeTableWord (nbits w : Nat) : Option Instr :=
  match encodedOfTable nbits w with
  | none => none
  | some e =>
    match decode e with
    | .ok i => some i
    | .error _ => none

end Sys2Proof
end

