-- ==== Sys2Proof/Machine/Codec.lean ====
section
/-! DEFINITION. The frame codec (spec/40_frame_codec.md): checksums, stuffing, frame encoders, payload check. Pure functions. -/

namespace Sys2Proof.Machine

/-! ### Checksums (R130, R131) -/

def bcc1 (a c : Byte) : Byte := a ^^^ c

/-- `XOR(xs)` of 00_scope.md R9, which is BCC2 of a payload. -/
def bcc2 : List Byte → Byte
  | [] => 0
  | x :: xs => x ^^^ bcc2 xs

/-! ### Stuffing (R132 to R134) -/

def stuffByte (x : Byte) : List Byte :=
  if x = FLAG ∨ x = ESC then [ESC, x ^^^ ESC_MASK] else [x]

def stuff : List Byte → List Byte
  | [] => []
  | x :: xs => stuffByte x ++ stuff xs

/-- `none` is the rule's `Fail`: an escape is the last byte. -/
def destuff : List Byte → Option (List Byte)
  | [] => some []
  | [y] => if y = ESC then none else some [y]
  | y :: z :: ys =>
    if y = ESC then (destuff ys).map ((z ^^^ ESC_MASK) :: ·)
    else (destuff (z :: ys)).map (y :: ·)

/-! ### Toggles and control bytes (30_encoding.md R98) -/

def controlOfI (t : Toggle) : Byte := if t then C_I1 else C_I0
def controlOfRR (t : Toggle) : Byte := if t then C_RR1 else C_RR0
def controlOfREJ (t : Toggle) : Byte := if t then C_REJ1 else C_REJ0

/-- R98 (c): undefined (`none`) on the control values that carry no toggle. -/
def toggleOf (c : Byte) : Option Toggle :=
  if c = C_I0 ∨ c = C_RR0 ∨ c = C_REJ0 then some false
  else if c = C_I1 ∨ c = C_RR1 ∨ c = C_REJ1 then some true
  else none

/-! ### Frame encoders (R137, R138) -/

def encodeSupervisory (c a : Byte) : List Byte := [FLAG, a, c, bcc1 a c, FLAG]

/-- The stuffed region of an information frame (30_encoding.md R92): `stuff(P ++ [XOR(P)])`. -/
def stuffedRegion (payload : List Byte) : List Byte := stuff (payload ++ [bcc2 payload])

def encodeIFrame (a : Byte) (t : Toggle) (payload : List Byte) : List Byte :=
  [FLAG, a, controlOfI t, bcc1 a (controlOfI t)] ++ stuffedRegion payload ++ [FLAG]

/-! ### Payload check (R139, R140) -/

/-- The four reasons of R139; the engine does not record which one occurred. -/
inductive RejectReason
  | overLength | danglingEscape | emptyRegion | bcc2Mismatch
deriving DecidableEq, Repr

inductive Verdict
  | reject (reason : RejectReason)
  | accept (payload : List Byte)
deriving DecidableEq, Repr

/-- R139, the tests in its order. -/
def checkPayload (maxPayload : Nat) (raw : List Byte) (ovf : Bool) : Verdict :=
  if ovf then .reject .overLength
  else
    match destuff raw with
    | none => .reject .danglingEscape
    | some [] => .reject .emptyRegion
    | some (x :: xs) =>
      if xs.length > maxPayload then .reject .overLength
      else if bcc2 ((x :: xs).dropLast) ≠ (x :: xs).getLast (List.cons_ne_nil x xs) then .reject .bcc2Mismatch
      else .accept ((x :: xs).dropLast)

/-- R140: `destuff` split into all bytes but the last and the last; `none` is MalformedFrame (a dangling escape, or a payload over the
maximum) or, what the source does not mention, a region with no byte at all (decision D16). -/
def decodePayload (maxPayload : Nat) (region : List Byte) : Option (List Byte × Byte) :=
  match destuff region with
  | none | some [] => none
  | some (x :: xs) =>
    if xs.length > maxPayload then none
    else some ((x :: xs).dropLast, (x :: xs).getLast (List.cons_ne_nil x xs))

end Sys2Proof.Machine
end

