-- ==== Sys2Proof/Machine/Operands.lean ====
section
/-! DEFINITION. The operands of the engine: parameter constraints, kinds of phases, what each wait looks for, which address a frame carries,
and the bytes an operation reads from the storage spaces. -/

namespace Sys2Proof.Machine

/-! ### Parameters (00_scope.md R7, R8) -/

/-- The control values used with `A_CMD` (R8). -/
def commandControls : List Byte := [C_SET, C_DISC, C_I0, C_I1]

/-- The control values used with `A_RPL` (R8). -/
def replyControls : List Byte := [C_UA, C_DISC, C_RR0, C_RR1, C_REJ0, C_REJ1]

/-- R8: an address that is not FLAG and makes no BCC1 equal to FLAG. -/
def addressOk (a : Byte) (controls : List Byte) : Bool :=
  a != FLAG && controls.all fun c => a ^^^ c != FLAG

end Sys2Proof.Machine

namespace Sys2Proof

/-- R7 and R8 together: the instances that are instances of this hardware. -/
def Params.ok (p : Params) : Bool :=
  p.aCmd != p.aRpl && Machine.addressOk p.aCmd Machine.commandControls && Machine.addressOk p.aRpl Machine.replyControls
    && decide (p.maxPayload ≤ 65535)

end Sys2Proof

namespace Sys2Proof.Machine

/-! ### Phases (10_state.md R32, 45_timeout_retry.md R258) -/

def Phase.isTx : Phase → Bool
  | .openITx | .openRTx | .sendTx | .recvTxRej | .recvTxDup | .recvTxAck | .closeITx | .closeRTx => true
  | .idle | .openIWait | .openRWait | .sendWait | .recvWait | .closeIWait | .closeRWait => false

def Phase.isWait : Phase → Bool
  | .openIWait | .openRWait | .sendWait | .recvWait | .closeIWait | .closeRWait => true
  | .idle | .openITx | .openRTx | .sendTx | .recvTxRej | .recvTxDup | .recvTxAck | .closeITx | .closeRTx => false

/-- The timed WAIT phases (R258). -/
def Phase.isTimed : Phase → Bool
  | .openIWait | .sendWait | .closeIWait => true
  | .idle | .openITx | .openRWait | .openRTx | .sendTx | .recvWait | .recvTxRej | .recvTxDup | .recvTxAck | .closeITx | .closeRWait
  | .closeRTx => false

def Phase.isOpening : Phase → Bool
  | .openITx | .openIWait | .openRWait | .openRTx => true
  | .idle | .sendTx | .sendWait | .recvWait | .recvTxRej | .recvTxDup | .recvTxAck | .closeITx | .closeIWait | .closeRWait
  | .closeRTx => false

def Phase.isClosing : Phase → Bool
  | .closeITx | .closeIWait | .closeRWait | .closeRTx => true
  | .idle | .openITx | .openIWait | .openRWait | .openRTx | .sendTx | .sendWait | .recvWait | .recvTxRej | .recvTxDup
  | .recvTxAck => false

/-- `exp_addr` of a wait (41_frame_reader.md R165); the other phases have none (`A_CMD` there is never used). -/
def Phase.expAddr (p : Params) : Phase → Byte
  | .openIWait | .sendWait | .closeIWait => p.aRpl
  | .openRWait | .recvWait | .closeRWait => p.aCmd
  | .idle | .openITx | .openRTx | .sendTx | .recvTxRej | .recvTxDup | .recvTxAck | .closeITx | .closeRTx => p.aCmd

/-- `accept` of a wait (R165); empty where nothing is awaited. -/
def Phase.accept : Phase → List Byte
  | .openIWait => [C_UA]
  | .openRWait => [C_SET]
  | .sendWait => [C_RR0, C_RR1, C_REJ0, C_REJ1]
  | .recvWait => [C_I0, C_I1]
  | .closeIWait | .closeRWait => [C_DISC]
  | .idle | .openITx | .openRTx | .sendTx | .recvTxRej | .recvTxDup | .recvTxAck | .closeITx | .closeRTx => []

/-! ### Storage spaces (20_memory.md R60) -/

/-- The byte written last at cell `a`, if the cell has been written. -/
def Memory.read? : Memory → Nat → Option Byte
  | [], _ => none
  | (k, v) :: m, a => if k = a then some v else Memory.read? m a

/-- `MemRead(TXBUF, a, 1)`. -/
def State.txbufByte (s : State) (a : Nat) : Byte := (s.txbuf.read? a).getD (Config.unwrittenByte s.epoch .txbuf a)

/-- `MemRead(RXBUF, a, 1)`. -/
def State.rxbufByte (s : State) (a : Nat) : Byte := (s.rxbuf.read? a).getD (Config.unwrittenByte s.epoch .rxbuf a)

/-- `MemRead(RAW, a, 1)`. -/
def State.rawByte (s : State) (a : Nat) : Byte := (s.raw.read? a).getD (Config.unwrittenByte s.epoch .raw a)

/-- The payload of the SEND in progress, `TXBUF[0 .. op_len)` (R62). -/
def State.payload (s : State) : List Byte := (List.range s.opLen.toNat).map s.txbufByte

/-- `raw`, the list `RAW[0 .. raw_len)` (R64). -/
def State.rawBytes (s : State) : List Byte := (List.range s.rawLen.toNat).map s.rawByte

/-! ### Frames an attempt sends (45_timeout_retry.md R254) and replies (30_encoding.md R97) -/

def State.requestFrame (s : State) : TimedOp → List Byte
  | .openOp => encodeSupervisory C_SET s.params.aCmd
  | .sendOp => encodeIFrame s.params.aCmd s.sendToggle s.payload
  | .closeOp => encodeSupervisory C_DISC s.params.aCmd

def State.replyFrame (s : State) (c : Byte) : List Byte := encodeSupervisory c s.params.aRpl

/-- The TX phase in which an attempt's frame is sent (R254). -/
def TimedOp.txPhase : TimedOp → Phase
  | .openOp => .openITx
  | .sendOp => .sendTx
  | .closeOp => .closeITx

end Sys2Proof.Machine
end

