-- ==== Sys2Proof/Machine/Ops.lean ====
section
/-! DEFINITION. The shared operations: memory writes, the timer, the reader's initialisation, transmission, the completion of a command (this
engine's way of raising an error, spec/60_exceptions.md R271), refusal (R277), the attempt loop and the timer expiry (45_timeout_retry.md). There is no
return operation: "There is no return instruction" (R284 (b)). -/

namespace Sys2Proof.Machine

/-! ### Memory -/

/-- `MemWrite(space, a, 1, v)`, keeping the addresses rising. -/
def Memory.write : Memory → Nat → Byte → Memory
  | [], a, v => [(a, v)]
  | (k, w) :: m, a, v =>
    if a < k then (a, v) :: (k, w) :: m
    else if a = k then (a, v) :: m
    else (k, w) :: Memory.write m a v

/-- Bytes written to consecutive cells from `a` up. -/
def Memory.writeBytes : Memory → Nat → List Byte → Memory
  | m, _, [] => m
  | m, a, b :: bs => Memory.writeBytes (Memory.write m a b) (a + 1) bs

/-- The canonical form: addresses strictly rising. No entry can equal what an unlisted cell reads as, since an unlisted cell has no value
of its own (log entry 3). -/
abbrev Memory.wf (m : Memory) : Prop := m.Pairwise fun c d => c.1 < d.1

/-- `Append(b)` of 41_frame_reader.md R156: bounded by RAW_CAP, a byte too many is dropped and recorded in `ovf`. -/
def State.appendRaw (s : State) (b : Byte) : State :=
  if s.rawLen.toNat < s.params.rawCap then { s with raw := s.raw.write s.rawLen.toNat b, rawLen := s.rawLen + 1 }
  else { s with ovf := true }

/-- 44_session_receive.md R237: the payload goes into `RXBUF[0 .. n)`, its length into `rx_len`. -/
def State.storePayload (s : State) (payload : List Byte) : State :=
  { s with rxbuf := s.rxbuf.writeBytes 0 payload, rxLen := BitVec.ofNat 16 payload.length }

/-! ### Timer and reader (45_timeout_retry.md R251, R259; 41_frame_reader.md R160) -/

def State.arm (s : State) : State := { s with armed := true, remaining := s.timeoutDuration }

def State.disarm (s : State) : State := { s with armed := false }

def State.readerInit (s : State) : State := { s with rs := .start, rawLen := 0, ovf := false }

/-- The step that recognises a frame ends with `rs <- START` (41_frame_reader.md R158, R159). -/
def State.readerStop (s : State) : State := { s with rs := .start }

/-- `StartWait(P)`. -/
def State.startWait (s : State) (p : Phase) : State :=
  let t := { s with phase := p }.readerInit
  if p.isTimed then t.arm else t

/-! ### Transmission (R256) -/

def State.emit (s : State) (xs : List Byte) : State := { s with txq := xs }

/-- A frame committed and the TX phase that sends it entered. -/
def State.transmit (s : State) (xs : List Byte) (p : Phase) : State := { s.emit xs with phase := p }

/-! ### Completion, refusal, teardown -/

/-- `Complete(st, n)` (60_exceptions.md R271). -/
def State.complete (s : State) (st : Status) (n : BitVec 16) : State :=
  { s.disarm with phase := .idle, done := true, status := st, resultLen := n }

/-- `Refuse` (R277). -/
def State.refuse (s : State) : State := { s with done := true, status := .cmdError, resultLen := 0 }

/-- One-step pulse of `chan_release` (42_session_open_close.md R198). -/
def State.releaseChannel (s : State) : State := { s with chanRelease := true }

/-- `Teardown` (R198). -/
def State.teardown (s : State) : State := { s with sess := .closed }.releaseChannel

/-! ### The attempt loop (R254, R255) -/

def State.retransmit (s : State) (op : TimedOp) : State := s.transmit (s.requestFrame op) op.txPhase

def State.exhausted (s : State) : TimedOp → State
  | .openOp => s.releaseChannel.complete .handshakeTimeout 0
  | .sendOp => s.complete .linkExhausted 0
  | .closeOp => s.teardown.complete .handshakeTimeout 0

def State.attempt (s : State) (op : TimedOp) : State :=
  if s.tries < s.retryLimit then { s with tries := s.tries + 1 }.retransmit op else s.exhausted op

/-! ### The timer expiry, the engine's one interrupt (R253, 60_exceptions.md R282) -/

/-- The operation a timed wait belongs to. -/
def Phase.timedOp : Phase → Option TimedOp
  | .openIWait => some .openOp
  | .sendWait => some .sendOp
  | .closeIWait => some .closeOp
  | .idle | .openITx | .openRWait | .openRTx | .sendTx | .recvWait | .recvTxRej | .recvTxDup | .recvTxAck | .closeITx | .closeRWait
  | .closeRTx => none

def State.expire (s : State) : Result :=
  match s.phase.timedOp with
  | some op => .next (s.disarm.countTimeout.countRetransmission.attempt op)
  | none => .fault .timerOutsideTimedWait

end Sys2Proof.Machine
end

