-- ==== Sys2Proof/Machine/Commands.lean ====
section
/-! DEFINITION. The four host commands (spec/42_session_open_close.md, 43_session_send.md, 44_session_receive.md). A `Cmd` event is enabled only
when `phase = IDLE` (00_scope.md R11), so a command in any other phase is not taken and changes nothing. -/

namespace Sys2Proof.Machine

/-- R181: an accepted OPEN creates the session, then R182 or R186 in the same step. -/
def State.beginOpen (s : State) (role : Role) (retryLimit : BitVec 8) (timeout : BitVec 16) : State :=
  let t := { s.clearToggles.clearCounters with
    done := false, role := role, retryLimit := retryLimit, timeoutDuration := timeout, statsValid := false, tries := 0 }
  match role with
  | .initiator => t.attempt .openOp
  | .responder => t.startWait .openRWait

/-- R180, the checks in its order; R189 for an unavailable channel. -/
def execOpenCmd (role : Role) (retryLimit : BitVec 8) (timeout : BitVec 16) (s : State) : Result :=
  if s.phase ≠ .idle then .next s
  else if s.sess = .opened then .next s.refuse
  else if timeout = 0 then .next s.refuse
  else if s.chanAvail = false then .next (s.complete .channelUnavailable 0)
  else .next (s.beginOpen role retryLimit timeout)

/-- R211. -/
def State.beginSend (s : State) (len : BitVec 16) : State :=
  { s with done := false, opLen := len, tries := 0 }.attempt .sendOp

/-- R210. -/
def execSendCmd (len : BitVec 16) (s : State) : Result :=
  if s.phase ≠ .idle then .next s
  else if s.sess = .closed then .next s.refuse
  else if len.toNat > s.params.maxPayload then .next s.refuse
  else .next (s.beginSend len)

/-- R231. -/
def State.beginReceive (s : State) : State := { s with done := false }.startWait .recvWait

/-- R230. -/
def execReceiveCmd (s : State) : Result :=
  if s.phase ≠ .idle then .next s
  else if s.sess = .closed then .next s.refuse
  else .next s.beginReceive

/-- R190's accepted case, then R191 or R195 in the same step. -/
def State.beginClose (s : State) (reportStats : Bool) : State :=
  let t := { s with done := false, tries := 0, statsValid := reportStats }
  match s.role with
  | .initiator => t.attempt .closeOp
  | .responder => t.startWait .closeRWait

/-- R190, R200. -/
def execCloseCmd (reportStats : Bool) (s : State) : Result :=
  if s.phase ≠ .idle then .next s
  else if s.sess = .closed then .next s.refuse
  else .next (s.beginClose reportStats)

/-- A command word the decoder rejects: a reserved bit is set (30_encoding.md R115, U8). -/
def State.refuseWord (s : State) : Result :=
  if s.phase ≠ .idle then .next s else .next s.refuse

end Sys2Proof.Machine
end

