-- ==== Sys2Proof/Machine/Reader.lean ====
section
/-! DEFINITION. The frame reader (spec/41_frame_reader.md): its transition table, what a byte does to its registers, and which instruction of
the opcode table a byte completes. -/

namespace Sys2Proof.Machine

/-- The transition table of R162 (rules R151 to R157), FLAG tested first (R161). `check` and `done` take no byte. -/
def readerNext (expAddr : Byte) (accept : List Byte) (ctl : Byte) (rs : ReaderState) (b : Byte) : ReaderState :=
  match rs with
  | .start => if b = FLAG then .flagSeen else .start
  | .flagSeen => if b = FLAG then .flagSeen else if b = expAddr then .addressSeen else .start
  | .addressSeen => if b = FLAG then .flagSeen else if b ∈ accept then .controlSeen else .start
  | .controlSeen => if b = FLAG then .flagSeen else if b = bcc1 expAddr ctl then .bccOk else .start
  | .bccOk =>
    if isInfo ctl then (if b = FLAG then .check else .collecting)
    else (if b = FLAG then .done else .start)
  | .collecting => if b = FLAG then .check else .collecting
  | .check => .check
  | .done => .done

/-- The registers after the reader has taken `b`: `rs` by the table, `ctl` remembered on entry to CONTROL_SEEN (R153), the byte appended on
every entry to COLLECTING (R156, R157). -/
def State.readerStep (s : State) (b : Byte) : State :=
  match readerNext (s.phase.expAddr s.params) s.phase.accept s.ctl s.rs b with
  | .controlSeen => { s with ctl := b, rs := .controlSeen }
  | .collecting => { s.appendRaw b with rs := .collecting }
  | rs' => { s with rs := rs' }

/-- A byte that completes no instruction of the opcode table. Taken only in a WAIT phase (45_timeout_retry.md R258). -/
def State.takeByte (s : State) (b : Byte) : Result :=
  if s.phase.isWait then
    match s.rs with
    | .check | .done => .fault .transientReaderState
    | .start | .flagSeen | .addressSeen | .controlSeen | .bccOk | .collecting => .next (s.readerStep b)
  else .next s

/-- A FLAG that ends no accepted frame: it opens a header (R151 to R154), or the frame it ends is dropped and the reader is in START. -/
def State.takeIdleFlag (s : State) : Result :=
  if s.phase.isWait then
    match s.rs with
    | .start | .flagSeen | .addressSeen | .controlSeen => .next { s with rs := .flagSeen }
    | .bccOk | .collecting => .next s.readerStop
    | .check | .done => .fault .transientReaderState
  else .next s

/-- The frame kind whose header the reader holds, so that the next FLAG completes it (R155 to R159): the remembered control byte, decoded. -/
def State.heldFrame (s : State) : Option Instr :=
  match s.rs with
  | .bccOk => (decodeControl s.ctl).toOption
  | .collecting => if isInfo s.ctl then (decodeControl s.ctl).toOption else none
  | .start | .flagSeen | .addressSeen | .controlSeen | .check | .done => none

/-- The last collected byte is an escape whose second byte is still to come (40_frame_codec.md R134: exactly when `destuff` fails). -/
def State.escPending (s : State) : Bool := s.rs == .collecting && (destuff s.rawBytes).isNone

/-- The instruction that byte `b`, taken now, completes (log entry 5): a FLAG completes the held frame or is a delimiter; the byte after a
pending escape completes an escape pair; any other byte completes none. -/
def State.completedBy (s : State) (b : Byte) : Option Instr :=
  if b = FLAG then some (s.heldFrame.getD .flag)
  else if s.escPending then (decodePair ESC b).toOption
  else none

end Sys2Proof.Machine
end

