-- ==== Sys2Proof/Machine/Frames.lean ====
section
/-! DEFINITION. The nine frame kinds: what the engine does in the step that takes the closing FLAG of a frame of that kind whose header passed
(spec/41_frame_reader.md R166). In a wait that does not accept the kind, the frame is ignored and its closing FLAG is a FLAG like any other (R153, R101);
outside the WAIT phases no byte is taken (45_timeout_retry.md R258). -/

namespace Sys2Proof.Machine

/-! ### Handshake frames (42_session_open_close.md) -/

/-- SET: R187. -/
def execSet (s : State) : Result :=
  if s.phase = .openRWait then .next (s.readerStop.transmit (s.replyFrame C_UA) .openRTx)
  else s.takeIdleFlag

/-- UA: R183. -/
def execUa (s : State) : Result :=
  if s.phase = .openIWait then .next ({ s.readerStop with sess := .opened }.complete .ok 0)
  else s.takeIdleFlag

/-- DISC: R192 for the initiator, R196 for the responder. -/
def execDisc (s : State) : Result :=
  if s.phase = .closeIWait then .next (s.readerStop.teardown.complete .ok 0)
  else if s.phase = .closeRWait then .next (s.readerStop.transmit (s.replyFrame C_DISC) .closeRTx)
  else s.takeIdleFlag

/-! ### Acknowledgments (43_session_send.md) -/

/-- RR naming toggle `t`: R214 if it is not `send_toggle`, R215 if it is. -/
def State.onRR (s : State) (t : Toggle) : State :=
  if t = !s.sendToggle then s.readerStop.flipSendToggle.countValid.complete .ok s.opLen
  else s.readerInit

def execRr0 (s : State) : Result :=
  if s.phase = .sendWait then .next (s.onRR false) else s.takeIdleFlag

def execRr1 (s : State) : Result :=
  if s.phase = .sendWait then .next (s.onRR true) else s.takeIdleFlag

/-- REJ: R216, whichever toggle it names. -/
def State.onREJ (s : State) : State :=
  let t := s.readerStop.disarm.countInvalid.countRetransmission
  if s.params.rejConsumesRetry then t.attempt .sendOp else t.retransmit .sendOp

def execRej0 (s : State) : Result :=
  if s.phase = .sendWait then .next s.onREJ else s.takeIdleFlag

def execRej1 (s : State) : Result :=
  if s.phase = .sendWait then .next s.onREJ else s.takeIdleFlag

/-! ### Information frames (44_session_receive.md) -/

/-- An information frame of toggle `t`, classified in R239's order: rejected (R233), duplicate (R235), new (R237). -/
def State.onInfo (s : State) (t : Toggle) : State :=
  match checkPayload s.params.maxPayload s.rawBytes s.ovf with
  | .reject _ => s.readerStop.countInvalid.transmit (s.replyFrame (controlOfREJ s.expectToggle)) .recvTxRej
  | .accept payload =>
    if t ≠ s.expectToggle then s.readerStop.countDuplicate.transmit (s.replyFrame (controlOfRR s.expectToggle)) .recvTxDup
    else (s.readerStop.storePayload payload).flipExpectToggle.countValid.transmit (s.replyFrame (controlOfRR (!t))) .recvTxAck

def execI0 (s : State) : Result :=
  if s.phase = .recvWait then .next (s.onInfo false) else s.takeIdleFlag

def execI1 (s : State) : Result :=
  if s.phase = .recvWait then .next (s.onInfo true) else s.takeIdleFlag

end Sys2Proof.Machine
end

