-- ==== Sys2Proof/Machine/RegionBytes.lean ====
section
/-! DEFINITION. The delimiter and the escape pairs (spec/41_frame_reader.md R151 to R163, 30_encoding.md R99). -/

namespace Sys2Proof.Machine

/-- The reaction to a completed frame (R166). The rows that are no frame kind complete none. -/
def runFrame : Instr → State → Result
  | .set, s => execSet s
  | .ua, s => execUa s
  | .disc, s => execDisc s
  | .rr0, s => execRr0 s
  | .rr1, s => execRr1 s
  | .rej0, s => execRej0 s
  | .rej1, s => execRej1 s
  | .i0, s => execI0 s
  | .i1, s => execI1 s
  | .openCmd _ _ _, s | .sendCmd _, s | .receiveCmd, s | .closeCmd _, s | .flag, s | .escFlag, s | .escEsc, s | .escAny _, s =>
    s.takeIdleFlag

/-- FLAG: in every reader state it is the delimiter (R161). It completes the frame whose header the reader holds, ending collection whatever
byte came before it (R163), and otherwise opens a header. -/
def execFlag (s : State) : Result :=
  match s.heldFrame with
  | some frame => runFrame frame s
  | none => s.takeIdleFlag

/-- The second byte of the pair 7D 5E; the pair stands for the data byte 0x7E once the region is destuffed (40_frame_codec.md R134). -/
def execEscFlag (s : State) : Result := s.takeByte 0x5E

/-- The second byte of the pair 7D 5D; the pair stands for the data byte 0x7D. -/
def execEscEsc (s : State) : Result := s.takeByte 0x5D

/-- The second byte `x` of any other pair, standing for `x XOR 0x20` (decision D17); a FLAG in its place ends collection (R163). -/
def execEscAny (x : Byte) (s : State) : Result := if x = FLAG then execFlag s else s.takeByte x

end Sys2Proof.Machine
end

