-- ==== Sys2Proof/Machine/Dispatch.lean ====
section
/-! DEFINITION. One arm per instruction. -/

namespace Sys2Proof.Machine

def exec (i : Instr) (s : State) : Host.Outcome State Fault Refusal :=
  match i with
  | .openCmd role retryLimit timeout => Sys2Proof.Machine.execOpenCmd role retryLimit timeout s
  | .sendCmd len => Sys2Proof.Machine.execSendCmd len s
  | .receiveCmd => Sys2Proof.Machine.execReceiveCmd s
  | .closeCmd reportStats => Sys2Proof.Machine.execCloseCmd reportStats s
  | .set => Sys2Proof.Machine.execSet s
  | .ua => Sys2Proof.Machine.execUa s
  | .disc => Sys2Proof.Machine.execDisc s
  | .rr0 => Sys2Proof.Machine.execRr0 s
  | .rr1 => Sys2Proof.Machine.execRr1 s
  | .rej0 => Sys2Proof.Machine.execRej0 s
  | .rej1 => Sys2Proof.Machine.execRej1 s
  | .i0 => Sys2Proof.Machine.execI0 s
  | .i1 => Sys2Proof.Machine.execI1 s
  | .flag => Sys2Proof.Machine.execFlag s
  | .escFlag => Sys2Proof.Machine.execEscFlag s
  | .escEsc => Sys2Proof.Machine.execEscEsc s
  | .escAny x => Sys2Proof.Machine.execEscAny x s

end Sys2Proof.Machine
end

