-- ==== Sys2Proof/Machine/Events.lean ====
section
/-! DEFINITION. The events of spec/00_scope.md R11 that are not instructions: when each event is enabled, and the effects of TxTake, Tick, ChanErr,
HostBufWrite and Reset. -/

namespace Sys2Proof.Machine

/-- The "enabled when" column of R11; for `HostBufWrite` also the index bound of 20_memory.md R62. -/
def Event.enabled (s : State) : Event → Bool
  | .cmd _ _ => s.phase == .idle
  | .rx _ => s.phase.isWait
  | .txTake => s.txq != []
  | .tick | .chanErr | .reset => true
  | .hostBufWrite a _ => s.phase == .idle && decide (a.toNat < s.params.maxPayload)

/-- `TxDone` (45_timeout_retry.md R257), by phase; R188, R197, R234, R236, R238. -/
def State.txDone (s : State) : Result :=
  match s.phase with
  | .openITx => .next (s.startWait .openIWait)
  | .sendTx => .next (s.startWait .sendWait)
  | .closeITx => .next (s.startWait .closeIWait)
  | .openRTx => .next ({ s with sess := .opened }.complete .ok 0)
  | .closeRTx => .next (s.teardown.complete .ok 0)
  | .recvTxRej => .next (s.startWait .recvWait)
  | .recvTxDup => .next (s.complete .duplicate 0)
  | .recvTxAck => .next (s.complete .ok s.rxLen)
  | .idle | .openIWait | .openRWait | .sendWait | .recvWait | .closeIWait | .closeRWait => .fault .drainOutsideTx

/-- `TxTake` (R257). -/
def State.takeTx (s : State) : Result :=
  match s.txq with
  | [] => .next s
  | [b] => { s with txq := [], txOut := some b }.txDone
  | b :: rest => .next { s with txq := rest, txOut := some b }

/-- `Tick` (R252). -/
def State.takeTick (s : State) : Result :=
  if s.armed = false then .next s
  else if s.remaining.toNat > 1 then .next { s with remaining := s.remaining - 1 }
  else s.expire

/-- `ChanErr` (60_exceptions.md R280). -/
def State.takeChanErr (s : State) : State :=
  if s.phase = .idle then s
  else
    let t := { s with txq := [] }
    let u := if s.phase.isClosing then t.teardown else if s.phase.isOpening then t.releaseChannel else t
    u.complete .ioError 0

/-- `HostBufWrite(a, v)` (20_memory.md R62). -/
def State.takeHostWrite (s : State) (a : BitVec 16) (v : Byte) : State := { s with txbuf := s.txbuf.write a.toNat v }

/-- `Reset` (70_reset_and_hazards.md R310). The cells of the three buffers hold any value afterwards (U9; log entry 3). -/
def State.takeReset (s : State) : State :=
  { s with
    sess := .closed, role := .initiator, retryLimit := 0, timeoutDuration := 0
    sendToggle := false, expectToggle := false
    framesTotal := 0, framesValid := 0, framesInvalid := 0, framesDuplicate := 0, retransmissions := 0, timeouts := 0
    rs := .start, ctl := 0x00, rawLen := 0, ovf := false
    phase := .idle, tries := 0, opLen := 0, rxLen := 0
    armed := false, remaining := 0, txq := []
    done := false, status := .ok, resultLen := 0, statsValid := false
    raw := [], txbuf := [], rxbuf := [], epoch := s.epoch + 1 }

end Sys2Proof.Machine
end

