-- ==== Sys2Proof/Machine/Fetch.lean ====
section
/-! DEFINITION. How the machine comes by an instruction: the bookkeeping around an event, the instruction the event at the head of the schedule
completes, and the placing of an instruction so that it is the next one completed (log entry 5). -/

namespace Sys2Proof.Machine

/-- What a source gives next when the machine has been given `steps` events. -/
def Source.refill (steps : Nat) : Source → List Event
  | .silent => []
  | .repeating es => es
  | .free => [Config.freeEvent steps]

/-- The events to come, the next one first: those listed, or when none is listed what the source gives. -/
def State.upcoming (s : State) : List Event :=
  match s.events with
  | e :: rest => e :: rest
  | [] => s.source.refill s.steps

/-- The start of every step: the two output ports are low or empty unless the step sets them. -/
def State.clearOutputs (s : State) : State := { s with chanRelease := false, txOut := none }

/-- The head event is taken off the schedule. -/
def State.dropEvent (s : State) (rest : List Event) : State := { s.clearOutputs with events := rest, steps := s.steps + 1 }

/-- `chan_avail` is sampled with the command (00_scope.md R10). -/
def State.sampleAvail (s : State) (avail : Bool) : State := { s with chanAvail := avail }

/-- The instruction the next event completes, if that event is enabled and completes one. -/
def State.fetched (s : State) : Option Instr :=
  match s.upcoming with
  | .cmd w _ :: _ => if s.phase = .idle then (decodeCommand w).toOption else none
  | .rx b :: _ => if s.phase.isWait then s.completedBy b else none
  | .txTake :: _ | .tick :: _ | .chanErr :: _ | .hostBufWrite _ _ :: _ | .reset :: _ | [] => none

/-- The state exec sees when the head event completes an instruction. -/
def State.afterFetch (s : State) : State :=
  match s.upcoming with
  | .cmd _ avail :: rest => (s.dropEvent rest).sampleAvail avail
  | _ :: rest => s.dropEvent rest
  | [] => s.clearOutputs

/-- The present phase if it waits for control byte `c`, else a wait that does (41_frame_reader.md R165). -/
def Phase.waitFor (p : Phase) (c : Byte) : Phase :=
  if c ∈ p.accept then p
  else if c = C_SET then .openRWait
  else if c = C_UA then .openIWait
  else if c = C_DISC then .closeRWait
  else if isInfo c then .recvWait
  else .sendWait

/-- `s` about to be given an encoded instruction's last byte, the bytes before it already taken: a command word in IDLE with the channel
available; the closing FLAG of a frame whose header has been recognised; a FLAG while hunting; the second byte of a pair whose escape has
been collected. A byte or pair that encodes nothing is placed as received bytes. -/
def State.placeInstr (s : State) : Encoded → State
  | .command w => { s with phase := .idle, events := .cmd w true :: s.events }
  | .byte b =>
    if b ∈ controlBytes then { s with phase := s.phase.waitFor b, rs := .bccOk, ctl := b, events := .rx FLAG :: s.events }
    else { s with phase := if s.phase.isWait then s.phase else .openRWait, rs := .start, events := .rx b :: s.events }
  | .pair first second =>
    if first = ESC then
      { s with
        phase := .recvWait, rs := .collecting, ctl := if isInfo s.ctl then s.ctl else C_I0
        raw := s.raw.write 0 ESC, rawLen := 1, events := .rx second :: s.events }
    else { s with phase := .recvWait, events := .rx first :: .rx second :: s.events }

/-- What is placed for the opcode table's word; nothing where the table has no row of that width. -/
def State.placeTableWord (s : State) (nbits w : Nat) : State :=
  match encodedOfTable nbits w with
  | some e => s.placeInstr e
  | none => s

end Sys2Proof.Machine
end

