-- ==== Sys2Proof/Machine/Step.lean ====
section
/-! DEFINITION. One step: the event at the head of the schedule, if it is enabled, has its effect (spec/00_scope.md R11). -/

namespace Sys2Proof.Machine

/-- An enabled event. A command word is decoded and run, or refused (R115); a received byte runs the instruction it completes, or goes to
the reader; the other events have the effects of Events.lean. -/
def stepEvent (e : Event) (s : State) : Host.Outcome State Fault Refusal :=
  match e with
  | .cmd w avail =>
    match decodeCommand w with
    | .ok i => exec i (s.sampleAvail avail)
    | .error _ => (s.sampleAvail avail).refuseWord
  | .rx b =>
    match s.completedBy b with
    | some i => exec i s
    | none => s.takeByte b
  | .txTake => s.takeTx
  | .tick => s.takeTick
  | .chanErr => .next s.takeChanErr
  | .hostBufWrite a v => .next (s.takeHostWrite a v)
  | .reset => .next s.takeReset

/-- With no event to come the engine waits ("the engine has no step of its own", R12). An event that is not enabled does not happen (R11).
Parameters outside R7 and R8 are refused (R14 (d)). -/
def step (s : State) : Host.Outcome State Fault Refusal :=
  if s.params.ok then
    match s.upcoming with
    | [] => .next s.clearOutputs
    | e :: rest => if e.enabled s then stepEvent e (s.dropEvent rest) else .next (s.dropEvent rest)
  else .refused .parametersOutsideSpec

/-- `s` with the opcode table's word placed so that the very next step runs it (log entry 5). -/
def State.withFetchWord (s : State) (nbits w : Nat) : State := s.placeTableWord nbits w

end Sys2Proof.Machine
end

