-- ==== Sys2Proof/Machine/Ports.lean ====
section
/-! DEFINITION. The ports of spec/00_scope.md R10: the status register file (10_state.md R46), the output ports as functions of the state, and
the events that the input levels of one clock edge stand for (60_exceptions.md R283). -/

namespace Sys2Proof.Machine

/-! ### Encodings (10_state.md R21, R22, R26, R32; 60_exceptions.md R270) -/

def Session.code : Session → BitVec 1
  | .closed => 0
  | .opened => 1

def roleCode : Role → BitVec 1
  | .initiator => 0
  | .responder => 1

def ReaderState.code : ReaderState → BitVec 3
  | .start => 0
  | .flagSeen => 1
  | .addressSeen => 2
  | .controlSeen => 3
  | .bccOk => 4
  | .collecting => 5
  | .check => 6
  | .done => 7

def Phase.code : Phase → BitVec 4
  | .idle => 0
  | .openITx => 1
  | .openIWait => 2
  | .openRWait => 3
  | .openRTx => 4
  | .sendTx => 5
  | .sendWait => 6
  | .recvWait => 7
  | .recvTxRej => 8
  | .recvTxDup => 9
  | .recvTxAck => 10
  | .closeITx => 11
  | .closeIWait => 12
  | .closeRWait => 13
  | .closeRTx => 14

def Status.code : Status → BitVec 3
  | .ok => 0
  | .duplicate => 1
  | .channelUnavailable => 2
  | .handshakeTimeout => 3
  | .linkExhausted => 4
  | .ioError => 5
  | .cmdError => 6

/-! ### Status registers (R46), most significant field first; fields not listed read 0 -/

def State.srStatus (s : State) : Word :=
  (0#13 ++ BitVec.ofBool s.ovf ++ s.phase.code ++ s.rs.code ++ BitVec.ofBool s.armed ++ BitVec.ofBool s.statsValid
    ++ BitVec.ofBool s.expectToggle ++ BitVec.ofBool s.sendToggle ++ roleCode s.role ++ s.sess.code ++ BitVec.ofBool s.busy
    ++ BitVec.ofBool s.done ++ s.status.code : BitVec 32)

def State.srResultLen (s : State) : Word := (s.rxLen ++ s.resultLen : BitVec 32)

def State.srConfig (s : State) : Word := (0#8 ++ s.timeoutDuration ++ s.retryLimit : BitVec 32)

def State.srProgress (s : State) : Word := (s.ctl ++ s.remaining ++ s.tries : BitVec 32)

/-- The low 16 bits of `raw_len` are shown. -/
def State.srLengths (s : State) : Word := (s.rawLen.setWidth 16 ++ s.opLen : BitVec 32)

/-- `sr[i]`. -/
def State.sr (s : State) (i : BitVec 4) : Word :=
  match i.toNat with
  | 0 => s.srStatus
  | 1 => s.srResultLen
  | 2 => s.srConfig
  | 3 => s.framesTotal
  | 4 => s.framesValid
  | 5 => s.framesInvalid
  | 6 => s.framesDuplicate
  | 7 => s.retransmissions
  | 8 => s.timeouts
  | 9 => s.srProgress
  | 10 => s.srLengths
  | _ => 0

/-! ### Output ports -/

/-- R10: high exactly when `phase = IDLE`. -/
def State.cmdReady (s : State) : Bool := !s.busy

/-- 45_timeout_retry.md R258: high exactly in the WAIT phases. -/
def State.rxReady (s : State) : Bool := s.phase.isWait

/-- 20_memory.md R73: high while `txq` is not empty. -/
def State.txValid (s : State) : Bool := s.txq != []

/-- The head of `txq`, if there is one. -/
def State.txData (s : State) : Option Byte := s.txq.head?

/-- The host's read port of RXBUF (20_memory.md R63); at an index of MAX_PAYLOAD or above an unspecified byte (R70; log entry 4). -/
def State.rxbufData (s : State) (a : BitVec 16) : Byte :=
  if a.toNat < s.params.maxPayload then s.rxbufByte a.toNat else Config.outsideByte s.steps a.toNat

/-! ### One clock edge -/

/-- The levels of the input ports at a clock edge (R10). -/
structure InPorts where
  rst : Bool
  cmdValid : Bool
  cmdWord : Word
  chanAvail : Bool
  rxValid : Bool
  rxData : Byte
  txReady : Bool
  chanErr : Bool
  tick : Bool
  txbufWe : Bool
  txbufAddr : BitVec 16
  txbufData : Byte
deriving DecidableEq, Repr

/-- The one of Cmd, Rx, TxTake that the phase before the edge enables, if its port presents it (R283, line 3). -/
def InPorts.transfer (p : InPorts) (s : State) : List Event :=
  if s.cmdReady then (if p.cmdValid then [.cmd p.cmdWord p.chanAvail] else [])
  else if s.rxReady then (if p.rxValid then [.rx p.rxData] else [])
  else if s.txValid then (if p.txReady then [.txTake] else [])
  else []

/-- R283: the events of one edge in the fixed order. -/
def InPorts.edgeEvents (p : InPorts) (s : State) : List Event :=
  if p.rst then [.reset]
  else
    (if p.txbufWe && s.cmdReady then [.hostBufWrite p.txbufAddr p.txbufData] else [])
      ++ p.transfer s
      ++ (if p.tick then [.tick] else [])
      ++ (if p.chanErr then [.chanErr] else [])

/-- `s` with the events of one edge put before those already to come. -/
def State.clockEdge (s : State) (p : InPorts) : State := { s with events := p.edgeEvents s ++ s.events }

end Sys2Proof.Machine
end

