-- ==== Sys2Proof/Safety.lean ====
section
/-! DEFINITION. The terms claims use: the invariant of the engine (spec/45_timeout_retry.md R260, 10_state.md R25 to R42, 41_frame_reader.md R158 to R162) and
runs over a schedule of received bytes. -/

namespace Sys2Proof.Machine

/-- Phase, transmitter, timer and budget (R32, R260, R33, R142, R48): what the rules say holds between steps. -/
structure State.ControlInv (s : State) : Prop where
  /-- R260 (c). -/
  txqPhase : s.txq ≠ [] ↔ s.phase.isTx = true
  /-- R142, R36. -/
  txqBound : s.txq.length ≤ 2 * (s.params.maxPayload + 1) + 5
  /-- R260 (a). -/
  armedPhase : s.armed = s.phase.isTimed
  /-- R260 (f). -/
  remainingPos : s.armed = true → s.remaining ≠ 0
  /-- R260 (d), R33. -/
  triesBound : s.tries ≤ s.retryLimit
  /-- R24: a zero timeout is refused. -/
  timeoutPos : s.phase ≠ .idle ∨ s.sess = .opened → s.timeoutDuration ≠ 0
  /-- R181, R286: no session while one is being opened. -/
  openingClosed : s.phase.isOpening = true → s.sess = .closed
  /-- R286: SEND, RECEIVE and CLOSE run in a session. -/
  othersOpen : s.phase ≠ .idle → s.phase.isOpening = false → s.sess = .opened
  /-- R48: `done` is 0 from acceptance to completion. -/
  busyNotDone : s.phase ≠ .idle → s.done = false
  /-- R34. -/
  opLenBound : s.opLen.toNat ≤ s.params.maxPayload
  /-- R38. -/
  rxLenBound : s.rxLen.toNat ≤ s.params.maxPayload

/-- The reader's registers (R26, R27, R30, R153, R156, R160). -/
structure State.ReaderInv (s : State) : Prop where
  /-- R26: between steps `rs` is one of the six values 0 to 5. -/
  settled : s.rs ≠ .check ∧ s.rs ≠ .done
  /-- R27. -/
  ctlKnown : s.ctl ∈ controlBytes
  /-- R153, R165: a header is remembered only for an accepted control. -/
  ctlAccepted : s.phase.isWait = true → s.rs = .controlSeen ∨ s.rs = .bccOk ∨ s.rs = .collecting → s.ctl ∈ s.phase.accept
  /-- R156, R157. -/
  collectingInfo : s.rs = .collecting → isInfo s.ctl = true
  /-- R30. -/
  rawBound : s.rawLen.toNat ≤ s.params.rawCap
  /-- R30: `raw` never contains 0x7E, and R64: its cells have been written. -/
  rawWritten : ∀ i, i < s.rawLen.toNat → ∃ b, s.raw.read? i = some b ∧ b ≠ FLAG
  /-- R30: `ovf` is set only at a full buffer. -/
  ovfFull : s.ovf = true → s.rawLen.toNat = s.params.rawCap
  /-- R156: before the region nothing is collected. -/
  emptyBefore : s.phase.isWait = true → s.rs ≠ .collecting → s.rawLen = 0 ∧ s.ovf = false

/-- The cells written lie inside their space, in canonical form (20_memory.md R60). -/
def Memory.within (m : Memory) (size : Nat) : Prop := m.wf ∧ ∀ c ∈ m, c.1 < size

structure State.BufferInv (s : State) : Prop where
  txbufWithin : s.txbuf.within s.params.maxPayload
  rxbufWithin : s.rxbuf.within s.params.maxPayload
  rawWithin : s.raw.within s.params.rawCap

/-- R42, as arithmetic modulo 2^32 (R44). -/
def State.CounterInv (s : State) : Prop :=
  s.framesTotal = s.framesValid + s.framesInvalid + s.framesDuplicate

/-- The invariant of the engine. -/
structure State.Inv (s : State) : Prop where
  control : s.ControlInv
  reader : s.ReaderInv
  buffer : s.BufferInv
  counter : s.CounterInv

/-- `s` with the bytes `bs` received next, before the events already to come. -/
def State.receiving (s : State) (bs : List Byte) : State := { s with events := bs.map Event.rx ++ s.events }

/-- The bytes of a region appended one after the other (41_frame_reader.md R156, R157). -/
def State.collect (s : State) : List Byte → State
  | [] => s
  | b :: bs => (s.appendRaw b).collect bs

/-- The six statistics counters (10_state.md R40). -/
structure Counters where
  total : BitVec 32
  valid : BitVec 32
  invalid : BitVec 32
  duplicate : BitVec 32
  retransmissions : BitVec 32
  timeouts : BitVec 32
deriving DecidableEq, Repr

def State.counters (s : State) : Counters :=
  ⟨s.framesTotal, s.framesValid, s.framesInvalid, s.framesDuplicate, s.retransmissions, s.timeouts⟩

end Sys2Proof.Machine
end

