-- ==== Sys2Proof/Certificates/Slice0/Obligations.lean ====
section
/-! DEFINITION. The statements for the provers, from the numbered rules of spec/. -/

open Sys2Proof Sys2Proof.Machine

/-! ### Encoding -/

/-- Decoding an encoded instruction gives it back, every operand at every value its encoding admits (30_encoding.md R95, R99, R110 to R114). -/
def Obligations.DecodeOfEncode : Prop :=
  ∀ i : Instr, i.encodable = true → decode (encode i) = .ok i

/-- A word, byte or pair that decodes is the encoding of what it decodes to: no bit of it is ignored. -/
def Obligations.EncodeOfDecode : Prop :=
  ∀ (e : Encoded) (i : Instr), decode e = .ok i → encode i = e

/-- Words of 95_test_vectors.md V6 and rows of the opcode table, with some that encode nothing (R101, R115, R163). -/
def Obligations.KnownWordsDecode : Prop :=
  decodeTableWord 32 0x20030003 = some (.openCmd .responder 3 3) ∧
  decodeTableWord 32 0x00FFFFFF = some (.openCmd .initiator 255 65535) ∧
  decodeTableWord 32 0x4000FFFF = some (.sendCmd 65535) ∧
  decodeTableWord 32 0x80000000 = some .receiveCmd ∧
  decodeTableWord 32 0xE0000000 = some (.closeCmd true) ∧
  decodeTableWord 8 0x0B = some .disc ∧ decodeTableWord 8 0xAB = some .rr1 ∧ decodeTableWord 8 0x54 = some .rej0 ∧
  decodeTableWord 8 0x80 = some .i1 ∧ decodeTableWord 8 0x7E = some .flag ∧
  decodeTableWord 16 0x7D5E = some .escFlag ∧ decodeTableWord 16 0x7D5D = some .escEsc ∧
  decodeTableWord 16 0x7D41 = some (.escAny 0x41) ∧
  decodeTableWord 32 0x01030003 = none ∧ decodeTableWord 8 0x01 = none ∧ decodeTableWord 16 0x7D7E = none

/-- R115, R277: a word with a reserved bit of its operation set is refused at once, whatever the session and the other operands. -/
def Obligations.ReservedBitRefused : Prop :=
  ∀ (s : State) (w : Word) (avail : Bool) (rest : List Event),
    s.params.ok = true → s.phase = .idle → s.upcoming = .cmd w avail :: rest →
    (w.extractLsb' 30 2 = 0 ∧ w.extractLsb' 24 5 ≠ 0 ∨ w.extractLsb' 30 2 = 1 ∧ w.extractLsb' 16 14 ≠ 0 ∨
      w.extractLsb' 30 2 = 2 ∧ w.extractLsb' 0 30 ≠ 0 ∨ w.extractLsb' 30 2 = 3 ∧ w.extractLsb' 0 29 ≠ 0) →
    step s = .next { s with
      done := true, status := .cmdError, resultLen := 0
      chanRelease := false, txOut := none, chanAvail := avail, events := rest, steps := s.steps + 1 }

/-! ### Steps and instructions -/

/-- A step runs the decoded instruction, in the state with the head event taken off, the output ports low and `chan_avail` sampled: a
command word in IDLE; in a WAIT phase the closing FLAG of a frame whose header is held, a FLAG otherwise, and the byte after a pending
escape (log entry 5). -/
def Obligations.StepRunsDecodedInstr : Prop :=
  ∀ (s : State) (rest : List Event), s.params.ok = true →
    (∀ w avail i, s.phase = .idle → s.upcoming = .cmd w avail :: rest → decode (.command w) = .ok i →
      step s = exec i { s with
        chanRelease := false, txOut := none, events := rest, steps := s.steps + 1, chanAvail := avail }) ∧
    (s.phase.isWait = true → s.upcoming = .rx FLAG :: rest →
      (∀ i, s.rs = .bccOk ∨ s.rs = .collecting ∧ isInfo s.ctl = true → decodeControl s.ctl = .ok i →
        step s = exec i { s with chanRelease := false, txOut := none, events := rest, steps := s.steps + 1 }) ∧
      (s.rs ≠ .bccOk → s.rs ≠ .collecting →
        step s = exec .flag { s with chanRelease := false, txOut := none, events := rest, steps := s.steps + 1 })) ∧
    (∀ b i, s.phase.isWait = true → s.upcoming = .rx b :: rest → s.rs = .collecting → destuff s.rawBytes = none →
      decode (.pair ESC b) = .ok i →
      step s = exec i { s with chanRelease := false, txOut := none, events := rest, steps := s.steps + 1 })

/-- R11: "An event that is not enabled does not happen"; R12: the engine has no step of its own, so with no event to come it waits.
Only the model's own fields move. -/
def Obligations.DisabledEventChangesNothing : Prop :=
  ∀ (s : State), s.params.ok = true →
    (s.upcoming = [] → step s = .next { s with chanRelease := false, txOut := none }) ∧
    (∀ rest, (∃ w avail, s.upcoming = .cmd w avail :: rest ∧ s.phase ≠ .idle) ∨
        (∃ b, s.upcoming = .rx b :: rest ∧ s.phase.isWait = false) ∨
        (s.upcoming = .txTake :: rest ∧ s.txq = []) ∨
        (∃ a v, s.upcoming = .hostBufWrite a v :: rest ∧ (s.phase ≠ .idle ∨ s.params.maxPayload ≤ a.toNat)) →
      step s = .next { s with chanRelease := false, txOut := none, events := rest, steps := s.steps + 1 })

/-- R14 (d), R8: an instance whose parameters break the constraints is refused in every state. -/
def Obligations.BadParametersRefused : Prop :=
  ∀ s : State,
    (s.params.aCmd = s.params.aRpl ∨ s.params.aCmd ∈ [0x7E, 0x7D, 0x75, 0xFE] ∨
      s.params.aRpl ∈ [0x7E, 0x79, 0x75, 0xD4, 0xD5, 0x2A, 0x2B] ∨ 65535 < s.params.maxPayload) ↔
    step s = .refused .parametersOutsideSpec

/-! ### Frame codec -/

/-- R135 (a), with the source's property for a stuffed region. -/
def Obligations.StuffingRoundTrip : Prop :=
  (∀ xs : List Byte, destuff (stuff xs) = some xs) ∧
  (∀ (m : Nat) (payload : List Byte), payload.length ≤ m →
    decodePayload m (stuff (payload ++ [bcc2 payload])) = some (payload, bcc2 payload))

/-- R133's guarantees. -/
def Obligations.StuffingExhaustive : Prop :=
  ∀ xs : List Byte,
    FLAG ∉ stuff xs ∧
    (∀ before after, stuff xs = before ++ ESC :: after → ∃ rest, after = 0x5E :: rest ∨ after = 0x5D :: rest) ∧
    (stuff xs).length = xs.length + (xs.filter fun x => x == 0x7E || x == 0x7D).length

/-- R134: `destuff` fails exactly when its scan reaches an escape that is the last byte; R135 (d): each output byte takes at most two. -/
def Obligations.DestuffFailsOnlyDangling : Prop :=
  ∀ ys : List Byte,
    (destuff ys = none ↔ ∃ before, ys = before ++ [ESC] ∧ destuff before ≠ none) ∧
    (∀ d, destuff ys = some d → ys.length ≤ 2 * d.length ∧ d.length ≤ ys.length)

/-- R141: a frame begins and ends with the delimiter and holds no other, for every conforming pair of addresses. -/
def Obligations.FramesDelimited : Prop :=
  ∀ p : Params, p.ok = true →
    (∀ c ∈ [C_SET, C_DISC], ∃ body, encodeSupervisory c p.aCmd = [FLAG] ++ body ++ [FLAG] ∧ FLAG ∉ body) ∧
    (∀ c ∈ [C_UA, C_DISC, C_RR0, C_RR1, C_REJ0, C_REJ1],
      ∃ body, encodeSupervisory c p.aRpl = [FLAG] ++ body ++ [FLAG] ∧ FLAG ∉ body) ∧
    (∀ t payload, ∃ body, encodeIFrame p.aCmd t payload = [FLAG] ++ body ++ [FLAG] ∧ FLAG ∉ body)

/-- R139: the accepted regions are exactly those that destuff to a payload within the bound followed by its XOR, in a buffer that has
not overflowed. -/
def Obligations.PayloadAcceptedExactly : Prop :=
  ∀ (m : Nat) (raw : List Byte) (ovf : Bool) (payload : List Byte),
    checkPayload m raw ovf = .accept payload ↔
      ovf = false ∧ destuff raw = some (payload ++ [bcc2 payload]) ∧ payload.length ≤ m

/-- R143: the bounded buffer with its sticky flag accepts exactly what a buffer without bound would. -/
def Obligations.BoundedBufferIsExact : Prop :=
  ∀ (s : State) (region payload : List Byte),
    s.params.maxPayload ≤ 65535 → s.rawLen = 0 → s.ovf = false →
    (checkPayload s.params.maxPayload (s.collect region).rawBytes (s.collect region).ovf = .accept payload ↔
      checkPayload s.params.maxPayload region false = .accept payload)

/-! ### Host commands -/

/-- R181, R182, R254: an accepted OPEN as initiator. -/
def Obligations.OpenInitiatorSendsSet : Prop :=
  ∀ (s : State) (n : BitVec 8) (t : BitVec 16),
    s.phase = .idle → s.sess = .closed → t ≠ 0 → s.chanAvail = true → n ≠ 0 →
    exec (.openCmd .initiator n t) s = .next { s with
      done := false, role := .initiator, retryLimit := n, timeoutDuration := t, sendToggle := false, expectToggle := false
      framesTotal := 0, framesValid := 0, framesInvalid := 0, framesDuplicate := 0, retransmissions := 0, timeouts := 0
      statsValid := false, tries := 1, phase := .openITx
      txq := [0x7E, s.params.aCmd, 0x03, s.params.aCmd ^^^ 0x03, 0x7E] }

/-- R181, R186, R259: an accepted OPEN as responder, whatever its retry limit (R319). -/
def Obligations.OpenResponderWaits : Prop :=
  ∀ (s : State) (n : BitVec 8) (t : BitVec 16),
    s.phase = .idle → s.sess = .closed → t ≠ 0 → s.chanAvail = true →
    exec (.openCmd .responder n t) s = .next { s with
      done := false, role := .responder, retryLimit := n, timeoutDuration := t, sendToggle := false, expectToggle := false
      framesTotal := 0, framesValid := 0, framesInvalid := 0, framesDuplicate := 0, retransmissions := 0, timeouts := 0
      statsValid := false, tries := 0, phase := .openRWait, rs := .start, rawLen := 0, ovf := false }

/-- R189, R272: an otherwise legal OPEN with the channel unavailable. -/
def Obligations.OpenChannelUnavailable : Prop :=
  ∀ (s : State) (role : Role) (n : BitVec 8) (t : BitVec 16),
    s.phase = .idle → s.sess = .closed → t ≠ 0 → s.chanAvail = false → s.armed = false →
    exec (.openCmd role n t) s = .next { s with done := true, status := .channelUnavailable, resultLen := 0 }

/-- R319, R255: with a retry limit of zero the three timed operations fail in the step that accepts them, nothing transmitted. -/
def Obligations.ZeroRetryLimitFailsAtOnce : Prop :=
  ∀ (s : State), s.phase = .idle →
    (∀ t : BitVec 16, s.sess = .closed → t ≠ 0 → s.chanAvail = true →
      exec (.openCmd .initiator 0 t) s = .next { s with
        role := .initiator, retryLimit := 0, timeoutDuration := t, sendToggle := false, expectToggle := false
        framesTotal := 0, framesValid := 0, framesInvalid := 0, framesDuplicate := 0, retransmissions := 0, timeouts := 0
        statsValid := false, tries := 0, chanRelease := true, armed := false, done := true, status := .handshakeTimeout
        resultLen := 0 }) ∧
    (∀ len : BitVec 16, s.sess = .opened → s.retryLimit = 0 → len.toNat ≤ s.params.maxPayload →
      exec (.sendCmd len) s = .next { s with
        opLen := len, tries := 0, armed := false, done := true, status := .linkExhausted, resultLen := 0 }) ∧
    (∀ stats : Bool, s.sess = .opened → s.role = .initiator → s.retryLimit = 0 →
      exec (.closeCmd stats) s = .next { s with
        statsValid := stats, tries := 0, sess := .closed, chanRelease := true, armed := false, done := true
        status := .handshakeTimeout, resultLen := 0 })

/-- R277, R286: the commands the state or their operands do not allow change the completion record and nothing else. -/
def Obligations.IllegalCommandsRefused : Prop :=
  ∀ (s : State) (i : Instr), s.phase = .idle →
    ((∃ role n t, i = .openCmd role n t ∧ (s.sess = .opened ∨ t = 0)) ∨
      (∃ len, i = .sendCmd len ∧ (s.sess = .closed ∨ s.params.maxPayload < len.toNat)) ∨
      (i = .receiveCmd ∧ s.sess = .closed) ∨ (∃ stats, i = .closeCmd stats ∧ s.sess = .closed)) →
    exec i s = .next { s with done := true, status := .cmdError, resultLen := 0 }

/-- R211, R212, R254: an accepted SEND emits the information frame of the current toggle and payload. -/
def Obligations.SendEmitsFrame : Prop :=
  ∀ (s : State) (len : BitVec 16),
    s.phase = .idle → s.sess = .opened → len.toNat ≤ s.params.maxPayload → s.retryLimit ≠ 0 →
    exec (.sendCmd len) s = .next { s with
      done := false, opLen := len, tries := 1, phase := .sendTx
      txq := [0x7E, s.params.aCmd, if s.sendToggle then 0x80 else 0x00,
          s.params.aCmd ^^^ (if s.sendToggle then 0x80 else 0x00)]
        ++ stuff ((List.range len.toNat).map s.txbufByte ++ [bcc2 ((List.range len.toNat).map s.txbufByte)]) ++ [0x7E] }

/-- R231, R259: an accepted RECEIVE. -/
def Obligations.ReceiveStartsReading : Prop :=
  ∀ s : State, s.phase = .idle → s.sess = .opened →
    exec .receiveCmd s = .next { s with done := false, phase := .recvWait, rs := .start, rawLen := 0, ovf := false }

/-- R190, R191, R195, R199: an accepted CLOSE in either role. -/
def Obligations.CloseStartsHandshake : Prop :=
  ∀ (s : State) (stats : Bool), s.phase = .idle → s.sess = .opened →
    (s.role = .initiator → s.retryLimit ≠ 0 →
      exec (.closeCmd stats) s = .next { s with
        done := false, tries := 1, statsValid := stats, phase := .closeITx
        txq := [0x7E, s.params.aCmd, 0x0B, s.params.aCmd ^^^ 0x0B, 0x7E] }) ∧
    (s.role = .responder →
      exec (.closeCmd stats) s = .next { s with
        done := false, tries := 0, statsValid := stats, phase := .closeRWait, rs := .start, rawLen := 0, ovf := false })

/-- R286: a command presented while the engine is busy is not taken and leaves no trace. -/
def Obligations.BusyTakesNoCommand : Prop :=
  ∀ (s : State) (i : Instr), s.phase ≠ .idle →
    ((∃ role n t, i = .openCmd role n t) ∨ (∃ len, i = .sendCmd len) ∨ i = .receiveCmd ∨ ∃ stats, i = .closeCmd stats) →
    exec i s = .next s

/-! ### Frames received -/

/-- R187. -/
def Obligations.SetAnsweredByUa : Prop :=
  ∀ s : State, s.phase = .openRWait →
    exec .set s = .next { s with
      rs := .start, phase := .openRTx, txq := [0x7E, s.params.aRpl, 0x07, s.params.aRpl ^^^ 0x07, 0x7E] }

/-- R183, R271. -/
def Obligations.UaOpensSession : Prop :=
  ∀ s : State, s.phase = .openIWait →
    exec .ua s = .next { s with
      rs := .start, sess := .opened, armed := false, phase := .idle, done := true, status := .ok, resultLen := 0 }

/-- R192, R196, R198. -/
def Obligations.DiscClosesOrIsAnswered : Prop :=
  ∀ s : State,
    (s.phase = .closeIWait → exec .disc s = .next { s with
      rs := .start, sess := .closed, chanRelease := true, armed := false, phase := .idle, done := true, status := .ok
      resultLen := 0 }) ∧
    (s.phase = .closeRWait → exec .disc s = .next { s with
      rs := .start, phase := .closeRTx, txq := [0x7E, s.params.aRpl, 0x0B, s.params.aRpl ^^^ 0x0B, 0x7E] })

/-- R214: the RR naming the other toggle completes the SEND. -/
def Obligations.AcknowledgingRrCompletesSend : Prop :=
  ∀ (s : State) (i : Instr), s.phase = .sendWait → (i = .rr0 ∧ s.sendToggle = true ∨ i = .rr1 ∧ s.sendToggle = false) →
    exec i s = .next { s with
      rs := .start, sendToggle := !s.sendToggle, framesValid := s.framesValid + 1, framesTotal := s.framesTotal + 1
      armed := false, phase := .idle, done := true, status := .ok, resultLen := s.opLen }

/-- R215: the RR naming the sender's own toggle is ignored, the timer running on. -/
def Obligations.SameToggleRrIgnored : Prop :=
  ∀ (s : State) (i : Instr), s.phase = .sendWait → (i = .rr0 ∧ s.sendToggle = false ∨ i = .rr1 ∧ s.sendToggle = true) →
    exec i s = .next { s with rs := .start, rawLen := 0, ovf := false }

/-- R216: a REJ, whichever toggle it names, is answered by the same frame at once while budget remains or none is used, and ends the SEND
when it would use a unit of an empty budget. -/
def Obligations.RejRetransmitsAtOnce : Prop :=
  ∀ (s : State) (i : Instr), s.phase = .sendWait → (i = .rej0 ∨ i = .rej1) →
    (s.params.rejConsumesRetry = false ∨ s.tries < s.retryLimit →
      exec i s = .next { s with
        rs := .start, armed := false, framesInvalid := s.framesInvalid + 1, framesTotal := s.framesTotal + 1
        retransmissions := s.retransmissions + 1, tries := if s.params.rejConsumesRetry then s.tries + 1 else s.tries
        phase := .sendTx, txq := encodeIFrame s.params.aCmd s.sendToggle ((List.range s.opLen.toNat).map s.txbufByte) }) ∧
    (s.params.rejConsumesRetry = true → s.retryLimit ≤ s.tries →
      exec i s = .next { s with
        rs := .start, armed := false, framesInvalid := s.framesInvalid + 1, framesTotal := s.framesTotal + 1
        retransmissions := s.retransmissions + 1, phase := .idle, done := true, status := .linkExhausted, resultLen := 0 })

/-- R233: the reject path, whichever toggle the frame carries. -/
def Obligations.RejectedFrameAnsweredByRej : Prop :=
  ∀ (s : State) (i : Instr) (why : RejectReason), s.phase = .recvWait → (i = .i0 ∨ i = .i1) →
    checkPayload s.params.maxPayload s.rawBytes s.ovf = .reject why →
    exec i s = .next { s with
      rs := .start, framesInvalid := s.framesInvalid + 1, framesTotal := s.framesTotal + 1, phase := .recvTxRej
      txq := encodeSupervisory (if s.expectToggle then 0x55 else 0x54) s.params.aRpl }

/-- R235: the duplicate path. -/
def Obligations.DuplicateFrameAcknowledgedAgain : Prop :=
  ∀ (s : State) (i : Instr) (payload : List Byte), s.phase = .recvWait →
    (i = .i0 ∧ s.expectToggle = true ∨ i = .i1 ∧ s.expectToggle = false) →
    checkPayload s.params.maxPayload s.rawBytes s.ovf = .accept payload →
    exec i s = .next { s with
      rs := .start, framesDuplicate := s.framesDuplicate + 1, framesTotal := s.framesTotal + 1, phase := .recvTxDup
      txq := encodeSupervisory (if s.expectToggle then 0xAB else 0xAA) s.params.aRpl }

/-- R237: the new-frame path; what RXBUF holds afterwards, byte by byte. -/
def Obligations.NewFrameDelivered : Prop :=
  ∀ (s : State) (i : Instr) (payload : List Byte), s.phase = .recvWait →
    (i = .i0 ∧ s.expectToggle = false ∨ i = .i1 ∧ s.expectToggle = true) →
    checkPayload s.params.maxPayload s.rawBytes s.ovf = .accept payload →
    ∃ buf : Memory,
      exec i s = .next { s with
        rs := .start, rxbuf := buf, rxLen := BitVec.ofNat 16 payload.length, expectToggle := !s.expectToggle
        framesValid := s.framesValid + 1, framesTotal := s.framesTotal + 1, phase := .recvTxAck
        txq := encodeSupervisory (if s.expectToggle then 0xAA else 0xAB) s.params.aRpl } ∧
      (∀ k, k < payload.length → buf.read? k = payload[k]?) ∧
      (∀ k, payload.length ≤ k → buf.read? k = s.rxbuf.read? k)

/-- THE MODEL'S CHOICE, log entry 5: what `exec` of a frame kind does in a state in which `step` never gives it that kind. Where the present
wait does not accept the kind, its closing FLAG is a FLAG like any other; outside the WAIT phases it is no byte taken. What a byte stream with
such a frame does to the engine (R101, R153) is said of `step` in BadHeaderIsSilent. -/
def Obligations.UnacceptedFrameIgnored : Prop :=
  ∀ (s : State) (i : Instr) (c : Byte), decodeControl c = .ok i → c ∉ s.phase.accept →
    (s.phase.isWait = true → s.rs ≠ .bccOk → s.rs ≠ .collecting → s.rs ≠ .check → s.rs ≠ .done →
      exec i s = .next { s with rs := .flagSeen }) ∧
    (s.phase.isWait = false → exec i s = .next s)

/-! ### Delimiter and escape pairs -/

/-- R151 to R154: while no region or complete header is held, FLAG takes the reader to FLAG_SEEN; R163, R155 to R159: otherwise it runs
the frame whose control byte is remembered; outside the WAIT phases no byte is taken (R258). -/
def Obligations.FlagOpensOrEndsFrame : Prop :=
  ∀ s : State,
    (s.phase.isWait = false → exec .flag s = .next s) ∧
    (s.phase.isWait = true → s.rs = .start ∨ s.rs = .flagSeen ∨ s.rs = .addressSeen ∨ s.rs = .controlSeen →
      exec .flag s = .next { s with rs := .flagSeen }) ∧
    (∀ i, s.rs = .bccOk ∨ s.rs = .collecting ∧ isInfo s.ctl = true → decodeControl s.ctl = .ok i → exec .flag s = exec i s)

/-- R156, R157, R134: the second byte of an escape pair is collected, and the region then destuffs to one byte more: 0x7E for ESC_FLAG,
0x7D for ESC_ESC, `x XOR 0x20` for ESC_ANY. At a full buffer the byte is dropped and `ovf` set. -/
def Obligations.EscapePairDestuffs : Prop :=
  ∀ (s : State) (i : Instr) (x : Byte) (before d : List Byte),
    (i = .escFlag ∧ x = 0x5E ∨ i = .escEsc ∧ x = 0x5D ∨ i = .escAny x ∧ x ≠ 0x7E) →
    s.phase.isWait = true → s.rs = .collecting → s.params.maxPayload ≤ 65535 →
    s.rawBytes = before ++ [ESC] → destuff before = some d →
    (s.rawLen.toNat < s.params.rawCap →
      ∃ t, exec i s = .next t ∧ t.rawBytes = before ++ [ESC, x] ∧ destuff t.rawBytes = some (d ++ [x ^^^ 0x20]) ∧
        t = { s with raw := t.raw, rawLen := s.rawLen + 1 }) ∧
    (s.params.rawCap ≤ s.rawLen.toNat → exec i s = .next { s with ovf := true })

/-- R99: outside a stuffed region the second bytes have no meaning of their own: the reader takes them as R151 to R155 say of any byte that is
no FLAG. THE MODEL'S CHOICE, log entry 5: `step` gives `exec` an escape pair only with an escape pending, so the states named here are ones in
which `exec` is only asked; outside the WAIT phases (R258) it is no byte taken. -/
def Obligations.EscapeBytesPlainOutsideRegion : Prop :=
  ∀ (s : State) (i : Instr) (x : Byte),
    (i = .escFlag ∧ x = 0x5E ∨ i = .escEsc ∧ x = 0x5D ∨ i = .escAny x ∧ x ≠ 0x7E) →
    (s.phase.isWait = true →
      (s.rs = .start ∨ s.rs = .bccOk ∧ isInfo s.ctl = false → exec i s = .next { s with rs := .start }) ∧
      (s.rs = .flagSeen → exec i s = .next { s with rs := if x = s.phase.expAddr s.params then .addressSeen else .start }) ∧
      (s.rs = .addressSeen →
        exec i s = .next (if x ∈ s.phase.accept then { s with rs := .controlSeen, ctl := x } else { s with rs := .start })) ∧
      (s.rs = .controlSeen →
        exec i s = .next { s with rs := if x = s.phase.expAddr s.params ^^^ s.ctl then .bccOk else .start })) ∧
    (s.phase.isWait = false → exec i s = .next s)

/-! ### Frames: what an instruction leaves alone -/

/-- The host commands write no counter but when OPEN clears them, no buffer byte, no reader register but by the start of a wait, and
neither the parameters nor the schedule. -/
def Obligations.HostCommandFrame : Prop :=
  ∀ (s t : State) (i : Instr),
    ((∃ role n d, i = .openCmd role n d) ∨ (∃ len, i = .sendCmd len) ∨ i = .receiveCmd ∨ ∃ stats, i = .closeCmd stats) →
    exec i s = .next t →
    (∀ a, t.txbufByte a = s.txbufByte a ∧ t.rxbufByte a = s.rxbufByte a ∧ t.rawByte a = s.rawByte a) ∧
    t.params = s.params ∧ t.ctl = s.ctl ∧ t.rxLen = s.rxLen ∧ t.remaining = s.remaining ∧ t.txOut = s.txOut ∧
    t.chanAvail = s.chanAvail ∧ t.events = s.events ∧ t.source = s.source ∧ t.epoch = s.epoch ∧ t.steps = s.steps ∧
    ((∀ len, i ≠ .sendCmd len) → t.opLen = s.opLen) ∧
    ((∃ len, i = .sendCmd len) → t.rs = s.rs ∧ t.rawLen = s.rawLen ∧ t.ovf = s.ovf ∧ t.chanRelease = s.chanRelease) ∧
    (i = .receiveCmd → t.tries = s.tries ∧ t.txq = s.txq ∧ t.armed = s.armed ∧ t.chanRelease = s.chanRelease) ∧
    ((∀ stats, i ≠ .closeCmd stats) → (∀ role n d, i ≠ .openCmd role n d) → t.statsValid = s.statsValid ∧ t.sess = s.sess) ∧
    ((∀ role n d, i ≠ .openCmd role n d) →
      t.role = s.role ∧ t.retryLimit = s.retryLimit ∧ t.timeoutDuration = s.timeoutDuration ∧
      t.sendToggle = s.sendToggle ∧ t.expectToggle = s.expectToggle ∧
      t.framesTotal = s.framesTotal ∧ t.framesValid = s.framesValid ∧ t.framesInvalid = s.framesInvalid ∧
      t.framesDuplicate = s.framesDuplicate ∧ t.retransmissions = s.retransmissions ∧ t.timeouts = s.timeouts)

/-- The supervisory frames (SET, UA, DISC, RR, REJ) write no buffer byte and neither `expect_toggle` nor the OPEN operands; only an RR
moves `send_toggle` and `frames_valid`, only a REJ moves `frames_invalid`, `retransmissions` and `tries`, only UA and DISC move `sess`. -/
def Obligations.SupervisoryFrameFrame : Prop :=
  ∀ (s t : State) (i : Instr), i ∈ [Instr.set, .ua, .disc, .rr0, .rr1, .rej0, .rej1] → exec i s = .next t →
    (∀ a, t.txbufByte a = s.txbufByte a ∧ t.rxbufByte a = s.rxbufByte a ∧ t.rawByte a = s.rawByte a) ∧
    t.params = s.params ∧ t.role = s.role ∧ t.retryLimit = s.retryLimit ∧ t.timeoutDuration = s.timeoutDuration ∧
    t.expectToggle = s.expectToggle ∧ t.framesDuplicate = s.framesDuplicate ∧ t.timeouts = s.timeouts ∧ t.ctl = s.ctl ∧
    t.opLen = s.opLen ∧ t.rxLen = s.rxLen ∧ t.remaining = s.remaining ∧ t.statsValid = s.statsValid ∧ t.txOut = s.txOut ∧
    t.chanAvail = s.chanAvail ∧ t.events = s.events ∧ t.source = s.source ∧ t.epoch = s.epoch ∧ t.steps = s.steps ∧
    (i ∉ [Instr.rr0, .rr1] →
      t.sendToggle = s.sendToggle ∧ t.framesValid = s.framesValid ∧ t.rawLen = s.rawLen ∧ t.ovf = s.ovf) ∧
    (i ∉ [Instr.rej0, .rej1] →
      t.framesInvalid = s.framesInvalid ∧ t.retransmissions = s.retransmissions ∧ t.tries = s.tries) ∧
    (i ∉ [Instr.ua, .disc] → t.sess = s.sess) ∧ (i ≠ .disc → t.chanRelease = s.chanRelease) ∧
    (i ∈ [Instr.ua, .rr0, .rr1] → t.txq = s.txq) ∧
    (i = .set → t.armed = s.armed ∧ t.done = s.done ∧ t.status = s.status ∧ t.resultLen = s.resultLen ∧
      t.framesTotal = s.framesTotal)

/-- The information frames store the accepted payload at `RXBUF[0 .. n)` and nothing else, and leave the session, the sender's side, the
timer and the completion record alone. -/
def Obligations.InformationFrameFrame : Prop :=
  ∀ (s t : State) (i : Instr), i ∈ [Instr.i0, .i1] → exec i s = .next t →
    (∀ a, t.txbufByte a = s.txbufByte a ∧ t.rawByte a = s.rawByte a) ∧
    (∀ payload, checkPayload s.params.maxPayload s.rawBytes s.ovf = .accept payload →
      ∀ a, payload.length ≤ a → t.rxbufByte a = s.rxbufByte a) ∧
    (∀ why, checkPayload s.params.maxPayload s.rawBytes s.ovf = .reject why → ∀ a, t.rxbufByte a = s.rxbufByte a) ∧
    (t.expectToggle = s.expectToggle → (∀ a, t.rxbufByte a = s.rxbufByte a) ∧ t.rxLen = s.rxLen) ∧
    t.params = s.params ∧ t.sess = s.sess ∧ t.role = s.role ∧ t.retryLimit = s.retryLimit ∧
    t.timeoutDuration = s.timeoutDuration ∧ t.sendToggle = s.sendToggle ∧ t.retransmissions = s.retransmissions ∧
    t.timeouts = s.timeouts ∧ t.ctl = s.ctl ∧ t.rawLen = s.rawLen ∧ t.ovf = s.ovf ∧ t.tries = s.tries ∧ t.opLen = s.opLen ∧
    t.armed = s.armed ∧ t.remaining = s.remaining ∧ t.done = s.done ∧ t.status = s.status ∧ t.resultLen = s.resultLen ∧
    t.statsValid = s.statsValid ∧ t.chanRelease = s.chanRelease ∧ t.txOut = s.txOut ∧ t.chanAvail = s.chanAvail ∧
    t.events = s.events ∧ t.source = s.source ∧ t.epoch = s.epoch ∧ t.steps = s.steps

/-- The escape pairs write the reader's registers alone; of memory only the cell `RAW[raw_len]`, and that only in a stuffed region with room
(R64). -/
def Obligations.EscapePairFrame : Prop :=
  ∀ (s t : State) (i : Instr), (i = .escFlag ∨ i = .escEsc ∨ ∃ x, i = .escAny x ∧ x ≠ 0x7E) → exec i s = .next t →
    t = { s with rs := t.rs, ctl := t.ctl, raw := t.raw, rawLen := t.rawLen, ovf := t.ovf } ∧
    (∀ a, a ≠ s.rawLen.toNat → t.rawByte a = s.rawByte a) ∧
    (¬ (s.phase.isWait = true ∧ (s.rs = .collecting ∨ s.rs = .bccOk ∧ isInfo s.ctl = true) ∧
        s.rawLen.toNat < s.params.rawCap) → (∀ a, t.rawByte a = s.rawByte a) ∧ t.rawLen = s.rawLen) ∧
    (¬ (s.phase.isWait = true ∧ s.rs = .addressSeen) → t.ctl = s.ctl)

/-! ### Events -/

/-- R257, R65: TxTake puts out the head of `txq`; the last byte ends the TX phase as R188, R197, R234, R236, R238, R259 say. -/
def Obligations.TxTakeDrainsQueue : Prop :=
  ∀ (s : State) (b : Byte) (q : List Byte) (rest : List Event), s.params.ok = true → s.upcoming = .txTake :: rest →
    s.txq = b :: q →
    (q ≠ [] → step s = .next { s with txq := q, txOut := some b, chanRelease := false, events := rest, steps := s.steps + 1 }) ∧
    (q = [] →
      (s.phase = .openITx ∨ s.phase = .sendTx ∨ s.phase = .closeITx →
        step s = .next { s with
          txq := [], txOut := some b, chanRelease := false, events := rest, steps := s.steps + 1
          phase := if s.phase = .openITx then .openIWait else if s.phase = .sendTx then .sendWait else .closeIWait
          rs := .start, rawLen := 0, ovf := false, armed := true, remaining := s.timeoutDuration }) ∧
      (s.phase = .recvTxRej → step s = .next { s with
          txq := [], txOut := some b, chanRelease := false, events := rest, steps := s.steps + 1
          phase := .recvWait, rs := .start, rawLen := 0, ovf := false }) ∧
      (s.phase = .openRTx → step s = .next { s with
          txq := [], txOut := some b, chanRelease := false, events := rest, steps := s.steps + 1
          sess := .opened, armed := false, phase := .idle, done := true, status := .ok, resultLen := 0 }) ∧
      (s.phase = .closeRTx → step s = .next { s with
          txq := [], txOut := some b, chanRelease := true, events := rest, steps := s.steps + 1
          sess := .closed, armed := false, phase := .idle, done := true, status := .ok, resultLen := 0 }) ∧
      (s.phase = .recvTxDup → step s = .next { s with
          txq := [], txOut := some b, chanRelease := false, events := rest, steps := s.steps + 1
          armed := false, phase := .idle, done := true, status := .duplicate, resultLen := 0 }) ∧
      (s.phase = .recvTxAck → step s = .next { s with
          txq := [], txOut := some b, chanRelease := false, events := rest, steps := s.steps + 1
          armed := false, phase := .idle, done := true, status := .ok, resultLen := s.rxLen }))

/-- R252: a timer with `k` ticks left is still running after fewer than `k` ticks, whatever `k` is. -/
def Obligations.TimerRunsItsTicks : Prop :=
  ∀ (s : State) (k : Nat) (rest : List Event), s.params.ok = true → s.armed = true → k < s.remaining.toNat →
    s.events = List.replicate k Event.tick ++ rest →
    ∃ t, Host.Core.run Sys2Proof.core k s = .next t ∧ t.remaining = s.remaining - BitVec.ofNat 16 k ∧
      t = { s with
        remaining := t.remaining, chanRelease := t.chanRelease, txOut := t.txOut, events := rest, steps := s.steps + k }

/-- R253, R254, R255: the tick that finds one tick left expires; the operation is attempted again with the same frame while budget remains,
and fails when it is used up. Both counters move in either case. -/
def Obligations.ExpiryRetriesOrFails : Prop :=
  ∀ (s : State) (rest : List Event), s.params.ok = true → s.upcoming = .tick :: rest → s.armed = true → s.remaining = 1 →
    s.phase = .openIWait ∨ s.phase = .sendWait ∨ s.phase = .closeIWait →
    (s.tries < s.retryLimit → step s = .next { s with
      armed := false, timeouts := s.timeouts + 1, retransmissions := s.retransmissions + 1, tries := s.tries + 1
      phase := if s.phase = .openIWait then .openITx else if s.phase = .sendWait then .sendTx else .closeITx
      txq := if s.phase = .openIWait then encodeSupervisory 0x03 s.params.aCmd
        else if s.phase = .sendWait then
          encodeIFrame s.params.aCmd s.sendToggle ((List.range s.opLen.toNat).map s.txbufByte)
        else encodeSupervisory 0x0B s.params.aCmd
      chanRelease := false, txOut := none, events := rest, steps := s.steps + 1 }) ∧
    (s.retryLimit ≤ s.tries → step s = .next { s with
      armed := false, timeouts := s.timeouts + 1, retransmissions := s.retransmissions + 1
      phase := .idle, done := true, resultLen := 0
      status := if s.phase = .sendWait then .linkExhausted else .handshakeTimeout
      sess := if s.phase = .closeIWait then .closed else s.sess
      chanRelease := decide (s.phase ≠ .sendWait), txOut := none, events := rest, steps := s.steps + 1 })

/-- R280: a channel error ends the command in progress with IO_ERROR and is nothing in IDLE. -/
def Obligations.ChannelErrorAborts : Prop :=
  ∀ (s : State) (rest : List Event), s.params.ok = true → s.upcoming = .chanErr :: rest →
    (s.phase = .idle → step s = .next { s with
      chanRelease := false, txOut := none, events := rest, steps := s.steps + 1 }) ∧
    (s.phase ≠ .idle → step s = .next { s with
      txq := [], armed := false, phase := .idle, done := true, status := .ioError, resultLen := 0
      sess := if s.phase ∈ [Phase.closeITx, .closeIWait, .closeRWait, .closeRTx] then .closed else s.sess
      chanRelease := decide (s.phase ∈
        [Phase.closeITx, .closeIWait, .closeRWait, .closeRTx, .openITx, .openIWait, .openRWait, .openRTx])
      txOut := none, events := rest, steps := s.steps + 1 })

/-- R310, R311: a reset puts every register at its reset value from any state, and every status register then reads 0. What the buffer
cells hold afterwards is free (U9, log entry 3), so nothing is said of it. -/
def Obligations.ResetClearsRegisters : Prop :=
  ∀ (s : State) (rest : List Event), s.params.ok = true → s.upcoming = .reset :: rest →
    ∃ t, step s = .next t ∧
      t = { State.resetWith s.params with
        raw := t.raw, txbuf := t.txbuf, rxbuf := t.rxbuf
        chanAvail := s.chanAvail, events := rest, source := s.source, epoch := t.epoch, steps := s.steps + 1 } ∧
      (∀ i, t.sr i = 0) ∧ t.cmdReady = true ∧ t.rxReady = false ∧ t.txValid = false

/-- R62: the host's write of TXBUF in IDLE below MAX_PAYLOAD, and its frame. -/
def Obligations.HostWritesTxbuf : Prop :=
  ∀ (s : State) (a : BitVec 16) (v : Byte) (rest : List Event), s.params.ok = true → s.upcoming = .hostBufWrite a v :: rest →
    s.phase = .idle → a.toNat < s.params.maxPayload →
    ∃ t, step s = .next t ∧ t.txbufByte a.toNat = v ∧ (∀ k, k ≠ a.toNat → t.txbufByte k = s.txbufByte k) ∧
      t = { s with txbuf := t.txbuf, chanRelease := false, txOut := none, events := rest, steps := s.steps + 1 }

/-- R46: where the fields of the status registers stand, and what reads 0; with the code tables of R270 (`status`), R26 (`rs`) and R32
(`phase`). -/
def Obligations.StatusRegisterFields : Prop :=
  ∀ s : State,
    (s.sr 0).extractLsb' 0 3 = s.status.code ∧ (s.sr 0).getLsbD 3 = s.done ∧ (s.sr 0).getLsbD 4 = decide (s.phase ≠ .idle) ∧
    (s.sr 0).getLsbD 5 = decide (s.sess = .opened) ∧ (s.sr 0).getLsbD 6 = decide (s.role = .responder) ∧
    (s.sr 0).getLsbD 7 = s.sendToggle ∧ (s.sr 0).getLsbD 8 = s.expectToggle ∧ (s.sr 0).getLsbD 9 = s.statsValid ∧
    (s.sr 0).getLsbD 10 = s.armed ∧ (s.sr 0).extractLsb' 11 3 = s.rs.code ∧ (s.sr 0).extractLsb' 14 4 = s.phase.code ∧
    (s.sr 0).getLsbD 18 = s.ovf ∧ (s.sr 0).extractLsb' 19 13 = 0 ∧
    (s.sr 1).extractLsb' 0 16 = s.resultLen ∧ (s.sr 1).extractLsb' 16 16 = s.rxLen ∧
    (s.sr 2).extractLsb' 0 8 = s.retryLimit ∧ (s.sr 2).extractLsb' 8 16 = s.timeoutDuration ∧
    (s.sr 2).extractLsb' 24 8 = 0 ∧
    s.sr 3 = s.framesTotal ∧ s.sr 4 = s.framesValid ∧ s.sr 5 = s.framesInvalid ∧ s.sr 6 = s.framesDuplicate ∧
    s.sr 7 = s.retransmissions ∧ s.sr 8 = s.timeouts ∧
    (s.sr 9).extractLsb' 0 8 = s.tries ∧ (s.sr 9).extractLsb' 8 16 = s.remaining ∧ (s.sr 9).extractLsb' 24 8 = s.ctl ∧
    (s.sr 10).extractLsb' 0 16 = s.opLen ∧ (s.sr 10).extractLsb' 16 16 = s.rawLen.extractLsb' 0 16 ∧
    (∀ i : BitVec 4, 11 ≤ i.toNat → s.sr i = 0) ∧
    [Status.ok, .duplicate, .channelUnavailable, .handshakeTimeout, .linkExhausted, .ioError, .cmdError].map Status.code =
      [0, 1, 2, 3, 4, 5, 6] ∧
    [ReaderState.start, .flagSeen, .addressSeen, .controlSeen, .bccOk, .collecting, .check, .done].map ReaderState.code =
      [0, 1, 2, 3, 4, 5, 6, 7] ∧
    [Phase.idle, .openITx, .openIWait, .openRWait, .openRTx, .sendTx, .sendWait, .recvWait, .recvTxRej, .recvTxDup, .recvTxAck, .closeITx,
      .closeIWait, .closeRWait, .closeRTx].map Phase.code = [0, 1, 2, 3, 4, 5, 6, 7, 8, 9, 10, 11, 12, 13, 14]

/-! ### The whole machine -/

/-- The invariant holds right after reset, for every conforming instance. -/
def Obligations.InvAfterReset : Prop :=
  ∀ p : Params, p.ok = true → (State.resetWith p).Inv

/-- R260 and the invariants of 10_state.md: every step keeps the invariant. -/
def Obligations.StepKeepsInv : Prop :=
  ∀ s t : State, s.Inv → step s = .next t → t.Inv

/-- In a state that meets the invariant a conforming engine always steps: the model's three faults are raised in no state a run reaches. -/
def Obligations.InvStatesNeverStop : Prop :=
  ∀ s : State, s.params.ok = true → s.Inv → ∃ t, step s = .next t

/-- R25, R219: `send_toggle` changes only when a SEND completes OK (a flip), or to 0 by an accepted OPEN or a reset. -/
def Obligations.SendToggleFlipsOnlyOnAck : Prop :=
  ∀ s t : State, step s = .next t → t.sendToggle ≠ s.sendToggle →
    (s.phase = .sendWait ∧ t.phase = .idle ∧ t.done = true ∧ t.status = .ok ∧ t.resultLen = s.opLen ∧
      t.framesValid = s.framesValid + 1) ∨
    (t.sendToggle = false ∧ ((∃ rest, s.upcoming = .reset :: rest) ∨
      ∃ w avail rest, s.upcoming = .cmd w avail :: rest ∧ s.phase = .idle ∧ s.sess = .closed ∧ opField w = 0))

/-- R25, R240 (b): `expect_toggle` changes only when a new frame is accepted, or to 0 by an accepted OPEN or a reset. -/
def Obligations.ExpectToggleFlipsOnlyOnNewFrame : Prop :=
  ∀ s t : State, step s = .next t → t.expectToggle ≠ s.expectToggle →
    (s.phase = .recvWait ∧ t.phase = .recvTxAck ∧ t.framesValid = s.framesValid + 1 ∧
      ∃ payload, checkPayload s.params.maxPayload s.rawBytes s.ovf = .accept payload ∧
        t.rxLen = BitVec.ofNat 16 payload.length) ∨
    (t.expectToggle = false ∧ ((∃ rest, s.upcoming = .reset :: rest) ∨
      ∃ w avail rest, s.upcoming = .cmd w avail :: rest ∧ s.phase = .idle ∧ s.sess = .closed ∧ opField w = 0))

/-- R41, R42: what a step does to the six counters is one of: nothing; the zeroing of an OPEN or a reset; the expiry of R253; the RR
of R214 or the new frame of R237; the REJ of R216; the rejected frame of R233; the duplicate of R235. -/
def Obligations.CountersMoveOnlyAsListed : Prop :=
  ∀ s t : State, step s = .next t →
    t.counters = s.counters ∨
    (t.counters = ⟨0, 0, 0, 0, 0, 0⟩ ∧ ((∃ rest, s.upcoming = .reset :: rest) ∨
      ∃ w avail rest, s.upcoming = .cmd w avail :: rest ∧ s.phase = .idle ∧ s.sess = .closed ∧ opField w = 0)) ∨
    ((∃ rest, s.upcoming = .tick :: rest) ∧ s.armed = true ∧ s.phase ∈ [Phase.openIWait, .sendWait, .closeIWait] ∧
      t.counters = { s.counters with timeouts := s.timeouts + 1, retransmissions := s.retransmissions + 1 }) ∨
    ((∃ rest, s.upcoming = .rx FLAG :: rest) ∧
      (s.phase ∈ [Phase.sendWait, .recvWait] ∧
          t.counters = { s.counters with valid := s.framesValid + 1, total := s.framesTotal + 1 } ∨
        s.phase = .sendWait ∧
          t.counters = { s.counters with
            invalid := s.framesInvalid + 1, total := s.framesTotal + 1, retransmissions := s.retransmissions + 1 } ∨
        s.phase = .recvWait ∧
          t.counters = { s.counters with invalid := s.framesInvalid + 1, total := s.framesTotal + 1 } ∨
        s.phase = .recvWait ∧
          t.counters = { s.counters with duplicate := s.framesDuplicate + 1, total := s.framesTotal + 1 }))

/-- R62, R79, R63: the engine never writes TXBUF; RXBUF changes only in the step that accepts a new frame, and there only below the length
stored in `rx_len`. -/
def Obligations.BuffersWrittenOnlyAsListed : Prop :=
  ∀ s t : State, step s = .next t → (∀ rest, s.upcoming ≠ .reset :: rest) →
    ((∀ a v rest, s.upcoming ≠ .hostBufWrite a v :: rest) ∨ s.phase ≠ .idle → ∀ k, t.txbufByte k = s.txbufByte k) ∧
    ((∀ k, t.rxbufByte k = s.rxbufByte k) ∨
      s.phase = .recvWait ∧ t.phase = .recvTxAck ∧ t.expectToggle = !s.expectToggle ∧
        ∀ k, t.rxLen.toNat ≤ k → t.rxbufByte k = s.rxbufByte k)

/-- R22 to R24, R47: the operands of OPEN change only by an OPEN taken without a session, or a reset; the parameters (and the
model's source of events) never. -/
def Obligations.OpenOperandsWrittenOnlyByOpen : Prop :=
  ∀ s t : State, step s = .next t →
    t.params = s.params ∧ t.source = s.source ∧
    (t.role = s.role ∧ t.retryLimit = s.retryLimit ∧ t.timeoutDuration = s.timeoutDuration ∨
      (∃ rest, s.upcoming = .reset :: rest) ∨
      ∃ w avail rest, s.upcoming = .cmd w avail :: rest ∧ s.phase = .idle ∧ s.sess = .closed ∧ opField w = 0)

/-- R77: at the step where `done` becomes 1 the transmit queue is empty, the timer disarmed and the engine idle. -/
def Obligations.CompletionPointIsQuiet : Prop :=
  ∀ s t : State, s.Inv → step s = .next t → s.done = false → t.done = true →
    t.txq = [] ∧ t.armed = false ∧ t.phase = .idle

/-- R283 (a): the FLAG that completes a frame in a timed wait wins over a tick at the same clock edge, which would expire the timer: the
command completes, or the REJ retry starts, and no timeout is counted. R283 (c): where it completes the command, it wins over a channel error
at that edge as well. -/
def Obligations.FrameWinsOverTickAndError : Prop :=
  ∀ (s : State) (p : InPorts), s.params.ok = true → s.events = [] → s.rs = .bccOk →
    p.rst = false → p.rxValid = true → p.rxData = FLAG → p.tick = true →
    (p.chanErr = true →
      (s.phase = .sendWait → (s.ctl = C_RR0 ∧ s.sendToggle = true ∨ s.ctl = C_RR1 ∧ s.sendToggle = false) →
        ∃ t, Host.Core.run Sys2Proof.core 3 (s.clockEdge p) = .next t ∧ t.events = [] ∧ t.phase = .idle ∧ t.status = .ok ∧
          t.done = true ∧ t.resultLen = s.opLen ∧ t.sendToggle = !s.sendToggle ∧ t.sess = s.sess ∧ t.armed = false ∧
          t.timeouts = s.timeouts ∧ t.retransmissions = s.retransmissions) ∧
      (s.phase = .openIWait → s.ctl = C_UA →
        ∃ t, Host.Core.run Sys2Proof.core 3 (s.clockEdge p) = .next t ∧ t.events = [] ∧ t.phase = .idle ∧ t.status = .ok ∧
          t.done = true ∧ t.resultLen = 0 ∧ t.sess = .opened ∧ t.armed = false ∧ t.timeouts = s.timeouts ∧
          t.retransmissions = s.retransmissions) ∧
      (s.phase = .closeIWait → s.ctl = C_DISC →
        ∃ t, Host.Core.run Sys2Proof.core 3 (s.clockEdge p) = .next t ∧ t.events = [] ∧ t.phase = .idle ∧ t.status = .ok ∧
          t.done = true ∧ t.resultLen = 0 ∧ t.sess = .closed ∧ t.armed = false ∧ t.timeouts = s.timeouts ∧
          t.retransmissions = s.retransmissions) ∧
      (s.phase = .sendWait → s.ctl = C_REJ0 ∨ s.ctl = C_REJ1 → s.params.rejConsumesRetry = true → s.retryLimit ≤ s.tries →
        ∃ t, Host.Core.run Sys2Proof.core 3 (s.clockEdge p) = .next t ∧ t.events = [] ∧ t.phase = .idle ∧
          t.status = .linkExhausted ∧ t.done = true ∧ t.resultLen = 0 ∧ t.sess = s.sess ∧ t.armed = false ∧
          t.timeouts = s.timeouts ∧ t.retransmissions = s.retransmissions + 1)) ∧
    (p.chanErr = false → s.phase = .sendWait → s.ctl = C_REJ0 ∨ s.ctl = C_REJ1 →
      s.params.rejConsumesRetry = false ∨ s.tries < s.retryLimit →
      ∃ t, Host.Core.run Sys2Proof.core 2 (s.clockEdge p) = .next t ∧ t.events = [] ∧ t.phase = .sendTx ∧
        t.txq = encodeIFrame s.params.aCmd s.sendToggle ((List.range s.opLen.toNat).map s.txbufByte) ∧ t.armed = false ∧
        t.timeouts = s.timeouts ∧ t.retransmissions = s.retransmissions + 1)

/-- R164 (a): from START any bytes without a FLAG leave the reader in START and everything else as it was. -/
def Obligations.NoiseIsIgnored : Prop :=
  ∀ (s : State) (noise : List Byte), s.params.ok = true → s.events = [] → s.phase.isWait = true → s.rs = .start →
    FLAG ∉ noise →
    Host.Core.run Sys2Proof.core noise.length (s.receiving noise) = .next { s with
      chanRelease := if noise = [] then s.chanRelease else false, txOut := if noise = [] then s.txOut else none
      steps := s.steps + noise.length }

/-- R164 (e): the five bytes of an accepted supervisory frame at the expected address, read from START or FLAG_SEEN, run the frame kind of
their control byte. -/
def Obligations.SupervisoryFrameRecognised : Prop :=
  ∀ (s : State) (c : Byte) (i : Instr), s.params.ok = true → s.events = [] → s.phase.isWait = true →
    s.rs = .start ∨ s.rs = .flagSeen → c ∈ s.phase.accept → isInfo c = false → decodeControl c = .ok i →
    Host.Core.run Sys2Proof.core 5 (s.receiving (encodeSupervisory c (s.phase.expAddr s.params))) =
      exec i { s with rs := .bccOk, ctl := c, chanRelease := false, txOut := none, steps := s.steps + 5 }

/-- R164 (b): a frame whose address, control or BCC1 does not pass has no effect. First by the byte that fails (R152; R153 and R101; R154; and
R155, a supervisory header not followed by FLAG): the reader goes to START and nothing else moves. Then by the whole header read from START or
FLAG_SEEN: only `rs`, and `ctl` where the control was accepted, have moved. -/
def Obligations.BadHeaderIsSilent : Prop :=
  ∀ s : State, s.params.ok = true → s.phase.isWait = true →
    (∀ (b : Byte) (rest : List Event), s.upcoming = .rx b :: rest → b ≠ FLAG →
      (s.rs = .flagSeen ∧ b ≠ s.phase.expAddr s.params ∨ s.rs = .addressSeen ∧ b ∉ s.phase.accept ∨
        s.rs = .controlSeen ∧ b ≠ s.phase.expAddr s.params ^^^ s.ctl ∨ s.rs = .bccOk ∧ isInfo s.ctl = false) →
      step s = .next { s with
        rs := .start, chanRelease := false, txOut := none, events := rest, steps := s.steps + 1 }) ∧
    (s.events = [] → s.rs = .start ∨ s.rs = .flagSeen →
      (∀ a : Byte, a ≠ FLAG → a ≠ s.phase.expAddr s.params →
        Host.Core.run Sys2Proof.core 2 (s.receiving [FLAG, a]) = .next { s with
          rs := .start, chanRelease := false, txOut := none, steps := s.steps + 2 }) ∧
      (∀ c : Byte, c ≠ FLAG → c ∉ s.phase.accept →
        Host.Core.run Sys2Proof.core 3 (s.receiving [FLAG, s.phase.expAddr s.params, c]) = .next { s with
          rs := .start, chanRelease := false, txOut := none, steps := s.steps + 3 }) ∧
      (∀ c k : Byte, c ∈ s.phase.accept → k ≠ FLAG → k ≠ s.phase.expAddr s.params ^^^ c →
        Host.Core.run Sys2Proof.core 4 (s.receiving [FLAG, s.phase.expAddr s.params, c, k]) = .next { s with
          rs := .start, ctl := c, chanRelease := false, txOut := none, steps := s.steps + 4 }))

/-- The link's headline: a receiver in RECV_WAIT that reads the bytes of the information frame a sender builds for any payload within the
bound, with the toggle it expects, delivers exactly that payload and answers with the RR naming the other toggle (R135, R138, R139, R156, R157,
R162, R237). -/
def Obligations.InformationFrameDeliversPayload : Prop :=
  ∀ (s : State) (payload : List Byte), s.params.ok = true → s.Inv → s.events = [] → s.phase = .recvWait → s.rs = .start →
    payload.length ≤ s.params.maxPayload →
    ∃ t, Host.Core.run Sys2Proof.core (encodeIFrame s.params.aCmd s.expectToggle payload).length
        (s.receiving (encodeIFrame s.params.aCmd s.expectToggle payload)) = .next t ∧
      t.phase = .recvTxAck ∧ t.rxLen.toNat = payload.length ∧
      (List.range payload.length).map t.rxbufByte = payload ∧
      (∀ k, payload.length ≤ k → t.rxbufByte k = s.rxbufByte k) ∧
      t.expectToggle = !s.expectToggle ∧ t.framesValid = s.framesValid + 1 ∧ t.framesTotal = s.framesTotal + 1 ∧
      t.framesInvalid = s.framesInvalid ∧ t.framesDuplicate = s.framesDuplicate ∧ t.sess = s.sess ∧ t.done = s.done ∧
      t.txq = encodeSupervisory (if s.expectToggle then 0xAA else 0xAB) s.params.aRpl
end

