-- ==== Sys2Proof/Laws/Codec.lean ====
section
/-! SUPPORT. Laws of the frame codec: equations of destuff and stuff over concatenation, and what each verdict of the payload check means. -/

namespace Sys2Proof.Machine

@[simp] theorem stuff_nil : stuff [] = [] := rfl

@[simp] theorem stuff_cons (x : Byte) (xs : List Byte) : stuff (x :: xs) = stuffByte x ++ stuff xs := rfl

theorem stuff_append (xs ys : List Byte) : stuff (xs ++ ys) = stuff xs ++ stuff ys := by
  induction xs with
  | nil => rfl
  | cons x xs ih => simp [ih]

theorem stuffByte_cases (x : Byte) :
    (x = FLAG ∧ stuffByte x = [ESC, 0x5E]) ∨ (x = ESC ∧ stuffByte x = [ESC, 0x5D]) ∨
      (x ≠ FLAG ∧ x ≠ ESC ∧ stuffByte x = [x]) := by
  by_cases h1 : x = FLAG
  · subst h1; exact .inl ⟨rfl, rfl⟩
  · by_cases h2 : x = ESC
    · subst h2; exact .inr (.inl ⟨rfl, rfl⟩)
    · exact .inr (.inr ⟨h1, h2, by simp [stuffByte, h1, h2]⟩)

@[simp] theorem destuff_nil : destuff [] = some [] := by rw [destuff]

theorem destuff_esc (z : Byte) (ys : List Byte) :
    destuff (ESC :: z :: ys) = (destuff ys).map ((z ^^^ ESC_MASK) :: ·) := by
  rw [destuff, if_pos rfl]

@[simp] theorem destuff_esc_last : destuff [ESC] = none := by rw [destuff, if_pos rfl]

theorem destuff_literal {y : Byte} (h : y ≠ ESC) (ys : List Byte) : destuff (y :: ys) = (destuff ys).map (y :: ·) := by
  cases ys with
  | nil => simp [destuff, h]
  | cons z ys => rw [destuff, if_neg h]

/-- R134's scan, one unit at a time. -/
theorem destuff_induction {P : List Byte → Prop} (nil : P []) (last : P [ESC])
    (pair : ∀ z ys, P ys → P (ESC :: z :: ys)) (literal : ∀ y ys, y ≠ ESC → P ys → P (y :: ys)) : ∀ ys, P ys
  | [] => nil
  | [y] => by
    by_cases h : y = ESC
    · exact h ▸ last
    · exact literal y [] h nil
  | y :: z :: ys => by
    by_cases h : y = ESC
    · exact h ▸ pair z ys (destuff_induction nil last pair literal ys)
    · exact literal y (z :: ys) h (destuff_induction nil last pair literal (z :: ys))

theorem destuff_append (xs ys d : List Byte) (h : destuff xs = some d) :
    destuff (xs ++ ys) = (destuff ys).map (d ++ ·) := by
  revert d
  refine destuff_induction (P := fun xs => ∀ d, destuff xs = some d → destuff (xs ++ ys) = (destuff ys).map (d ++ ·))
    ?_ ?_ ?_ ?_ xs
  · intro d h; simp only [destuff_nil, Option.some.injEq] at h; subst h; simp
  · intro d h; simp at h
  · intro z zs ih d h
    rw [destuff_esc] at h
    obtain ⟨e, he, rfl⟩ := Option.map_eq_some_iff.1 h
    rw [List.cons_append, List.cons_append, destuff_esc, ih e he, Option.map_map]; rfl
  · intro y zs hy ih d h
    rw [destuff_literal hy] at h
    obtain ⟨e, he, rfl⟩ := Option.map_eq_some_iff.1 h
    rw [List.cons_append, destuff_literal hy, ih e he, Option.map_map]; rfl

/-- A list on which `destuff` fails is a good one followed by a dangling escape. -/
theorem destuff_eq_none {ys : List Byte} (h : destuff ys = none) : ∃ pre d, ys = pre ++ [ESC] ∧ destuff pre = some d := by
  revert h
  refine destuff_induction (P := fun ys => destuff ys = none → ∃ pre d, ys = pre ++ [ESC] ∧ destuff pre = some d)
    ?_ ?_ ?_ ?_ ys
  · intro h; simp at h
  · intro _; exact ⟨[], [], rfl, destuff_nil⟩
  · intro z zs ih h
    rw [destuff_esc, Option.map_eq_none_iff] at h
    obtain ⟨pre, d, rfl, hd⟩ := ih h
    exact ⟨ESC :: z :: pre, _, rfl, by rw [destuff_esc, hd]; rfl⟩
  · intro y zs hy ih h
    rw [destuff_literal hy, Option.map_eq_none_iff] at h
    obtain ⟨pre, d, rfl, hd⟩ := ih h
    exact ⟨y :: pre, _, rfl, by rw [destuff_literal hy, hd]; rfl⟩

/-- A region that ends in a pending escape, followed by `x`, destuffs to one byte more. -/
theorem destuff_pair (pre d : List Byte) (x : Byte) (h : destuff pre = some d) :
    destuff (pre ++ [ESC, x]) = some (d ++ [x ^^^ ESC_MASK]) := by
  rw [destuff_append pre _ d h, destuff_esc, destuff_nil]; rfl

/-! ### Verdicts -/

/-- What an accepting verdict says (R139). -/
theorem checkPayload_accept {m : Nat} {raw : List Byte} {ovf : Bool} {payload : List Byte}
    (h : checkPayload m raw ovf = .accept payload) :
    ovf = false ∧ destuff raw = some (payload ++ [bcc2 payload]) ∧ payload.length ≤ m := by
  unfold checkPayload at h
  split at h
  · cases h
  · next hovf =>
    split at h
    · cases h
    · cases h
    · next x xs hd =>
      split at h
      · cases h
      · split at h
        · cases h
        · next hlen hb =>
          simp only [Verdict.accept.injEq] at h
          subst h
          simp only [ne_eq, Decidable.not_not] at hb
          refine ⟨by simpa using hovf, ?_, by simp only [List.length_dropLast, List.length_cons]; omega⟩
          rw [hd, hb, List.dropLast_append_getLast]

/-- A sound region is accepted (R139). -/
theorem checkPayload_of_destuff {m : Nat} {raw payload : List Byte} (hd : destuff raw = some (payload ++ [bcc2 payload]))
    (hlen : payload.length ≤ m) : checkPayload m raw false = .accept payload := by
  unfold checkPayload
  rw [if_neg (by simp), hd]
  cases h : payload ++ [bcc2 payload] with
  | nil => simp at h
  | cons x xs =>
    have hl : xs.length = payload.length := by
      have := congrArg List.length h; simp at this; omega
    have hdl : (x :: xs).dropLast = payload := by rw [← h]; simp
    have hgl : (x :: xs).getLast (List.cons_ne_nil x xs) = bcc2 payload := by simp [← h]
    simp only [hdl, hgl]
    rw [if_neg (by omega), if_neg (by simp)]

end Sys2Proof.Machine
end

