-- ==== Sys2Proof/Laws/Encoding.lean ====
section
/-! SUPPORT. The fields of an encoded command word, read back (spec/30_encoding.md R110 to R114). -/

namespace Sys2Proof

/-- Concatenation as arithmetic. -/
theorem toNat_append_eq {m n : Nat} (x : BitVec m) (y : BitVec n) : (x ++ y).toNat = x.toNat * 2 ^ n + y.toNat := by
  rw [BitVec.toNat_append, ← Nat.shiftLeft_add_eq_or_of_lt y.isLt, Nat.shiftLeft_eq]

/-- A field of a word as arithmetic. -/
theorem toNat_field (w : Word) (start len : Nat) : (w.extractLsb' start len).toNat = w.toNat / 2 ^ start % 2 ^ len := by
  rw [BitVec.extractLsb'_toNat, Nat.shiftRight_eq_div_pow]

theorem toNat_encodeOpen (role : Role) (n : BitVec 8) (t : BitVec 16) :
    (encodeOpen role n t).toNat = (roleBit role).toNat * 2 ^ 29 + n.toNat * 2 ^ 16 + t.toNat := by
  simp only [encodeOpen, toNat_append_eq]; simp; omega

theorem toNat_encodeSend (len : BitVec 16) : (encodeSend len).toNat = 2 ^ 30 + len.toNat := by
  simp only [encodeSend, toNat_append_eq]; simp

theorem opField_encodeOpen (role : Role) (n : BitVec 8) (t : BitVec 16) : opField (encodeOpen role n t) = 0 := by
  apply BitVec.eq_of_toNat_eq
  have := n.isLt; have := t.isLt; have := (roleBit role).isLt
  rw [opField, toNat_field, toNat_encodeOpen]; simp; omega

theorem reserved_encodeOpen (role : Role) (n : BitVec 8) (t : BitVec 16) : (encodeOpen role n t).extractLsb' 24 5 = 0 := by
  apply BitVec.eq_of_toNat_eq
  have := n.isLt; have := t.isLt; have := (roleBit role).isLt
  rw [toNat_field, toNat_encodeOpen]; simp; omega

theorem roleField_encodeOpen (role : Role) (n : BitVec 8) (t : BitVec 16) : roleField (encodeOpen role n t) = role := by
  have := n.isLt; have := t.isLt
  have h : (encodeOpen role n t).getLsbD 29 = decide ((roleBit role).toNat = 1) := by
    rw [BitVec.getLsbD, Nat.testBit_eq_decide_div_mod_eq, toNat_encodeOpen]
    cases role <;> simp [roleBit] <;> omega
  unfold roleField; rw [h]; cases role <;> rfl

theorem retryField_encodeOpen (role : Role) (n : BitVec 8) (t : BitVec 16) : retryField (encodeOpen role n t) = n := by
  apply BitVec.eq_of_toNat_eq
  have := n.isLt; have := t.isLt; have := (roleBit role).isLt
  rw [retryField, toNat_field, toNat_encodeOpen]; omega

theorem timeoutField_encodeOpen (role : Role) (n : BitVec 8) (t : BitVec 16) : timeoutField (encodeOpen role n t) = t := by
  apply BitVec.eq_of_toNat_eq
  have := n.isLt; have := t.isLt; have := (roleBit role).isLt
  rw [timeoutField, toNat_field, toNat_encodeOpen]; omega

theorem opField_encodeSend (len : BitVec 16) : opField (encodeSend len) = 1 := by
  apply BitVec.eq_of_toNat_eq
  have := len.isLt
  rw [opField, toNat_field, toNat_encodeSend]; simp; omega

theorem reserved_encodeSend (len : BitVec 16) : (encodeSend len).extractLsb' 16 14 = 0 := by
  apply BitVec.eq_of_toNat_eq
  have := len.isLt
  rw [toNat_field, toNat_encodeSend]; simp; omega

theorem lenField_encodeSend (len : BitVec 16) : lenField (encodeSend len) = len := by
  apply BitVec.eq_of_toNat_eq
  have := len.isLt
  rw [lenField, toNat_field, toNat_encodeSend]; omega

end Sys2Proof
end

