-- ==== Sys2Proof/Laws/State.lean ====
section
/-! SUPPORT. One lemma per field per update, each true by rfl: what every shared operation writes and what it leaves alone, the
bytes read from the storage spaces among it. -/

namespace Sys2Proof.Machine

section
variable (s : State)
@[simp] theorem State.countValid_params : (s.countValid).params = s.params := rfl
@[simp] theorem State.countValid_sess : (s.countValid).sess = s.sess := rfl
@[simp] theorem State.countValid_role : (s.countValid).role = s.role := rfl
@[simp] theorem State.countValid_retryLimit : (s.countValid).retryLimit = s.retryLimit := rfl
@[simp] theorem State.countValid_timeoutDuration : (s.countValid).timeoutDuration = s.timeoutDuration := rfl
@[simp] theorem State.countValid_sendToggle : (s.countValid).sendToggle = s.sendToggle := rfl
@[simp] theorem State.countValid_expectToggle : (s.countValid).expectToggle = s.expectToggle := rfl
@[simp] theorem State.countValid_framesTotal : (s.countValid).framesTotal = s.framesTotal + 1 := rfl
@[simp] theorem State.countValid_framesValid : (s.countValid).framesValid = s.framesValid + 1 := rfl
@[simp] theorem State.countValid_framesInvalid : (s.countValid).framesInvalid = s.framesInvalid := rfl
@[simp] theorem State.countValid_framesDuplicate : (s.countValid).framesDuplicate = s.framesDuplicate := rfl
@[simp] theorem State.countValid_retransmissions : (s.countValid).retransmissions = s.retransmissions := rfl
@[simp] theorem State.countValid_timeouts : (s.countValid).timeouts = s.timeouts := rfl
@[simp] theorem State.countValid_rs : (s.countValid).rs = s.rs := rfl
@[simp] theorem State.countValid_ctl : (s.countValid).ctl = s.ctl := rfl
@[simp] theorem State.countValid_raw : (s.countValid).raw = s.raw := rfl
@[simp] theorem State.countValid_rawLen : (s.countValid).rawLen = s.rawLen := rfl
@[simp] theorem State.countValid_ovf : (s.countValid).ovf = s.ovf := rfl
@[simp] theorem State.countValid_phase : (s.countValid).phase = s.phase := rfl
@[simp] theorem State.countValid_tries : (s.countValid).tries = s.tries := rfl
@[simp] theorem State.countValid_opLen : (s.countValid).opLen = s.opLen := rfl
@[simp] theorem State.countValid_rxLen : (s.countValid).rxLen = s.rxLen := rfl
@[simp] theorem State.countValid_armed : (s.countValid).armed = s.armed := rfl
@[simp] theorem State.countValid_remaining : (s.countValid).remaining = s.remaining := rfl
@[simp] theorem State.countValid_txq : (s.countValid).txq = s.txq := rfl
@[simp] theorem State.countValid_done : (s.countValid).done = s.done := rfl
@[simp] theorem State.countValid_status : (s.countValid).status = s.status := rfl
@[simp] theorem State.countValid_resultLen : (s.countValid).resultLen = s.resultLen := rfl
@[simp] theorem State.countValid_statsValid : (s.countValid).statsValid = s.statsValid := rfl
@[simp] theorem State.countValid_txbuf : (s.countValid).txbuf = s.txbuf := rfl
@[simp] theorem State.countValid_rxbuf : (s.countValid).rxbuf = s.rxbuf := rfl
@[simp] theorem State.countValid_chanRelease : (s.countValid).chanRelease = s.chanRelease := rfl
@[simp] theorem State.countValid_txOut : (s.countValid).txOut = s.txOut := rfl
@[simp] theorem State.countValid_chanAvail : (s.countValid).chanAvail = s.chanAvail := rfl
@[simp] theorem State.countValid_events : (s.countValid).events = s.events := rfl
@[simp] theorem State.countValid_source : (s.countValid).source = s.source := rfl
@[simp] theorem State.countValid_epoch : (s.countValid).epoch = s.epoch := rfl
@[simp] theorem State.countValid_steps : (s.countValid).steps = s.steps := rfl
@[simp] theorem State.countValid_txbufByte : (s.countValid).txbufByte = s.txbufByte := rfl
@[simp] theorem State.countValid_rxbufByte : (s.countValid).rxbufByte = s.rxbufByte := rfl
@[simp] theorem State.countValid_rawByte : (s.countValid).rawByte = s.rawByte := rfl
@[simp] theorem State.countValid_rawBytes : (s.countValid).rawBytes = s.rawBytes := rfl
@[simp] theorem State.countValid_payload : (s.countValid).payload = s.payload := rfl
end

section
variable (s : State)
@[simp] theorem State.countInvalid_params : (s.countInvalid).params = s.params := rfl
@[simp] theorem State.countInvalid_sess : (s.countInvalid).sess = s.sess := rfl
@[simp] theorem State.countInvalid_role : (s.countInvalid).role = s.role := rfl
@[simp] theorem State.countInvalid_retryLimit : (s.countInvalid).retryLimit = s.retryLimit := rfl
@[simp] theorem State.countInvalid_timeoutDuration : (s.countInvalid).timeoutDuration = s.timeoutDuration := rfl
@[simp] theorem State.countInvalid_sendToggle : (s.countInvalid).sendToggle = s.sendToggle := rfl
@[simp] theorem State.countInvalid_expectToggle : (s.countInvalid).expectToggle = s.expectToggle := rfl
@[simp] theorem State.countInvalid_framesTotal : (s.countInvalid).framesTotal = s.framesTotal + 1 := rfl
@[simp] theorem State.countInvalid_framesValid : (s.countInvalid).framesValid = s.framesValid := rfl
@[simp] theorem State.countInvalid_framesInvalid : (s.countInvalid).framesInvalid = s.framesInvalid + 1 := rfl
@[simp] theorem State.countInvalid_framesDuplicate : (s.countInvalid).framesDuplicate = s.framesDuplicate := rfl
@[simp] theorem State.countInvalid_retransmissions : (s.countInvalid).retransmissions = s.retransmissions := rfl
@[simp] theorem State.countInvalid_timeouts : (s.countInvalid).timeouts = s.timeouts := rfl
@[simp] theorem State.countInvalid_rs : (s.countInvalid).rs = s.rs := rfl
@[simp] theorem State.countInvalid_ctl : (s.countInvalid).ctl = s.ctl := rfl
@[simp] theorem State.countInvalid_raw : (s.countInvalid).raw = s.raw := rfl
@[simp] theorem State.countInvalid_rawLen : (s.countInvalid).rawLen = s.rawLen := rfl
@[simp] theorem State.countInvalid_ovf : (s.countInvalid).ovf = s.ovf := rfl
@[simp] theorem State.countInvalid_phase : (s.countInvalid).phase = s.phase := rfl
@[simp] theorem State.countInvalid_tries : (s.countInvalid).tries = s.tries := rfl
@[simp] theorem State.countInvalid_opLen : (s.countInvalid).opLen = s.opLen := rfl
@[simp] theorem State.countInvalid_rxLen : (s.countInvalid).rxLen = s.rxLen := rfl
@[simp] theorem State.countInvalid_armed : (s.countInvalid).armed = s.armed := rfl
@[simp] theorem State.countInvalid_remaining : (s.countInvalid).remaining = s.remaining := rfl
@[simp] theorem State.countInvalid_txq : (s.countInvalid).txq = s.txq := rfl
@[simp] theorem State.countInvalid_done : (s.countInvalid).done = s.done := rfl
@[simp] theorem State.countInvalid_status : (s.countInvalid).status = s.status := rfl
@[simp] theorem State.countInvalid_resultLen : (s.countInvalid).resultLen = s.resultLen := rfl
@[simp] theorem State.countInvalid_statsValid : (s.countInvalid).statsValid = s.statsValid := rfl
@[simp] theorem State.countInvalid_txbuf : (s.countInvalid).txbuf = s.txbuf := rfl
@[simp] theorem State.countInvalid_rxbuf : (s.countInvalid).rxbuf = s.rxbuf := rfl
@[simp] theorem State.countInvalid_chanRelease : (s.countInvalid).chanRelease = s.chanRelease := rfl
@[simp] theorem State.countInvalid_txOut : (s.countInvalid).txOut = s.txOut := rfl
@[simp] theorem State.countInvalid_chanAvail : (s.countInvalid).chanAvail = s.chanAvail := rfl
@[simp] theorem State.countInvalid_events : (s.countInvalid).events = s.events := rfl
@[simp] theorem State.countInvalid_source : (s.countInvalid).source = s.source := rfl
@[simp] theorem State.countInvalid_epoch : (s.countInvalid).epoch = s.epoch := rfl
@[simp] theorem State.countInvalid_steps : (s.countInvalid).steps = s.steps := rfl
@[simp] theorem State.countInvalid_txbufByte : (s.countInvalid).txbufByte = s.txbufByte := rfl
@[simp] theorem State.countInvalid_rxbufByte : (s.countInvalid).rxbufByte = s.rxbufByte := rfl
@[simp] theorem State.countInvalid_rawByte : (s.countInvalid).rawByte = s.rawByte := rfl
@[simp] theorem State.countInvalid_rawBytes : (s.countInvalid).rawBytes = s.rawBytes := rfl
@[simp] theorem State.countInvalid_payload : (s.countInvalid).payload = s.payload := rfl
end

section
variable (s : State)
@[simp] theorem State.countDuplicate_params : (s.countDuplicate).params = s.params := rfl
@[simp] theorem State.countDuplicate_sess : (s.countDuplicate).sess = s.sess := rfl
@[simp] theorem State.countDuplicate_role : (s.countDuplicate).role = s.role := rfl
@[simp] theorem State.countDuplicate_retryLimit : (s.countDuplicate).retryLimit = s.retryLimit := rfl
@[simp] theorem State.countDuplicate_timeoutDuration : (s.countDuplicate).timeoutDuration = s.timeoutDuration := rfl
@[simp] theorem State.countDuplicate_sendToggle : (s.countDuplicate).sendToggle = s.sendToggle := rfl
@[simp] theorem State.countDuplicate_expectToggle : (s.countDuplicate).expectToggle = s.expectToggle := rfl
@[simp] theorem State.countDuplicate_framesTotal : (s.countDuplicate).framesTotal = s.framesTotal + 1 := rfl
@[simp] theorem State.countDuplicate_framesValid : (s.countDuplicate).framesValid = s.framesValid := rfl
@[simp] theorem State.countDuplicate_framesInvalid : (s.countDuplicate).framesInvalid = s.framesInvalid := rfl
@[simp] theorem State.countDuplicate_framesDuplicate : (s.countDuplicate).framesDuplicate = s.framesDuplicate + 1 := rfl
@[simp] theorem State.countDuplicate_retransmissions : (s.countDuplicate).retransmissions = s.retransmissions := rfl
@[simp] theorem State.countDuplicate_timeouts : (s.countDuplicate).timeouts = s.timeouts := rfl
@[simp] theorem State.countDuplicate_rs : (s.countDuplicate).rs = s.rs := rfl
@[simp] theorem State.countDuplicate_ctl : (s.countDuplicate).ctl = s.ctl := rfl
@[simp] theorem State.countDuplicate_raw : (s.countDuplicate).raw = s.raw := rfl
@[simp] theorem State.countDuplicate_rawLen : (s.countDuplicate).rawLen = s.rawLen := rfl
@[simp] theorem State.countDuplicate_ovf : (s.countDuplicate).ovf = s.ovf := rfl
@[simp] theorem State.countDuplicate_phase : (s.countDuplicate).phase = s.phase := rfl
@[simp] theorem State.countDuplicate_tries : (s.countDuplicate).tries = s.tries := rfl
@[simp] theorem State.countDuplicate_opLen : (s.countDuplicate).opLen = s.opLen := rfl
@[simp] theorem State.countDuplicate_rxLen : (s.countDuplicate).rxLen = s.rxLen := rfl
@[simp] theorem State.countDuplicate_armed : (s.countDuplicate).armed = s.armed := rfl
@[simp] theorem State.countDuplicate_remaining : (s.countDuplicate).remaining = s.remaining := rfl
@[simp] theorem State.countDuplicate_txq : (s.countDuplicate).txq = s.txq := rfl
@[simp] theorem State.countDuplicate_done : (s.countDuplicate).done = s.done := rfl
@[simp] theorem State.countDuplicate_status : (s.countDuplicate).status = s.status := rfl
@[simp] theorem State.countDuplicate_resultLen : (s.countDuplicate).resultLen = s.resultLen := rfl
@[simp] theorem State.countDuplicate_statsValid : (s.countDuplicate).statsValid = s.statsValid := rfl
@[simp] theorem State.countDuplicate_txbuf : (s.countDuplicate).txbuf = s.txbuf := rfl
@[simp] theorem State.countDuplicate_rxbuf : (s.countDuplicate).rxbuf = s.rxbuf := rfl
@[simp] theorem State.countDuplicate_chanRelease : (s.countDuplicate).chanRelease = s.chanRelease := rfl
@[simp] theorem State.countDuplicate_txOut : (s.countDuplicate).txOut = s.txOut := rfl
@[simp] theorem State.countDuplicate_chanAvail : (s.countDuplicate).chanAvail = s.chanAvail := rfl
@[simp] theorem State.countDuplicate_events : (s.countDuplicate).events = s.events := rfl
@[simp] theorem State.countDuplicate_source : (s.countDuplicate).source = s.source := rfl
@[simp] theorem State.countDuplicate_epoch : (s.countDuplicate).epoch = s.epoch := rfl
@[simp] theorem State.countDuplicate_steps : (s.countDuplicate).steps = s.steps := rfl
@[simp] theorem State.countDuplicate_txbufByte : (s.countDuplicate).txbufByte = s.txbufByte := rfl
@[simp] theorem State.countDuplicate_rxbufByte : (s.countDuplicate).rxbufByte = s.rxbufByte := rfl
@[simp] theorem State.countDuplicate_rawByte : (s.countDuplicate).rawByte = s.rawByte := rfl
@[simp] theorem State.countDuplicate_rawBytes : (s.countDuplicate).rawBytes = s.rawBytes := rfl
@[simp] theorem State.countDuplicate_payload : (s.countDuplicate).payload = s.payload := rfl
end

section
variable (s : State)
@[simp] theorem State.countRetransmission_params : (s.countRetransmission).params = s.params := rfl
@[simp] theorem State.countRetransmission_sess : (s.countRetransmission).sess = s.sess := rfl
@[simp] theorem State.countRetransmission_role : (s.countRetransmission).role = s.role := rfl
@[simp] theorem State.countRetransmission_retryLimit : (s.countRetransmission).retryLimit = s.retryLimit := rfl
@[simp] theorem State.countRetransmission_timeoutDuration : (s.countRetransmission).timeoutDuration = s.timeoutDuration := rfl
@[simp] theorem State.countRetransmission_sendToggle : (s.countRetransmission).sendToggle = s.sendToggle := rfl
@[simp] theorem State.countRetransmission_expectToggle : (s.countRetransmission).expectToggle = s.expectToggle := rfl
@[simp] theorem State.countRetransmission_framesTotal : (s.countRetransmission).framesTotal = s.framesTotal := rfl
@[simp] theorem State.countRetransmission_framesValid : (s.countRetransmission).framesValid = s.framesValid := rfl
@[simp] theorem State.countRetransmission_framesInvalid : (s.countRetransmission).framesInvalid = s.framesInvalid := rfl
@[simp] theorem State.countRetransmission_framesDuplicate : (s.countRetransmission).framesDuplicate = s.framesDuplicate := rfl
@[simp] theorem State.countRetransmission_retransmissions : (s.countRetransmission).retransmissions = s.retransmissions + 1 := rfl
@[simp] theorem State.countRetransmission_timeouts : (s.countRetransmission).timeouts = s.timeouts := rfl
@[simp] theorem State.countRetransmission_rs : (s.countRetransmission).rs = s.rs := rfl
@[simp] theorem State.countRetransmission_ctl : (s.countRetransmission).ctl = s.ctl := rfl
@[simp] theorem State.countRetransmission_raw : (s.countRetransmission).raw = s.raw := rfl
@[simp] theorem State.countRetransmission_rawLen : (s.countRetransmission).rawLen = s.rawLen := rfl
@[simp] theorem State.countRetransmission_ovf : (s.countRetransmission).ovf = s.ovf := rfl
@[simp] theorem State.countRetransmission_phase : (s.countRetransmission).phase = s.phase := rfl
@[simp] theorem State.countRetransmission_tries : (s.countRetransmission).tries = s.tries := rfl
@[simp] theorem State.countRetransmission_opLen : (s.countRetransmission).opLen = s.opLen := rfl
@[simp] theorem State.countRetransmission_rxLen : (s.countRetransmission).rxLen = s.rxLen := rfl
@[simp] theorem State.countRetransmission_armed : (s.countRetransmission).armed = s.armed := rfl
@[simp] theorem State.countRetransmission_remaining : (s.countRetransmission).remaining = s.remaining := rfl
@[simp] theorem State.countRetransmission_txq : (s.countRetransmission).txq = s.txq := rfl
@[simp] theorem State.countRetransmission_done : (s.countRetransmission).done = s.done := rfl
@[simp] theorem State.countRetransmission_status : (s.countRetransmission).status = s.status := rfl
@[simp] theorem State.countRetransmission_resultLen : (s.countRetransmission).resultLen = s.resultLen := rfl
@[simp] theorem State.countRetransmission_statsValid : (s.countRetransmission).statsValid = s.statsValid := rfl
@[simp] theorem State.countRetransmission_txbuf : (s.countRetransmission).txbuf = s.txbuf := rfl
@[simp] theorem State.countRetransmission_rxbuf : (s.countRetransmission).rxbuf = s.rxbuf := rfl
@[simp] theorem State.countRetransmission_chanRelease : (s.countRetransmission).chanRelease = s.chanRelease := rfl
@[simp] theorem State.countRetransmission_txOut : (s.countRetransmission).txOut = s.txOut := rfl
@[simp] theorem State.countRetransmission_chanAvail : (s.countRetransmission).chanAvail = s.chanAvail := rfl
@[simp] theorem State.countRetransmission_events : (s.countRetransmission).events = s.events := rfl
@[simp] theorem State.countRetransmission_source : (s.countRetransmission).source = s.source := rfl
@[simp] theorem State.countRetransmission_epoch : (s.countRetransmission).epoch = s.epoch := rfl
@[simp] theorem State.countRetransmission_steps : (s.countRetransmission).steps = s.steps := rfl
@[simp] theorem State.countRetransmission_txbufByte : (s.countRetransmission).txbufByte = s.txbufByte := rfl
@[simp] theorem State.countRetransmission_rxbufByte : (s.countRetransmission).rxbufByte = s.rxbufByte := rfl
@[simp] theorem State.countRetransmission_rawByte : (s.countRetransmission).rawByte = s.rawByte := rfl
@[simp] theorem State.countRetransmission_rawBytes : (s.countRetransmission).rawBytes = s.rawBytes := rfl
@[simp] theorem State.countRetransmission_payload : (s.countRetransmission).payload = s.payload := rfl
end

section
variable (s : State)
@[simp] theorem State.countTimeout_params : (s.countTimeout).params = s.params := rfl
@[simp] theorem State.countTimeout_sess : (s.countTimeout).sess = s.sess := rfl
@[simp] theorem State.countTimeout_role : (s.countTimeout).role = s.role := rfl
@[simp] theorem State.countTimeout_retryLimit : (s.countTimeout).retryLimit = s.retryLimit := rfl
@[simp] theorem State.countTimeout_timeoutDuration : (s.countTimeout).timeoutDuration = s.timeoutDuration := rfl
@[simp] theorem State.countTimeout_sendToggle : (s.countTimeout).sendToggle = s.sendToggle := rfl
@[simp] theorem State.countTimeout_expectToggle : (s.countTimeout).expectToggle = s.expectToggle := rfl
@[simp] theorem State.countTimeout_framesTotal : (s.countTimeout).framesTotal = s.framesTotal := rfl
@[simp] theorem State.countTimeout_framesValid : (s.countTimeout).framesValid = s.framesValid := rfl
@[simp] theorem State.countTimeout_framesInvalid : (s.countTimeout).framesInvalid = s.framesInvalid := rfl
@[simp] theorem State.countTimeout_framesDuplicate : (s.countTimeout).framesDuplicate = s.framesDuplicate := rfl
@[simp] theorem State.countTimeout_retransmissions : (s.countTimeout).retransmissions = s.retransmissions := rfl
@[simp] theorem State.countTimeout_timeouts : (s.countTimeout).timeouts = s.timeouts + 1 := rfl
@[simp] theorem State.countTimeout_rs : (s.countTimeout).rs = s.rs := rfl
@[simp] theorem State.countTimeout_ctl : (s.countTimeout).ctl = s.ctl := rfl
@[simp] theorem State.countTimeout_raw : (s.countTimeout).raw = s.raw := rfl
@[simp] theorem State.countTimeout_rawLen : (s.countTimeout).rawLen = s.rawLen := rfl
@[simp] theorem State.countTimeout_ovf : (s.countTimeout).ovf = s.ovf := rfl
@[simp] theorem State.countTimeout_phase : (s.countTimeout).phase = s.phase := rfl
@[simp] theorem State.countTimeout_tries : (s.countTimeout).tries = s.tries := rfl
@[simp] theorem State.countTimeout_opLen : (s.countTimeout).opLen = s.opLen := rfl
@[simp] theorem State.countTimeout_rxLen : (s.countTimeout).rxLen = s.rxLen := rfl
@[simp] theorem State.countTimeout_armed : (s.countTimeout).armed = s.armed := rfl
@[simp] theorem State.countTimeout_remaining : (s.countTimeout).remaining = s.remaining := rfl
@[simp] theorem State.countTimeout_txq : (s.countTimeout).txq = s.txq := rfl
@[simp] theorem State.countTimeout_done : (s.countTimeout).done = s.done := rfl
@[simp] theorem State.countTimeout_status : (s.countTimeout).status = s.status := rfl
@[simp] theorem State.countTimeout_resultLen : (s.countTimeout).resultLen = s.resultLen := rfl
@[simp] theorem State.countTimeout_statsValid : (s.countTimeout).statsValid = s.statsValid := rfl
@[simp] theorem State.countTimeout_txbuf : (s.countTimeout).txbuf = s.txbuf := rfl
@[simp] theorem State.countTimeout_rxbuf : (s.countTimeout).rxbuf = s.rxbuf := rfl
@[simp] theorem State.countTimeout_chanRelease : (s.countTimeout).chanRelease = s.chanRelease := rfl
@[simp] theorem State.countTimeout_txOut : (s.countTimeout).txOut = s.txOut := rfl
@[simp] theorem State.countTimeout_chanAvail : (s.countTimeout).chanAvail = s.chanAvail := rfl
@[simp] theorem State.countTimeout_events : (s.countTimeout).events = s.events := rfl
@[simp] theorem State.countTimeout_source : (s.countTimeout).source = s.source := rfl
@[simp] theorem State.countTimeout_epoch : (s.countTimeout).epoch = s.epoch := rfl
@[simp] theorem State.countTimeout_steps : (s.countTimeout).steps = s.steps := rfl
@[simp] theorem State.countTimeout_txbufByte : (s.countTimeout).txbufByte = s.txbufByte := rfl
@[simp] theorem State.countTimeout_rxbufByte : (s.countTimeout).rxbufByte = s.rxbufByte := rfl
@[simp] theorem State.countTimeout_rawByte : (s.countTimeout).rawByte = s.rawByte := rfl
@[simp] theorem State.countTimeout_rawBytes : (s.countTimeout).rawBytes = s.rawBytes := rfl
@[simp] theorem State.countTimeout_payload : (s.countTimeout).payload = s.payload := rfl
end

section
variable (s : State)
@[simp] theorem State.clearCounters_params : (s.clearCounters).params = s.params := rfl
@[simp] theorem State.clearCounters_sess : (s.clearCounters).sess = s.sess := rfl
@[simp] theorem State.clearCounters_role : (s.clearCounters).role = s.role := rfl
@[simp] theorem State.clearCounters_retryLimit : (s.clearCounters).retryLimit = s.retryLimit := rfl
@[simp] theorem State.clearCounters_timeoutDuration : (s.clearCounters).timeoutDuration = s.timeoutDuration := rfl
@[simp] theorem State.clearCounters_sendToggle : (s.clearCounters).sendToggle = s.sendToggle := rfl
@[simp] theorem State.clearCounters_expectToggle : (s.clearCounters).expectToggle = s.expectToggle := rfl
@[simp] theorem State.clearCounters_framesTotal : (s.clearCounters).framesTotal = 0 := rfl
@[simp] theorem State.clearCounters_framesValid : (s.clearCounters).framesValid = 0 := rfl
@[simp] theorem State.clearCounters_framesInvalid : (s.clearCounters).framesInvalid = 0 := rfl
@[simp] theorem State.clearCounters_framesDuplicate : (s.clearCounters).framesDuplicate = 0 := rfl
@[simp] theorem State.clearCounters_retransmissions : (s.clearCounters).retransmissions = 0 := rfl
@[simp] theorem State.clearCounters_timeouts : (s.clearCounters).timeouts = 0 := rfl
@[simp] theorem State.clearCounters_rs : (s.clearCounters).rs = s.rs := rfl
@[simp] theorem State.clearCounters_ctl : (s.clearCounters).ctl = s.ctl := rfl
@[simp] theorem State.clearCounters_raw : (s.clearCounters).raw = s.raw := rfl
@[simp] theorem State.clearCounters_rawLen : (s.clearCounters).rawLen = s.rawLen := rfl
@[simp] theorem State.clearCounters_ovf : (s.clearCounters).ovf = s.ovf := rfl
@[simp] theorem State.clearCounters_phase : (s.clearCounters).phase = s.phase := rfl
@[simp] theorem State.clearCounters_tries : (s.clearCounters).tries = s.tries := rfl
@[simp] theorem State.clearCounters_opLen : (s.clearCounters).opLen = s.opLen := rfl
@[simp] theorem State.clearCounters_rxLen : (s.clearCounters).rxLen = s.rxLen := rfl
@[simp] theorem State.clearCounters_armed : (s.clearCounters).armed = s.armed := rfl
@[simp] theorem State.clearCounters_remaining : (s.clearCounters).remaining = s.remaining := rfl
@[simp] theorem State.clearCounters_txq : (s.clearCounters).txq = s.txq := rfl
@[simp] theorem State.clearCounters_done : (s.clearCounters).done = s.done := rfl
@[simp] theorem State.clearCounters_status : (s.clearCounters).status = s.status := rfl
@[simp] theorem State.clearCounters_resultLen : (s.clearCounters).resultLen = s.resultLen := rfl
@[simp] theorem State.clearCounters_statsValid : (s.clearCounters).statsValid = s.statsValid := rfl
@[simp] theorem State.clearCounters_txbuf : (s.clearCounters).txbuf = s.txbuf := rfl
@[simp] theorem State.clearCounters_rxbuf : (s.clearCounters).rxbuf = s.rxbuf := rfl
@[simp] theorem State.clearCounters_chanRelease : (s.clearCounters).chanRelease = s.chanRelease := rfl
@[simp] theorem State.clearCounters_txOut : (s.clearCounters).txOut = s.txOut := rfl
@[simp] theorem State.clearCounters_chanAvail : (s.clearCounters).chanAvail = s.chanAvail := rfl
@[simp] theorem State.clearCounters_events : (s.clearCounters).events = s.events := rfl
@[simp] theorem State.clearCounters_source : (s.clearCounters).source = s.source := rfl
@[simp] theorem State.clearCounters_epoch : (s.clearCounters).epoch = s.epoch := rfl
@[simp] theorem State.clearCounters_steps : (s.clearCounters).steps = s.steps := rfl
@[simp] theorem State.clearCounters_txbufByte : (s.clearCounters).txbufByte = s.txbufByte := rfl
@[simp] theorem State.clearCounters_rxbufByte : (s.clearCounters).rxbufByte = s.rxbufByte := rfl
@[simp] theorem State.clearCounters_rawByte : (s.clearCounters).rawByte = s.rawByte := rfl
@[simp] theorem State.clearCounters_rawBytes : (s.clearCounters).rawBytes = s.rawBytes := rfl
@[simp] theorem State.clearCounters_payload : (s.clearCounters).payload = s.payload := rfl
end

section
variable (s : State)
@[simp] theorem State.clearToggles_params : (s.clearToggles).params = s.params := rfl
@[simp] theorem State.clearToggles_sess : (s.clearToggles).sess = s.sess := rfl
@[simp] theorem State.clearToggles_role : (s.clearToggles).role = s.role := rfl
@[simp] theorem State.clearToggles_retryLimit : (s.clearToggles).retryLimit = s.retryLimit := rfl
@[simp] theorem State.clearToggles_timeoutDuration : (s.clearToggles).timeoutDuration = s.timeoutDuration := rfl
@[simp] theorem State.clearToggles_sendToggle : (s.clearToggles).sendToggle = false := rfl
@[simp] theorem State.clearToggles_expectToggle : (s.clearToggles).expectToggle = false := rfl
@[simp] theorem State.clearToggles_framesTotal : (s.clearToggles).framesTotal = s.framesTotal := rfl
@[simp] theorem State.clearToggles_framesValid : (s.clearToggles).framesValid = s.framesValid := rfl
@[simp] theorem State.clearToggles_framesInvalid : (s.clearToggles).framesInvalid = s.framesInvalid := rfl
@[simp] theorem State.clearToggles_framesDuplicate : (s.clearToggles).framesDuplicate = s.framesDuplicate := rfl
@[simp] theorem State.clearToggles_retransmissions : (s.clearToggles).retransmissions = s.retransmissions := rfl
@[simp] theorem State.clearToggles_timeouts : (s.clearToggles).timeouts = s.timeouts := rfl
@[simp] theorem State.clearToggles_rs : (s.clearToggles).rs = s.rs := rfl
@[simp] theorem State.clearToggles_ctl : (s.clearToggles).ctl = s.ctl := rfl
@[simp] theorem State.clearToggles_raw : (s.clearToggles).raw = s.raw := rfl
@[simp] theorem State.clearToggles_rawLen : (s.clearToggles).rawLen = s.rawLen := rfl
@[simp] theorem State.clearToggles_ovf : (s.clearToggles).ovf = s.ovf := rfl
@[simp] theorem State.clearToggles_phase : (s.clearToggles).phase = s.phase := rfl
@[simp] theorem State.clearToggles_tries : (s.clearToggles).tries = s.tries := rfl
@[simp] theorem State.clearToggles_opLen : (s.clearToggles).opLen = s.opLen := rfl
@[simp] theorem State.clearToggles_rxLen : (s.clearToggles).rxLen = s.rxLen := rfl
@[simp] theorem State.clearToggles_armed : (s.clearToggles).armed = s.armed := rfl
@[simp] theorem State.clearToggles_remaining : (s.clearToggles).remaining = s.remaining := rfl
@[simp] theorem State.clearToggles_txq : (s.clearToggles).txq = s.txq := rfl
@[simp] theorem State.clearToggles_done : (s.clearToggles).done = s.done := rfl
@[simp] theorem State.clearToggles_status : (s.clearToggles).status = s.status := rfl
@[simp] theorem State.clearToggles_resultLen : (s.clearToggles).resultLen = s.resultLen := rfl
@[simp] theorem State.clearToggles_statsValid : (s.clearToggles).statsValid = s.statsValid := rfl
@[simp] theorem State.clearToggles_txbuf : (s.clearToggles).txbuf = s.txbuf := rfl
@[simp] theorem State.clearToggles_rxbuf : (s.clearToggles).rxbuf = s.rxbuf := rfl
@[simp] theorem State.clearToggles_chanRelease : (s.clearToggles).chanRelease = s.chanRelease := rfl
@[simp] theorem State.clearToggles_txOut : (s.clearToggles).txOut = s.txOut := rfl
@[simp] theorem State.clearToggles_chanAvail : (s.clearToggles).chanAvail = s.chanAvail := rfl
@[simp] theorem State.clearToggles_events : (s.clearToggles).events = s.events := rfl
@[simp] theorem State.clearToggles_source : (s.clearToggles).source = s.source := rfl
@[simp] theorem State.clearToggles_epoch : (s.clearToggles).epoch = s.epoch := rfl
@[simp] theorem State.clearToggles_steps : (s.clearToggles).steps = s.steps := rfl
@[simp] theorem State.clearToggles_txbufByte : (s.clearToggles).txbufByte = s.txbufByte := rfl
@[simp] theorem State.clearToggles_rxbufByte : (s.clearToggles).rxbufByte = s.rxbufByte := rfl
@[simp] theorem State.clearToggles_rawByte : (s.clearToggles).rawByte = s.rawByte := rfl
@[simp] theorem State.clearToggles_rawBytes : (s.clearToggles).rawBytes = s.rawBytes := rfl
@[simp] theorem State.clearToggles_payload : (s.clearToggles).payload = s.payload := rfl
end

section
variable (s : State)
@[simp] theorem State.flipSendToggle_params : (s.flipSendToggle).params = s.params := rfl
@[simp] theorem State.flipSendToggle_sess : (s.flipSendToggle).sess = s.sess := rfl
@[simp] theorem State.flipSendToggle_role : (s.flipSendToggle).role = s.role := rfl
@[simp] theorem State.flipSendToggle_retryLimit : (s.flipSendToggle).retryLimit = s.retryLimit := rfl
@[simp] theorem State.flipSendToggle_timeoutDuration : (s.flipSendToggle).timeoutDuration = s.timeoutDuration := rfl
@[simp] theorem State.flipSendToggle_sendToggle : (s.flipSendToggle).sendToggle = !s.sendToggle := rfl
@[simp] theorem State.flipSendToggle_expectToggle : (s.flipSendToggle).expectToggle = s.expectToggle := rfl
@[simp] theorem State.flipSendToggle_framesTotal : (s.flipSendToggle).framesTotal = s.framesTotal := rfl
@[simp] theorem State.flipSendToggle_framesValid : (s.flipSendToggle).framesValid = s.framesValid := rfl
@[simp] theorem State.flipSendToggle_framesInvalid : (s.flipSendToggle).framesInvalid = s.framesInvalid := rfl
@[simp] theorem State.flipSendToggle_framesDuplicate : (s.flipSendToggle).framesDuplicate = s.framesDuplicate := rfl
@[simp] theorem State.flipSendToggle_retransmissions : (s.flipSendToggle).retransmissions = s.retransmissions := rfl
@[simp] theorem State.flipSendToggle_timeouts : (s.flipSendToggle).timeouts = s.timeouts := rfl
@[simp] theorem State.flipSendToggle_rs : (s.flipSendToggle).rs = s.rs := rfl
@[simp] theorem State.flipSendToggle_ctl : (s.flipSendToggle).ctl = s.ctl := rfl
@[simp] theorem State.flipSendToggle_raw : (s.flipSendToggle).raw = s.raw := rfl
@[simp] theorem State.flipSendToggle_rawLen : (s.flipSendToggle).rawLen = s.rawLen := rfl
@[simp] theorem State.flipSendToggle_ovf : (s.flipSendToggle).ovf = s.ovf := rfl
@[simp] theorem State.flipSendToggle_phase : (s.flipSendToggle).phase = s.phase := rfl
@[simp] theorem State.flipSendToggle_tries : (s.flipSendToggle).tries = s.tries := rfl
@[simp] theorem State.flipSendToggle_opLen : (s.flipSendToggle).opLen = s.opLen := rfl
@[simp] theorem State.flipSendToggle_rxLen : (s.flipSendToggle).rxLen = s.rxLen := rfl
@[simp] theorem State.flipSendToggle_armed : (s.flipSendToggle).armed = s.armed := rfl
@[simp] theorem State.flipSendToggle_remaining : (s.flipSendToggle).remaining = s.remaining := rfl
@[simp] theorem State.flipSendToggle_txq : (s.flipSendToggle).txq = s.txq := rfl
@[simp] theorem State.flipSendToggle_done : (s.flipSendToggle).done = s.done := rfl
@[simp] theorem State.flipSendToggle_status : (s.flipSendToggle).status = s.status := rfl
@[simp] theorem State.flipSendToggle_resultLen : (s.flipSendToggle).resultLen = s.resultLen := rfl
@[simp] theorem State.flipSendToggle_statsValid : (s.flipSendToggle).statsValid = s.statsValid := rfl
@[simp] theorem State.flipSendToggle_txbuf : (s.flipSendToggle).txbuf = s.txbuf := rfl
@[simp] theorem State.flipSendToggle_rxbuf : (s.flipSendToggle).rxbuf = s.rxbuf := rfl
@[simp] theorem State.flipSendToggle_chanRelease : (s.flipSendToggle).chanRelease = s.chanRelease := rfl
@[simp] theorem State.flipSendToggle_txOut : (s.flipSendToggle).txOut = s.txOut := rfl
@[simp] theorem State.flipSendToggle_chanAvail : (s.flipSendToggle).chanAvail = s.chanAvail := rfl
@[simp] theorem State.flipSendToggle_events : (s.flipSendToggle).events = s.events := rfl
@[simp] theorem State.flipSendToggle_source : (s.flipSendToggle).source = s.source := rfl
@[simp] theorem State.flipSendToggle_epoch : (s.flipSendToggle).epoch = s.epoch := rfl
@[simp] theorem State.flipSendToggle_steps : (s.flipSendToggle).steps = s.steps := rfl
@[simp] theorem State.flipSendToggle_txbufByte : (s.flipSendToggle).txbufByte = s.txbufByte := rfl
@[simp] theorem State.flipSendToggle_rxbufByte : (s.flipSendToggle).rxbufByte = s.rxbufByte := rfl
@[simp] theorem State.flipSendToggle_rawByte : (s.flipSendToggle).rawByte = s.rawByte := rfl
@[simp] theorem State.flipSendToggle_rawBytes : (s.flipSendToggle).rawBytes = s.rawBytes := rfl
@[simp] theorem State.flipSendToggle_payload : (s.flipSendToggle).payload = s.payload := rfl
end

section
variable (s : State)
@[simp] theorem State.flipExpectToggle_params : (s.flipExpectToggle).params = s.params := rfl
@[simp] theorem State.flipExpectToggle_sess : (s.flipExpectToggle).sess = s.sess := rfl
@[simp] theorem State.flipExpectToggle_role : (s.flipExpectToggle).role = s.role := rfl
@[simp] theorem State.flipExpectToggle_retryLimit : (s.flipExpectToggle).retryLimit = s.retryLimit := rfl
@[simp] theorem State.flipExpectToggle_timeoutDuration : (s.flipExpectToggle).timeoutDuration = s.timeoutDuration := rfl
@[simp] theorem State.flipExpectToggle_sendToggle : (s.flipExpectToggle).sendToggle = s.sendToggle := rfl
@[simp] theorem State.flipExpectToggle_expectToggle : (s.flipExpectToggle).expectToggle = !s.expectToggle := rfl
@[simp] theorem State.flipExpectToggle_framesTotal : (s.flipExpectToggle).framesTotal = s.framesTotal := rfl
@[simp] theorem State.flipExpectToggle_framesValid : (s.flipExpectToggle).framesValid = s.framesValid := rfl
@[simp] theorem State.flipExpectToggle_framesInvalid : (s.flipExpectToggle).framesInvalid = s.framesInvalid := rfl
@[simp] theorem State.flipExpectToggle_framesDuplicate : (s.flipExpectToggle).framesDuplicate = s.framesDuplicate := rfl
@[simp] theorem State.flipExpectToggle_retransmissions : (s.flipExpectToggle).retransmissions = s.retransmissions := rfl
@[simp] theorem State.flipExpectToggle_timeouts : (s.flipExpectToggle).timeouts = s.timeouts := rfl
@[simp] theorem State.flipExpectToggle_rs : (s.flipExpectToggle).rs = s.rs := rfl
@[simp] theorem State.flipExpectToggle_ctl : (s.flipExpectToggle).ctl = s.ctl := rfl
@[simp] theorem State.flipExpectToggle_raw : (s.flipExpectToggle).raw = s.raw := rfl
@[simp] theorem State.flipExpectToggle_rawLen : (s.flipExpectToggle).rawLen = s.rawLen := rfl
@[simp] theorem State.flipExpectToggle_ovf : (s.flipExpectToggle).ovf = s.ovf := rfl
@[simp] theorem State.flipExpectToggle_phase : (s.flipExpectToggle).phase = s.phase := rfl
@[simp] theorem State.flipExpectToggle_tries : (s.flipExpectToggle).tries = s.tries := rfl
@[simp] theorem State.flipExpectToggle_opLen : (s.flipExpectToggle).opLen = s.opLen := rfl
@[simp] theorem State.flipExpectToggle_rxLen : (s.flipExpectToggle).rxLen = s.rxLen := rfl
@[simp] theorem State.flipExpectToggle_armed : (s.flipExpectToggle).armed = s.armed := rfl
@[simp] theorem State.flipExpectToggle_remaining : (s.flipExpectToggle).remaining = s.remaining := rfl
@[simp] theorem State.flipExpectToggle_txq : (s.flipExpectToggle).txq = s.txq := rfl
@[simp] theorem State.flipExpectToggle_done : (s.flipExpectToggle).done = s.done := rfl
@[simp] theorem State.flipExpectToggle_status : (s.flipExpectToggle).status = s.status := rfl
@[simp] theorem State.flipExpectToggle_resultLen : (s.flipExpectToggle).resultLen = s.resultLen := rfl
@[simp] theorem State.flipExpectToggle_statsValid : (s.flipExpectToggle).statsValid = s.statsValid := rfl
@[simp] theorem State.flipExpectToggle_txbuf : (s.flipExpectToggle).txbuf = s.txbuf := rfl
@[simp] theorem State.flipExpectToggle_rxbuf : (s.flipExpectToggle).rxbuf = s.rxbuf := rfl
@[simp] theorem State.flipExpectToggle_chanRelease : (s.flipExpectToggle).chanRelease = s.chanRelease := rfl
@[simp] theorem State.flipExpectToggle_txOut : (s.flipExpectToggle).txOut = s.txOut := rfl
@[simp] theorem State.flipExpectToggle_chanAvail : (s.flipExpectToggle).chanAvail = s.chanAvail := rfl
@[simp] theorem State.flipExpectToggle_events : (s.flipExpectToggle).events = s.events := rfl
@[simp] theorem State.flipExpectToggle_source : (s.flipExpectToggle).source = s.source := rfl
@[simp] theorem State.flipExpectToggle_epoch : (s.flipExpectToggle).epoch = s.epoch := rfl
@[simp] theorem State.flipExpectToggle_steps : (s.flipExpectToggle).steps = s.steps := rfl
@[simp] theorem State.flipExpectToggle_txbufByte : (s.flipExpectToggle).txbufByte = s.txbufByte := rfl
@[simp] theorem State.flipExpectToggle_rxbufByte : (s.flipExpectToggle).rxbufByte = s.rxbufByte := rfl
@[simp] theorem State.flipExpectToggle_rawByte : (s.flipExpectToggle).rawByte = s.rawByte := rfl
@[simp] theorem State.flipExpectToggle_rawBytes : (s.flipExpectToggle).rawBytes = s.rawBytes := rfl
@[simp] theorem State.flipExpectToggle_payload : (s.flipExpectToggle).payload = s.payload := rfl
end

section
variable (s : State) (p : List Byte)
@[simp] theorem State.storePayload_params : (s.storePayload p).params = s.params := rfl
@[simp] theorem State.storePayload_sess : (s.storePayload p).sess = s.sess := rfl
@[simp] theorem State.storePayload_role : (s.storePayload p).role = s.role := rfl
@[simp] theorem State.storePayload_retryLimit : (s.storePayload p).retryLimit = s.retryLimit := rfl
@[simp] theorem State.storePayload_timeoutDuration : (s.storePayload p).timeoutDuration = s.timeoutDuration := rfl
@[simp] theorem State.storePayload_sendToggle : (s.storePayload p).sendToggle = s.sendToggle := rfl
@[simp] theorem State.storePayload_expectToggle : (s.storePayload p).expectToggle = s.expectToggle := rfl
@[simp] theorem State.storePayload_framesTotal : (s.storePayload p).framesTotal = s.framesTotal := rfl
@[simp] theorem State.storePayload_framesValid : (s.storePayload p).framesValid = s.framesValid := rfl
@[simp] theorem State.storePayload_framesInvalid : (s.storePayload p).framesInvalid = s.framesInvalid := rfl
@[simp] theorem State.storePayload_framesDuplicate : (s.storePayload p).framesDuplicate = s.framesDuplicate := rfl
@[simp] theorem State.storePayload_retransmissions : (s.storePayload p).retransmissions = s.retransmissions := rfl
@[simp] theorem State.storePayload_timeouts : (s.storePayload p).timeouts = s.timeouts := rfl
@[simp] theorem State.storePayload_rs : (s.storePayload p).rs = s.rs := rfl
@[simp] theorem State.storePayload_ctl : (s.storePayload p).ctl = s.ctl := rfl
@[simp] theorem State.storePayload_raw : (s.storePayload p).raw = s.raw := rfl
@[simp] theorem State.storePayload_rawLen : (s.storePayload p).rawLen = s.rawLen := rfl
@[simp] theorem State.storePayload_ovf : (s.storePayload p).ovf = s.ovf := rfl
@[simp] theorem State.storePayload_phase : (s.storePayload p).phase = s.phase := rfl
@[simp] theorem State.storePayload_tries : (s.storePayload p).tries = s.tries := rfl
@[simp] theorem State.storePayload_opLen : (s.storePayload p).opLen = s.opLen := rfl
@[simp] theorem State.storePayload_rxLen : (s.storePayload p).rxLen = BitVec.ofNat 16 p.length := rfl
@[simp] theorem State.storePayload_armed : (s.storePayload p).armed = s.armed := rfl
@[simp] theorem State.storePayload_remaining : (s.storePayload p).remaining = s.remaining := rfl
@[simp] theorem State.storePayload_txq : (s.storePayload p).txq = s.txq := rfl
@[simp] theorem State.storePayload_done : (s.storePayload p).done = s.done := rfl
@[simp] theorem State.storePayload_status : (s.storePayload p).status = s.status := rfl
@[simp] theorem State.storePayload_resultLen : (s.storePayload p).resultLen = s.resultLen := rfl
@[simp] theorem State.storePayload_statsValid : (s.storePayload p).statsValid = s.statsValid := rfl
@[simp] theorem State.storePayload_txbuf : (s.storePayload p).txbuf = s.txbuf := rfl
@[simp] theorem State.storePayload_rxbuf : (s.storePayload p).rxbuf = s.rxbuf.writeBytes 0 p := rfl
@[simp] theorem State.storePayload_chanRelease : (s.storePayload p).chanRelease = s.chanRelease := rfl
@[simp] theorem State.storePayload_txOut : (s.storePayload p).txOut = s.txOut := rfl
@[simp] theorem State.storePayload_chanAvail : (s.storePayload p).chanAvail = s.chanAvail := rfl
@[simp] theorem State.storePayload_events : (s.storePayload p).events = s.events := rfl
@[simp] theorem State.storePayload_source : (s.storePayload p).source = s.source := rfl
@[simp] theorem State.storePayload_epoch : (s.storePayload p).epoch = s.epoch := rfl
@[simp] theorem State.storePayload_steps : (s.storePayload p).steps = s.steps := rfl
@[simp] theorem State.storePayload_txbufByte : (s.storePayload p).txbufByte = s.txbufByte := rfl
@[simp] theorem State.storePayload_rawByte : (s.storePayload p).rawByte = s.rawByte := rfl
@[simp] theorem State.storePayload_rawBytes : (s.storePayload p).rawBytes = s.rawBytes := rfl
@[simp] theorem State.storePayload_payload : (s.storePayload p).payload = s.payload := rfl
end

section
variable (s : State)
@[simp] theorem State.arm_params : (s.arm).params = s.params := rfl
@[simp] theorem State.arm_sess : (s.arm).sess = s.sess := rfl
@[simp] theorem State.arm_role : (s.arm).role = s.role := rfl
@[simp] theorem State.arm_retryLimit : (s.arm).retryLimit = s.retryLimit := rfl
@[simp] theorem State.arm_timeoutDuration : (s.arm).timeoutDuration = s.timeoutDuration := rfl
@[simp] theorem State.arm_sendToggle : (s.arm).sendToggle = s.sendToggle := rfl
@[simp] theorem State.arm_expectToggle : (s.arm).expectToggle = s.expectToggle := rfl
@[simp] theorem State.arm_framesTotal : (s.arm).framesTotal = s.framesTotal := rfl
@[simp] theorem State.arm_framesValid : (s.arm).framesValid = s.framesValid := rfl
@[simp] theorem State.arm_framesInvalid : (s.arm).framesInvalid = s.framesInvalid := rfl
@[simp] theorem State.arm_framesDuplicate : (s.arm).framesDuplicate = s.framesDuplicate := rfl
@[simp] theorem State.arm_retransmissions : (s.arm).retransmissions = s.retransmissions := rfl
@[simp] theorem State.arm_timeouts : (s.arm).timeouts = s.timeouts := rfl
@[simp] theorem State.arm_rs : (s.arm).rs = s.rs := rfl
@[simp] theorem State.arm_ctl : (s.arm).ctl = s.ctl := rfl
@[simp] theorem State.arm_raw : (s.arm).raw = s.raw := rfl
@[simp] theorem State.arm_rawLen : (s.arm).rawLen = s.rawLen := rfl
@[simp] theorem State.arm_ovf : (s.arm).ovf = s.ovf := rfl
@[simp] theorem State.arm_phase : (s.arm).phase = s.phase := rfl
@[simp] theorem State.arm_tries : (s.arm).tries = s.tries := rfl
@[simp] theorem State.arm_opLen : (s.arm).opLen = s.opLen := rfl
@[simp] theorem State.arm_rxLen : (s.arm).rxLen = s.rxLen := rfl
@[simp] theorem State.arm_armed : (s.arm).armed = true := rfl
@[simp] theorem State.arm_remaining : (s.arm).remaining = s.timeoutDuration := rfl
@[simp] theorem State.arm_txq : (s.arm).txq = s.txq := rfl
@[simp] theorem State.arm_done : (s.arm).done = s.done := rfl
@[simp] theorem State.arm_status : (s.arm).status = s.status := rfl
@[simp] theorem State.arm_resultLen : (s.arm).resultLen = s.resultLen := rfl
@[simp] theorem State.arm_statsValid : (s.arm).statsValid = s.statsValid := rfl
@[simp] theorem State.arm_txbuf : (s.arm).txbuf = s.txbuf := rfl
@[simp] theorem State.arm_rxbuf : (s.arm).rxbuf = s.rxbuf := rfl
@[simp] theorem State.arm_chanRelease : (s.arm).chanRelease = s.chanRelease := rfl
@[simp] theorem State.arm_txOut : (s.arm).txOut = s.txOut := rfl
@[simp] theorem State.arm_chanAvail : (s.arm).chanAvail = s.chanAvail := rfl
@[simp] theorem State.arm_events : (s.arm).events = s.events := rfl
@[simp] theorem State.arm_source : (s.arm).source = s.source := rfl
@[simp] theorem State.arm_epoch : (s.arm).epoch = s.epoch := rfl
@[simp] theorem State.arm_steps : (s.arm).steps = s.steps := rfl
@[simp] theorem State.arm_txbufByte : (s.arm).txbufByte = s.txbufByte := rfl
@[simp] theorem State.arm_rxbufByte : (s.arm).rxbufByte = s.rxbufByte := rfl
@[simp] theorem State.arm_rawByte : (s.arm).rawByte = s.rawByte := rfl
@[simp] theorem State.arm_rawBytes : (s.arm).rawBytes = s.rawBytes := rfl
@[simp] theorem State.arm_payload : (s.arm).payload = s.payload := rfl
end

section
variable (s : State)
@[simp] theorem State.disarm_params : (s.disarm).params = s.params := rfl
@[simp] theorem State.disarm_sess : (s.disarm).sess = s.sess := rfl
@[simp] theorem State.disarm_role : (s.disarm).role = s.role := rfl
@[simp] theorem State.disarm_retryLimit : (s.disarm).retryLimit = s.retryLimit := rfl
@[simp] theorem State.disarm_timeoutDuration : (s.disarm).timeoutDuration = s.timeoutDuration := rfl
@[simp] theorem State.disarm_sendToggle : (s.disarm).sendToggle = s.sendToggle := rfl
@[simp] theorem State.disarm_expectToggle : (s.disarm).expectToggle = s.expectToggle := rfl
@[simp] theorem State.disarm_framesTotal : (s.disarm).framesTotal = s.framesTotal := rfl
@[simp] theorem State.disarm_framesValid : (s.disarm).framesValid = s.framesValid := rfl
@[simp] theorem State.disarm_framesInvalid : (s.disarm).framesInvalid = s.framesInvalid := rfl
@[simp] theorem State.disarm_framesDuplicate : (s.disarm).framesDuplicate = s.framesDuplicate := rfl
@[simp] theorem State.disarm_retransmissions : (s.disarm).retransmissions = s.retransmissions := rfl
@[simp] theorem State.disarm_timeouts : (s.disarm).timeouts = s.timeouts := rfl
@[simp] theorem State.disarm_rs : (s.disarm).rs = s.rs := rfl
@[simp] theorem State.disarm_ctl : (s.disarm).ctl = s.ctl := rfl
@[simp] theorem State.disarm_raw : (s.disarm).raw = s.raw := rfl
@[simp] theorem State.disarm_rawLen : (s.disarm).rawLen = s.rawLen := rfl
@[simp] theorem State.disarm_ovf : (s.disarm).ovf = s.ovf := rfl
@[simp] theorem State.disarm_phase : (s.disarm).phase = s.phase := rfl
@[simp] theorem State.disarm_tries : (s.disarm).tries = s.tries := rfl
@[simp] theorem State.disarm_opLen : (s.disarm).opLen = s.opLen := rfl
@[simp] theorem State.disarm_rxLen : (s.disarm).rxLen = s.rxLen := rfl
@[simp] theorem State.disarm_armed : (s.disarm).armed = false := rfl
@[simp] theorem State.disarm_remaining : (s.disarm).remaining = s.remaining := rfl
@[simp] theorem State.disarm_txq : (s.disarm).txq = s.txq := rfl
@[simp] theorem State.disarm_done : (s.disarm).done = s.done := rfl
@[simp] theorem State.disarm_status : (s.disarm).status = s.status := rfl
@[simp] theorem State.disarm_resultLen : (s.disarm).resultLen = s.resultLen := rfl
@[simp] theorem State.disarm_statsValid : (s.disarm).statsValid = s.statsValid := rfl
@[simp] theorem State.disarm_txbuf : (s.disarm).txbuf = s.txbuf := rfl
@[simp] theorem State.disarm_rxbuf : (s.disarm).rxbuf = s.rxbuf := rfl
@[simp] theorem State.disarm_chanRelease : (s.disarm).chanRelease = s.chanRelease := rfl
@[simp] theorem State.disarm_txOut : (s.disarm).txOut = s.txOut := rfl
@[simp] theorem State.disarm_chanAvail : (s.disarm).chanAvail = s.chanAvail := rfl
@[simp] theorem State.disarm_events : (s.disarm).events = s.events := rfl
@[simp] theorem State.disarm_source : (s.disarm).source = s.source := rfl
@[simp] theorem State.disarm_epoch : (s.disarm).epoch = s.epoch := rfl
@[simp] theorem State.disarm_steps : (s.disarm).steps = s.steps := rfl
@[simp] theorem State.disarm_txbufByte : (s.disarm).txbufByte = s.txbufByte := rfl
@[simp] theorem State.disarm_rxbufByte : (s.disarm).rxbufByte = s.rxbufByte := rfl
@[simp] theorem State.disarm_rawByte : (s.disarm).rawByte = s.rawByte := rfl
@[simp] theorem State.disarm_rawBytes : (s.disarm).rawBytes = s.rawBytes := rfl
@[simp] theorem State.disarm_payload : (s.disarm).payload = s.payload := rfl
end

section
variable (s : State)
@[simp] theorem State.readerInit_params : (s.readerInit).params = s.params := rfl
@[simp] theorem State.readerInit_sess : (s.readerInit).sess = s.sess := rfl
@[simp] theorem State.readerInit_role : (s.readerInit).role = s.role := rfl
@[simp] theorem State.readerInit_retryLimit : (s.readerInit).retryLimit = s.retryLimit := rfl
@[simp] theorem State.readerInit_timeoutDuration : (s.readerInit).timeoutDuration = s.timeoutDuration := rfl
@[simp] theorem State.readerInit_sendToggle : (s.readerInit).sendToggle = s.sendToggle := rfl
@[simp] theorem State.readerInit_expectToggle : (s.readerInit).expectToggle = s.expectToggle := rfl
@[simp] theorem State.readerInit_framesTotal : (s.readerInit).framesTotal = s.framesTotal := rfl
@[simp] theorem State.readerInit_framesValid : (s.readerInit).framesValid = s.framesValid := rfl
@[simp] theorem State.readerInit_framesInvalid : (s.readerInit).framesInvalid = s.framesInvalid := rfl
@[simp] theorem State.readerInit_framesDuplicate : (s.readerInit).framesDuplicate = s.framesDuplicate := rfl
@[simp] theorem State.readerInit_retransmissions : (s.readerInit).retransmissions = s.retransmissions := rfl
@[simp] theorem State.readerInit_timeouts : (s.readerInit).timeouts = s.timeouts := rfl
@[simp] theorem State.readerInit_rs : (s.readerInit).rs = .start := rfl
@[simp] theorem State.readerInit_ctl : (s.readerInit).ctl = s.ctl := rfl
@[simp] theorem State.readerInit_raw : (s.readerInit).raw = s.raw := rfl
@[simp] theorem State.readerInit_rawLen : (s.readerInit).rawLen = 0 := rfl
@[simp] theorem State.readerInit_ovf : (s.readerInit).ovf = false := rfl
@[simp] theorem State.readerInit_phase : (s.readerInit).phase = s.phase := rfl
@[simp] theorem State.readerInit_tries : (s.readerInit).tries = s.tries := rfl
@[simp] theorem State.readerInit_opLen : (s.readerInit).opLen = s.opLen := rfl
@[simp] theorem State.readerInit_rxLen : (s.readerInit).rxLen = s.rxLen := rfl
@[simp] theorem State.readerInit_armed : (s.readerInit).armed = s.armed := rfl
@[simp] theorem State.readerInit_remaining : (s.readerInit).remaining = s.remaining := rfl
@[simp] theorem State.readerInit_txq : (s.readerInit).txq = s.txq := rfl
@[simp] theorem State.readerInit_done : (s.readerInit).done = s.done := rfl
@[simp] theorem State.readerInit_status : (s.readerInit).status = s.status := rfl
@[simp] theorem State.readerInit_resultLen : (s.readerInit).resultLen = s.resultLen := rfl
@[simp] theorem State.readerInit_statsValid : (s.readerInit).statsValid = s.statsValid := rfl
@[simp] theorem State.readerInit_txbuf : (s.readerInit).txbuf = s.txbuf := rfl
@[simp] theorem State.readerInit_rxbuf : (s.readerInit).rxbuf = s.rxbuf := rfl
@[simp] theorem State.readerInit_chanRelease : (s.readerInit).chanRelease = s.chanRelease := rfl
@[simp] theorem State.readerInit_txOut : (s.readerInit).txOut = s.txOut := rfl
@[simp] theorem State.readerInit_chanAvail : (s.readerInit).chanAvail = s.chanAvail := rfl
@[simp] theorem State.readerInit_events : (s.readerInit).events = s.events := rfl
@[simp] theorem State.readerInit_source : (s.readerInit).source = s.source := rfl
@[simp] theorem State.readerInit_epoch : (s.readerInit).epoch = s.epoch := rfl
@[simp] theorem State.readerInit_steps : (s.readerInit).steps = s.steps := rfl
@[simp] theorem State.readerInit_txbufByte : (s.readerInit).txbufByte = s.txbufByte := rfl
@[simp] theorem State.readerInit_rxbufByte : (s.readerInit).rxbufByte = s.rxbufByte := rfl
@[simp] theorem State.readerInit_rawByte : (s.readerInit).rawByte = s.rawByte := rfl
@[simp] theorem State.readerInit_payload : (s.readerInit).payload = s.payload := rfl
end

section
variable (s : State)
@[simp] theorem State.readerStop_params : (s.readerStop).params = s.params := rfl
@[simp] theorem State.readerStop_sess : (s.readerStop).sess = s.sess := rfl
@[simp] theorem State.readerStop_role : (s.readerStop).role = s.role := rfl
@[simp] theorem State.readerStop_retryLimit : (s.readerStop).retryLimit = s.retryLimit := rfl
@[simp] theorem State.readerStop_timeoutDuration : (s.readerStop).timeoutDuration = s.timeoutDuration := rfl
@[simp] theorem State.readerStop_sendToggle : (s.readerStop).sendToggle = s.sendToggle := rfl
@[simp] theorem State.readerStop_expectToggle : (s.readerStop).expectToggle = s.expectToggle := rfl
@[simp] theorem State.readerStop_framesTotal : (s.readerStop).framesTotal = s.framesTotal := rfl
@[simp] theorem State.readerStop_framesValid : (s.readerStop).framesValid = s.framesValid := rfl
@[simp] theorem State.readerStop_framesInvalid : (s.readerStop).framesInvalid = s.framesInvalid := rfl
@[simp] theorem State.readerStop_framesDuplicate : (s.readerStop).framesDuplicate = s.framesDuplicate := rfl
@[simp] theorem State.readerStop_retransmissions : (s.readerStop).retransmissions = s.retransmissions := rfl
@[simp] theorem State.readerStop_timeouts : (s.readerStop).timeouts = s.timeouts := rfl
@[simp] theorem State.readerStop_rs : (s.readerStop).rs = .start := rfl
@[simp] theorem State.readerStop_ctl : (s.readerStop).ctl = s.ctl := rfl
@[simp] theorem State.readerStop_raw : (s.readerStop).raw = s.raw := rfl
@[simp] theorem State.readerStop_rawLen : (s.readerStop).rawLen = s.rawLen := rfl
@[simp] theorem State.readerStop_ovf : (s.readerStop).ovf = s.ovf := rfl
@[simp] theorem State.readerStop_phase : (s.readerStop).phase = s.phase := rfl
@[simp] theorem State.readerStop_tries : (s.readerStop).tries = s.tries := rfl
@[simp] theorem State.readerStop_opLen : (s.readerStop).opLen = s.opLen := rfl
@[simp] theorem State.readerStop_rxLen : (s.readerStop).rxLen = s.rxLen := rfl
@[simp] theorem State.readerStop_armed : (s.readerStop).armed = s.armed := rfl
@[simp] theorem State.readerStop_remaining : (s.readerStop).remaining = s.remaining := rfl
@[simp] theorem State.readerStop_txq : (s.readerStop).txq = s.txq := rfl
@[simp] theorem State.readerStop_done : (s.readerStop).done = s.done := rfl
@[simp] theorem State.readerStop_status : (s.readerStop).status = s.status := rfl
@[simp] theorem State.readerStop_resultLen : (s.readerStop).resultLen = s.resultLen := rfl
@[simp] theorem State.readerStop_statsValid : (s.readerStop).statsValid = s.statsValid := rfl
@[simp] theorem State.readerStop_txbuf : (s.readerStop).txbuf = s.txbuf := rfl
@[simp] theorem State.readerStop_rxbuf : (s.readerStop).rxbuf = s.rxbuf := rfl
@[simp] theorem State.readerStop_chanRelease : (s.readerStop).chanRelease = s.chanRelease := rfl
@[simp] theorem State.readerStop_txOut : (s.readerStop).txOut = s.txOut := rfl
@[simp] theorem State.readerStop_chanAvail : (s.readerStop).chanAvail = s.chanAvail := rfl
@[simp] theorem State.readerStop_events : (s.readerStop).events = s.events := rfl
@[simp] theorem State.readerStop_source : (s.readerStop).source = s.source := rfl
@[simp] theorem State.readerStop_epoch : (s.readerStop).epoch = s.epoch := rfl
@[simp] theorem State.readerStop_steps : (s.readerStop).steps = s.steps := rfl
@[simp] theorem State.readerStop_txbufByte : (s.readerStop).txbufByte = s.txbufByte := rfl
@[simp] theorem State.readerStop_rxbufByte : (s.readerStop).rxbufByte = s.rxbufByte := rfl
@[simp] theorem State.readerStop_rawByte : (s.readerStop).rawByte = s.rawByte := rfl
@[simp] theorem State.readerStop_rawBytes : (s.readerStop).rawBytes = s.rawBytes := rfl
@[simp] theorem State.readerStop_payload : (s.readerStop).payload = s.payload := rfl
end

section
variable (s : State) (xs : List Byte)
@[simp] theorem State.emit_params : (s.emit xs).params = s.params := rfl
@[simp] theorem State.emit_sess : (s.emit xs).sess = s.sess := rfl
@[simp] theorem State.emit_role : (s.emit xs).role = s.role := rfl
@[simp] theorem State.emit_retryLimit : (s.emit xs).retryLimit = s.retryLimit := rfl
@[simp] theorem State.emit_timeoutDuration : (s.emit xs).timeoutDuration = s.timeoutDuration := rfl
@[simp] theorem State.emit_sendToggle : (s.emit xs).sendToggle = s.sendToggle := rfl
@[simp] theorem State.emit_expectToggle : (s.emit xs).expectToggle = s.expectToggle := rfl
@[simp] theorem State.emit_framesTotal : (s.emit xs).framesTotal = s.framesTotal := rfl
@[simp] theorem State.emit_framesValid : (s.emit xs).framesValid = s.framesValid := rfl
@[simp] theorem State.emit_framesInvalid : (s.emit xs).framesInvalid = s.framesInvalid := rfl
@[simp] theorem State.emit_framesDuplicate : (s.emit xs).framesDuplicate = s.framesDuplicate := rfl
@[simp] theorem State.emit_retransmissions : (s.emit xs).retransmissions = s.retransmissions := rfl
@[simp] theorem State.emit_timeouts : (s.emit xs).timeouts = s.timeouts := rfl
@[simp] theorem State.emit_rs : (s.emit xs).rs = s.rs := rfl
@[simp] theorem State.emit_ctl : (s.emit xs).ctl = s.ctl := rfl
@[simp] theorem State.emit_raw : (s.emit xs).raw = s.raw := rfl
@[simp] theorem State.emit_rawLen : (s.emit xs).rawLen = s.rawLen := rfl
@[simp] theorem State.emit_ovf : (s.emit xs).ovf = s.ovf := rfl
@[simp] theorem State.emit_phase : (s.emit xs).phase = s.phase := rfl
@[simp] theorem State.emit_tries : (s.emit xs).tries = s.tries := rfl
@[simp] theorem State.emit_opLen : (s.emit xs).opLen = s.opLen := rfl
@[simp] theorem State.emit_rxLen : (s.emit xs).rxLen = s.rxLen := rfl
@[simp] theorem State.emit_armed : (s.emit xs).armed = s.armed := rfl
@[simp] theorem State.emit_remaining : (s.emit xs).remaining = s.remaining := rfl
@[simp] theorem State.emit_txq : (s.emit xs).txq = xs := rfl
@[simp] theorem State.emit_done : (s.emit xs).done = s.done := rfl
@[simp] theorem State.emit_status : (s.emit xs).status = s.status := rfl
@[simp] theorem State.emit_resultLen : (s.emit xs).resultLen = s.resultLen := rfl
@[simp] theorem State.emit_statsValid : (s.emit xs).statsValid = s.statsValid := rfl
@[simp] theorem State.emit_txbuf : (s.emit xs).txbuf = s.txbuf := rfl
@[simp] theorem State.emit_rxbuf : (s.emit xs).rxbuf = s.rxbuf := rfl
@[simp] theorem State.emit_chanRelease : (s.emit xs).chanRelease = s.chanRelease := rfl
@[simp] theorem State.emit_txOut : (s.emit xs).txOut = s.txOut := rfl
@[simp] theorem State.emit_chanAvail : (s.emit xs).chanAvail = s.chanAvail := rfl
@[simp] theorem State.emit_events : (s.emit xs).events = s.events := rfl
@[simp] theorem State.emit_source : (s.emit xs).source = s.source := rfl
@[simp] theorem State.emit_epoch : (s.emit xs).epoch = s.epoch := rfl
@[simp] theorem State.emit_steps : (s.emit xs).steps = s.steps := rfl
@[simp] theorem State.emit_txbufByte : (s.emit xs).txbufByte = s.txbufByte := rfl
@[simp] theorem State.emit_rxbufByte : (s.emit xs).rxbufByte = s.rxbufByte := rfl
@[simp] theorem State.emit_rawByte : (s.emit xs).rawByte = s.rawByte := rfl
@[simp] theorem State.emit_rawBytes : (s.emit xs).rawBytes = s.rawBytes := rfl
@[simp] theorem State.emit_payload : (s.emit xs).payload = s.payload := rfl
end

section
variable (s : State) (xs : List Byte) (p : Phase)
@[simp] theorem State.transmit_params : (s.transmit xs p).params = s.params := rfl
@[simp] theorem State.transmit_sess : (s.transmit xs p).sess = s.sess := rfl
@[simp] theorem State.transmit_role : (s.transmit xs p).role = s.role := rfl
@[simp] theorem State.transmit_retryLimit : (s.transmit xs p).retryLimit = s.retryLimit := rfl
@[simp] theorem State.transmit_timeoutDuration : (s.transmit xs p).timeoutDuration = s.timeoutDuration := rfl
@[simp] theorem State.transmit_sendToggle : (s.transmit xs p).sendToggle = s.sendToggle := rfl
@[simp] theorem State.transmit_expectToggle : (s.transmit xs p).expectToggle = s.expectToggle := rfl
@[simp] theorem State.transmit_framesTotal : (s.transmit xs p).framesTotal = s.framesTotal := rfl
@[simp] theorem State.transmit_framesValid : (s.transmit xs p).framesValid = s.framesValid := rfl
@[simp] theorem State.transmit_framesInvalid : (s.transmit xs p).framesInvalid = s.framesInvalid := rfl
@[simp] theorem State.transmit_framesDuplicate : (s.transmit xs p).framesDuplicate = s.framesDuplicate := rfl
@[simp] theorem State.transmit_retransmissions : (s.transmit xs p).retransmissions = s.retransmissions := rfl
@[simp] theorem State.transmit_timeouts : (s.transmit xs p).timeouts = s.timeouts := rfl
@[simp] theorem State.transmit_rs : (s.transmit xs p).rs = s.rs := rfl
@[simp] theorem State.transmit_ctl : (s.transmit xs p).ctl = s.ctl := rfl
@[simp] theorem State.transmit_raw : (s.transmit xs p).raw = s.raw := rfl
@[simp] theorem State.transmit_rawLen : (s.transmit xs p).rawLen = s.rawLen := rfl
@[simp] theorem State.transmit_ovf : (s.transmit xs p).ovf = s.ovf := rfl
@[simp] theorem State.transmit_phase : (s.transmit xs p).phase = p := rfl
@[simp] theorem State.transmit_tries : (s.transmit xs p).tries = s.tries := rfl
@[simp] theorem State.transmit_opLen : (s.transmit xs p).opLen = s.opLen := rfl
@[simp] theorem State.transmit_rxLen : (s.transmit xs p).rxLen = s.rxLen := rfl
@[simp] theorem State.transmit_armed : (s.transmit xs p).armed = s.armed := rfl
@[simp] theorem State.transmit_remaining : (s.transmit xs p).remaining = s.remaining := rfl
@[simp] theorem State.transmit_txq : (s.transmit xs p).txq = xs := rfl
@[simp] theorem State.transmit_done : (s.transmit xs p).done = s.done := rfl
@[simp] theorem State.transmit_status : (s.transmit xs p).status = s.status := rfl
@[simp] theorem State.transmit_resultLen : (s.transmit xs p).resultLen = s.resultLen := rfl
@[simp] theorem State.transmit_statsValid : (s.transmit xs p).statsValid = s.statsValid := rfl
@[simp] theorem State.transmit_txbuf : (s.transmit xs p).txbuf = s.txbuf := rfl
@[simp] theorem State.transmit_rxbuf : (s.transmit xs p).rxbuf = s.rxbuf := rfl
@[simp] theorem State.transmit_chanRelease : (s.transmit xs p).chanRelease = s.chanRelease := rfl
@[simp] theorem State.transmit_txOut : (s.transmit xs p).txOut = s.txOut := rfl
@[simp] theorem State.transmit_chanAvail : (s.transmit xs p).chanAvail = s.chanAvail := rfl
@[simp] theorem State.transmit_events : (s.transmit xs p).events = s.events := rfl
@[simp] theorem State.transmit_source : (s.transmit xs p).source = s.source := rfl
@[simp] theorem State.transmit_epoch : (s.transmit xs p).epoch = s.epoch := rfl
@[simp] theorem State.transmit_steps : (s.transmit xs p).steps = s.steps := rfl
@[simp] theorem State.transmit_txbufByte : (s.transmit xs p).txbufByte = s.txbufByte := rfl
@[simp] theorem State.transmit_rxbufByte : (s.transmit xs p).rxbufByte = s.rxbufByte := rfl
@[simp] theorem State.transmit_rawByte : (s.transmit xs p).rawByte = s.rawByte := rfl
@[simp] theorem State.transmit_rawBytes : (s.transmit xs p).rawBytes = s.rawBytes := rfl
@[simp] theorem State.transmit_payload : (s.transmit xs p).payload = s.payload := rfl
end

section
variable (s : State) (st : Status) (n : BitVec 16)
@[simp] theorem State.complete_params : (s.complete st n).params = s.params := rfl
@[simp] theorem State.complete_sess : (s.complete st n).sess = s.sess := rfl
@[simp] theorem State.complete_role : (s.complete st n).role = s.role := rfl
@[simp] theorem State.complete_retryLimit : (s.complete st n).retryLimit = s.retryLimit := rfl
@[simp] theorem State.complete_timeoutDuration : (s.complete st n).timeoutDuration = s.timeoutDuration := rfl
@[simp] theorem State.complete_sendToggle : (s.complete st n).sendToggle = s.sendToggle := rfl
@[simp] theorem State.complete_expectToggle : (s.complete st n).expectToggle = s.expectToggle := rfl
@[simp] theorem State.complete_framesTotal : (s.complete st n).framesTotal = s.framesTotal := rfl
@[simp] theorem State.complete_framesValid : (s.complete st n).framesValid = s.framesValid := rfl
@[simp] theorem State.complete_framesInvalid : (s.complete st n).framesInvalid = s.framesInvalid := rfl
@[simp] theorem State.complete_framesDuplicate : (s.complete st n).framesDuplicate = s.framesDuplicate := rfl
@[simp] theorem State.complete_retransmissions : (s.complete st n).retransmissions = s.retransmissions := rfl
@[simp] theorem State.complete_timeouts : (s.complete st n).timeouts = s.timeouts := rfl
@[simp] theorem State.complete_rs : (s.complete st n).rs = s.rs := rfl
@[simp] theorem State.complete_ctl : (s.complete st n).ctl = s.ctl := rfl
@[simp] theorem State.complete_raw : (s.complete st n).raw = s.raw := rfl
@[simp] theorem State.complete_rawLen : (s.complete st n).rawLen = s.rawLen := rfl
@[simp] theorem State.complete_ovf : (s.complete st n).ovf = s.ovf := rfl
@[simp] theorem State.complete_phase : (s.complete st n).phase = .idle := rfl
@[simp] theorem State.complete_tries : (s.complete st n).tries = s.tries := rfl
@[simp] theorem State.complete_opLen : (s.complete st n).opLen = s.opLen := rfl
@[simp] theorem State.complete_rxLen : (s.complete st n).rxLen = s.rxLen := rfl
@[simp] theorem State.complete_armed : (s.complete st n).armed = false := rfl
@[simp] theorem State.complete_remaining : (s.complete st n).remaining = s.remaining := rfl
@[simp] theorem State.complete_txq : (s.complete st n).txq = s.txq := rfl
@[simp] theorem State.complete_done : (s.complete st n).done = true := rfl
@[simp] theorem State.complete_status : (s.complete st n).status = st := rfl
@[simp] theorem State.complete_resultLen : (s.complete st n).resultLen = n := rfl
@[simp] theorem State.complete_statsValid : (s.complete st n).statsValid = s.statsValid := rfl
@[simp] theorem State.complete_txbuf : (s.complete st n).txbuf = s.txbuf := rfl
@[simp] theorem State.complete_rxbuf : (s.complete st n).rxbuf = s.rxbuf := rfl
@[simp] theorem State.complete_chanRelease : (s.complete st n).chanRelease = s.chanRelease := rfl
@[simp] theorem State.complete_txOut : (s.complete st n).txOut = s.txOut := rfl
@[simp] theorem State.complete_chanAvail : (s.complete st n).chanAvail = s.chanAvail := rfl
@[simp] theorem State.complete_events : (s.complete st n).events = s.events := rfl
@[simp] theorem State.complete_source : (s.complete st n).source = s.source := rfl
@[simp] theorem State.complete_epoch : (s.complete st n).epoch = s.epoch := rfl
@[simp] theorem State.complete_steps : (s.complete st n).steps = s.steps := rfl
@[simp] theorem State.complete_txbufByte : (s.complete st n).txbufByte = s.txbufByte := rfl
@[simp] theorem State.complete_rxbufByte : (s.complete st n).rxbufByte = s.rxbufByte := rfl
@[simp] theorem State.complete_rawByte : (s.complete st n).rawByte = s.rawByte := rfl
@[simp] theorem State.complete_rawBytes : (s.complete st n).rawBytes = s.rawBytes := rfl
@[simp] theorem State.complete_payload : (s.complete st n).payload = s.payload := rfl
end

section
variable (s : State)
@[simp] theorem State.refuse_params : (s.refuse).params = s.params := rfl
@[simp] theorem State.refuse_sess : (s.refuse).sess = s.sess := rfl
@[simp] theorem State.refuse_role : (s.refuse).role = s.role := rfl
@[simp] theorem State.refuse_retryLimit : (s.refuse).retryLimit = s.retryLimit := rfl
@[simp] theorem State.refuse_timeoutDuration : (s.refuse).timeoutDuration = s.timeoutDuration := rfl
@[simp] theorem State.refuse_sendToggle : (s.refuse).sendToggle = s.sendToggle := rfl
@[simp] theorem State.refuse_expectToggle : (s.refuse).expectToggle = s.expectToggle := rfl
@[simp] theorem State.refuse_framesTotal : (s.refuse).framesTotal = s.framesTotal := rfl
@[simp] theorem State.refuse_framesValid : (s.refuse).framesValid = s.framesValid := rfl
@[simp] theorem State.refuse_framesInvalid : (s.refuse).framesInvalid = s.framesInvalid := rfl
@[simp] theorem State.refuse_framesDuplicate : (s.refuse).framesDuplicate = s.framesDuplicate := rfl
@[simp] theorem State.refuse_retransmissions : (s.refuse).retransmissions = s.retransmissions := rfl
@[simp] theorem State.refuse_timeouts : (s.refuse).timeouts = s.timeouts := rfl
@[simp] theorem State.refuse_rs : (s.refuse).rs = s.rs := rfl
@[simp] theorem State.refuse_ctl : (s.refuse).ctl = s.ctl := rfl
@[simp] theorem State.refuse_raw : (s.refuse).raw = s.raw := rfl
@[simp] theorem State.refuse_rawLen : (s.refuse).rawLen = s.rawLen := rfl
@[simp] theorem State.refuse_ovf : (s.refuse).ovf = s.ovf := rfl
@[simp] theorem State.refuse_phase : (s.refuse).phase = s.phase := rfl
@[simp] theorem State.refuse_tries : (s.refuse).tries = s.tries := rfl
@[simp] theorem State.refuse_opLen : (s.refuse).opLen = s.opLen := rfl
@[simp] theorem State.refuse_rxLen : (s.refuse).rxLen = s.rxLen := rfl
@[simp] theorem State.refuse_armed : (s.refuse).armed = s.armed := rfl
@[simp] theorem State.refuse_remaining : (s.refuse).remaining = s.remaining := rfl
@[simp] theorem State.refuse_txq : (s.refuse).txq = s.txq := rfl
@[simp] theorem State.refuse_done : (s.refuse).done = true := rfl
@[simp] theorem State.refuse_status : (s.refuse).status = .cmdError := rfl
@[simp] theorem State.refuse_resultLen : (s.refuse).resultLen = 0 := rfl
@[simp] theorem State.refuse_statsValid : (s.refuse).statsValid = s.statsValid := rfl
@[simp] theorem State.refuse_txbuf : (s.refuse).txbuf = s.txbuf := rfl
@[simp] theorem State.refuse_rxbuf : (s.refuse).rxbuf = s.rxbuf := rfl
@[simp] theorem State.refuse_chanRelease : (s.refuse).chanRelease = s.chanRelease := rfl
@[simp] theorem State.refuse_txOut : (s.refuse).txOut = s.txOut := rfl
@[simp] theorem State.refuse_chanAvail : (s.refuse).chanAvail = s.chanAvail := rfl
@[simp] theorem State.refuse_events : (s.refuse).events = s.events := rfl
@[simp] theorem State.refuse_source : (s.refuse).source = s.source := rfl
@[simp] theorem State.refuse_epoch : (s.refuse).epoch = s.epoch := rfl
@[simp] theorem State.refuse_steps : (s.refuse).steps = s.steps := rfl
@[simp] theorem State.refuse_txbufByte : (s.refuse).txbufByte = s.txbufByte := rfl
@[simp] theorem State.refuse_rxbufByte : (s.refuse).rxbufByte = s.rxbufByte := rfl
@[simp] theorem State.refuse_rawByte : (s.refuse).rawByte = s.rawByte := rfl
@[simp] theorem State.refuse_rawBytes : (s.refuse).rawBytes = s.rawBytes := rfl
@[simp] theorem State.refuse_payload : (s.refuse).payload = s.payload := rfl
end

section
variable (s : State)
@[simp] theorem State.releaseChannel_params : (s.releaseChannel).params = s.params := rfl
@[simp] theorem State.releaseChannel_sess : (s.releaseChannel).sess = s.sess := rfl
@[simp] theorem State.releaseChannel_role : (s.releaseChannel).role = s.role := rfl
@[simp] theorem State.releaseChannel_retryLimit : (s.releaseChannel).retryLimit = s.retryLimit := rfl
@[simp] theorem State.releaseChannel_timeoutDuration : (s.releaseChannel).timeoutDuration = s.timeoutDuration := rfl
@[simp] theorem State.releaseChannel_sendToggle : (s.releaseChannel).sendToggle = s.sendToggle := rfl
@[simp] theorem State.releaseChannel_expectToggle : (s.releaseChannel).expectToggle = s.expectToggle := rfl
@[simp] theorem State.releaseChannel_framesTotal : (s.releaseChannel).framesTotal = s.framesTotal := rfl
@[simp] theorem State.releaseChannel_framesValid : (s.releaseChannel).framesValid = s.framesValid := rfl
@[simp] theorem State.releaseChannel_framesInvalid : (s.releaseChannel).framesInvalid = s.framesInvalid := rfl
@[simp] theorem State.releaseChannel_framesDuplicate : (s.releaseChannel).framesDuplicate = s.framesDuplicate := rfl
@[simp] theorem State.releaseChannel_retransmissions : (s.releaseChannel).retransmissions = s.retransmissions := rfl
@[simp] theorem State.releaseChannel_timeouts : (s.releaseChannel).timeouts = s.timeouts := rfl
@[simp] theorem State.releaseChannel_rs : (s.releaseChannel).rs = s.rs := rfl
@[simp] theorem State.releaseChannel_ctl : (s.releaseChannel).ctl = s.ctl := rfl
@[simp] theorem State.releaseChannel_raw : (s.releaseChannel).raw = s.raw := rfl
@[simp] theorem State.releaseChannel_rawLen : (s.releaseChannel).rawLen = s.rawLen := rfl
@[simp] theorem State.releaseChannel_ovf : (s.releaseChannel).ovf = s.ovf := rfl
@[simp] theorem State.releaseChannel_phase : (s.releaseChannel).phase = s.phase := rfl
@[simp] theorem State.releaseChannel_tries : (s.releaseChannel).tries = s.tries := rfl
@[simp] theorem State.releaseChannel_opLen : (s.releaseChannel).opLen = s.opLen := rfl
@[simp] theorem State.releaseChannel_rxLen : (s.releaseChannel).rxLen = s.rxLen := rfl
@[simp] theorem State.releaseChannel_armed : (s.releaseChannel).armed = s.armed := rfl
@[simp] theorem State.releaseChannel_remaining : (s.releaseChannel).remaining = s.remaining := rfl
@[simp] theorem State.releaseChannel_txq : (s.releaseChannel).txq = s.txq := rfl
@[simp] theorem State.releaseChannel_done : (s.releaseChannel).done = s.done := rfl
@[simp] theorem State.releaseChannel_status : (s.releaseChannel).status = s.status := rfl
@[simp] theorem State.releaseChannel_resultLen : (s.releaseChannel).resultLen = s.resultLen := rfl
@[simp] theorem State.releaseChannel_statsValid : (s.releaseChannel).statsValid = s.statsValid := rfl
@[simp] theorem State.releaseChannel_txbuf : (s.releaseChannel).txbuf = s.txbuf := rfl
@[simp] theorem State.releaseChannel_rxbuf : (s.releaseChannel).rxbuf = s.rxbuf := rfl
@[simp] theorem State.releaseChannel_chanRelease : (s.releaseChannel).chanRelease = true := rfl
@[simp] theorem State.releaseChannel_txOut : (s.releaseChannel).txOut = s.txOut := rfl
@[simp] theorem State.releaseChannel_chanAvail : (s.releaseChannel).chanAvail = s.chanAvail := rfl
@[simp] theorem State.releaseChannel_events : (s.releaseChannel).events = s.events := rfl
@[simp] theorem State.releaseChannel_source : (s.releaseChannel).source = s.source := rfl
@[simp] theorem State.releaseChannel_epoch : (s.releaseChannel).epoch = s.epoch := rfl
@[simp] theorem State.releaseChannel_steps : (s.releaseChannel).steps = s.steps := rfl
@[simp] theorem State.releaseChannel_txbufByte : (s.releaseChannel).txbufByte = s.txbufByte := rfl
@[simp] theorem State.releaseChannel_rxbufByte : (s.releaseChannel).rxbufByte = s.rxbufByte := rfl
@[simp] theorem State.releaseChannel_rawByte : (s.releaseChannel).rawByte = s.rawByte := rfl
@[simp] theorem State.releaseChannel_rawBytes : (s.releaseChannel).rawBytes = s.rawBytes := rfl
@[simp] theorem State.releaseChannel_payload : (s.releaseChannel).payload = s.payload := rfl
end

section
variable (s : State)
@[simp] theorem State.teardown_params : (s.teardown).params = s.params := rfl
@[simp] theorem State.teardown_sess : (s.teardown).sess = .closed := rfl
@[simp] theorem State.teardown_role : (s.teardown).role = s.role := rfl
@[simp] theorem State.teardown_retryLimit : (s.teardown).retryLimit = s.retryLimit := rfl
@[simp] theorem State.teardown_timeoutDuration : (s.teardown).timeoutDuration = s.timeoutDuration := rfl
@[simp] theorem State.teardown_sendToggle : (s.teardown).sendToggle = s.sendToggle := rfl
@[simp] theorem State.teardown_expectToggle : (s.teardown).expectToggle = s.expectToggle := rfl
@[simp] theorem State.teardown_framesTotal : (s.teardown).framesTotal = s.framesTotal := rfl
@[simp] theorem State.teardown_framesValid : (s.teardown).framesValid = s.framesValid := rfl
@[simp] theorem State.teardown_framesInvalid : (s.teardown).framesInvalid = s.framesInvalid := rfl
@[simp] theorem State.teardown_framesDuplicate : (s.teardown).framesDuplicate = s.framesDuplicate := rfl
@[simp] theorem State.teardown_retransmissions : (s.teardown).retransmissions = s.retransmissions := rfl
@[simp] theorem State.teardown_timeouts : (s.teardown).timeouts = s.timeouts := rfl
@[simp] theorem State.teardown_rs : (s.teardown).rs = s.rs := rfl
@[simp] theorem State.teardown_ctl : (s.teardown).ctl = s.ctl := rfl
@[simp] theorem State.teardown_raw : (s.teardown).raw = s.raw := rfl
@[simp] theorem State.teardown_rawLen : (s.teardown).rawLen = s.rawLen := rfl
@[simp] theorem State.teardown_ovf : (s.teardown).ovf = s.ovf := rfl
@[simp] theorem State.teardown_phase : (s.teardown).phase = s.phase := rfl
@[simp] theorem State.teardown_tries : (s.teardown).tries = s.tries := rfl
@[simp] theorem State.teardown_opLen : (s.teardown).opLen = s.opLen := rfl
@[simp] theorem State.teardown_rxLen : (s.teardown).rxLen = s.rxLen := rfl
@[simp] theorem State.teardown_armed : (s.teardown).armed = s.armed := rfl
@[simp] theorem State.teardown_remaining : (s.teardown).remaining = s.remaining := rfl
@[simp] theorem State.teardown_txq : (s.teardown).txq = s.txq := rfl
@[simp] theorem State.teardown_done : (s.teardown).done = s.done := rfl
@[simp] theorem State.teardown_status : (s.teardown).status = s.status := rfl
@[simp] theorem State.teardown_resultLen : (s.teardown).resultLen = s.resultLen := rfl
@[simp] theorem State.teardown_statsValid : (s.teardown).statsValid = s.statsValid := rfl
@[simp] theorem State.teardown_txbuf : (s.teardown).txbuf = s.txbuf := rfl
@[simp] theorem State.teardown_rxbuf : (s.teardown).rxbuf = s.rxbuf := rfl
@[simp] theorem State.teardown_chanRelease : (s.teardown).chanRelease = true := rfl
@[simp] theorem State.teardown_txOut : (s.teardown).txOut = s.txOut := rfl
@[simp] theorem State.teardown_chanAvail : (s.teardown).chanAvail = s.chanAvail := rfl
@[simp] theorem State.teardown_events : (s.teardown).events = s.events := rfl
@[simp] theorem State.teardown_source : (s.teardown).source = s.source := rfl
@[simp] theorem State.teardown_epoch : (s.teardown).epoch = s.epoch := rfl
@[simp] theorem State.teardown_steps : (s.teardown).steps = s.steps := rfl
@[simp] theorem State.teardown_txbufByte : (s.teardown).txbufByte = s.txbufByte := rfl
@[simp] theorem State.teardown_rxbufByte : (s.teardown).rxbufByte = s.rxbufByte := rfl
@[simp] theorem State.teardown_rawByte : (s.teardown).rawByte = s.rawByte := rfl
@[simp] theorem State.teardown_rawBytes : (s.teardown).rawBytes = s.rawBytes := rfl
@[simp] theorem State.teardown_payload : (s.teardown).payload = s.payload := rfl
end

section
variable (s : State) (op : TimedOp)
@[simp] theorem State.retransmit_params : (s.retransmit op).params = s.params := rfl
@[simp] theorem State.retransmit_sess : (s.retransmit op).sess = s.sess := rfl
@[simp] theorem State.retransmit_role : (s.retransmit op).role = s.role := rfl
@[simp] theorem State.retransmit_retryLimit : (s.retransmit op).retryLimit = s.retryLimit := rfl
@[simp] theorem State.retransmit_timeoutDuration : (s.retransmit op).timeoutDuration = s.timeoutDuration := rfl
@[simp] theorem State.retransmit_sendToggle : (s.retransmit op).sendToggle = s.sendToggle := rfl
@[simp] theorem State.retransmit_expectToggle : (s.retransmit op).expectToggle = s.expectToggle := rfl
@[simp] theorem State.retransmit_framesTotal : (s.retransmit op).framesTotal = s.framesTotal := rfl
@[simp] theorem State.retransmit_framesValid : (s.retransmit op).framesValid = s.framesValid := rfl
@[simp] theorem State.retransmit_framesInvalid : (s.retransmit op).framesInvalid = s.framesInvalid := rfl
@[simp] theorem State.retransmit_framesDuplicate : (s.retransmit op).framesDuplicate = s.framesDuplicate := rfl
@[simp] theorem State.retransmit_retransmissions : (s.retransmit op).retransmissions = s.retransmissions := rfl
@[simp] theorem State.retransmit_timeouts : (s.retransmit op).timeouts = s.timeouts := rfl
@[simp] theorem State.retransmit_rs : (s.retransmit op).rs = s.rs := rfl
@[simp] theorem State.retransmit_ctl : (s.retransmit op).ctl = s.ctl := rfl
@[simp] theorem State.retransmit_raw : (s.retransmit op).raw = s.raw := rfl
@[simp] theorem State.retransmit_rawLen : (s.retransmit op).rawLen = s.rawLen := rfl
@[simp] theorem State.retransmit_ovf : (s.retransmit op).ovf = s.ovf := rfl
@[simp] theorem State.retransmit_phase : (s.retransmit op).phase = op.txPhase := rfl
@[simp] theorem State.retransmit_tries : (s.retransmit op).tries = s.tries := rfl
@[simp] theorem State.retransmit_opLen : (s.retransmit op).opLen = s.opLen := rfl
@[simp] theorem State.retransmit_rxLen : (s.retransmit op).rxLen = s.rxLen := rfl
@[simp] theorem State.retransmit_armed : (s.retransmit op).armed = s.armed := rfl
@[simp] theorem State.retransmit_remaining : (s.retransmit op).remaining = s.remaining := rfl
@[simp] theorem State.retransmit_txq : (s.retransmit op).txq = s.requestFrame op := rfl
@[simp] theorem State.retransmit_done : (s.retransmit op).done = s.done := rfl
@[simp] theorem State.retransmit_status : (s.retransmit op).status = s.status := rfl
@[simp] theorem State.retransmit_resultLen : (s.retransmit op).resultLen = s.resultLen := rfl
@[simp] theorem State.retransmit_statsValid : (s.retransmit op).statsValid = s.statsValid := rfl
@[simp] theorem State.retransmit_txbuf : (s.retransmit op).txbuf = s.txbuf := rfl
@[simp] theorem State.retransmit_rxbuf : (s.retransmit op).rxbuf = s.rxbuf := rfl
@[simp] theorem State.retransmit_chanRelease : (s.retransmit op).chanRelease = s.chanRelease := rfl
@[simp] theorem State.retransmit_txOut : (s.retransmit op).txOut = s.txOut := rfl
@[simp] theorem State.retransmit_chanAvail : (s.retransmit op).chanAvail = s.chanAvail := rfl
@[simp] theorem State.retransmit_events : (s.retransmit op).events = s.events := rfl
@[simp] theorem State.retransmit_source : (s.retransmit op).source = s.source := rfl
@[simp] theorem State.retransmit_epoch : (s.retransmit op).epoch = s.epoch := rfl
@[simp] theorem State.retransmit_steps : (s.retransmit op).steps = s.steps := rfl
@[simp] theorem State.retransmit_txbufByte : (s.retransmit op).txbufByte = s.txbufByte := rfl
@[simp] theorem State.retransmit_rxbufByte : (s.retransmit op).rxbufByte = s.rxbufByte := rfl
@[simp] theorem State.retransmit_rawByte : (s.retransmit op).rawByte = s.rawByte := rfl
@[simp] theorem State.retransmit_rawBytes : (s.retransmit op).rawBytes = s.rawBytes := rfl
@[simp] theorem State.retransmit_payload : (s.retransmit op).payload = s.payload := rfl
end

section
variable (s : State) (a : BitVec 16) (v : Byte)
@[simp] theorem State.takeHostWrite_params : (s.takeHostWrite a v).params = s.params := rfl
@[simp] theorem State.takeHostWrite_sess : (s.takeHostWrite a v).sess = s.sess := rfl
@[simp] theorem State.takeHostWrite_role : (s.takeHostWrite a v).role = s.role := rfl
@[simp] theorem State.takeHostWrite_retryLimit : (s.takeHostWrite a v).retryLimit = s.retryLimit := rfl
@[simp] theorem State.takeHostWrite_timeoutDuration : (s.takeHostWrite a v).timeoutDuration = s.timeoutDuration := rfl
@[simp] theorem State.takeHostWrite_sendToggle : (s.takeHostWrite a v).sendToggle = s.sendToggle := rfl
@[simp] theorem State.takeHostWrite_expectToggle : (s.takeHostWrite a v).expectToggle = s.expectToggle := rfl
@[simp] theorem State.takeHostWrite_framesTotal : (s.takeHostWrite a v).framesTotal = s.framesTotal := rfl
@[simp] theorem State.takeHostWrite_framesValid : (s.takeHostWrite a v).framesValid = s.framesValid := rfl
@[simp] theorem State.takeHostWrite_framesInvalid : (s.takeHostWrite a v).framesInvalid = s.framesInvalid := rfl
@[simp] theorem State.takeHostWrite_framesDuplicate : (s.takeHostWrite a v).framesDuplicate = s.framesDuplicate := rfl
@[simp] theorem State.takeHostWrite_retransmissions : (s.takeHostWrite a v).retransmissions = s.retransmissions := rfl
@[simp] theorem State.takeHostWrite_timeouts : (s.takeHostWrite a v).timeouts = s.timeouts := rfl
@[simp] theorem State.takeHostWrite_rs : (s.takeHostWrite a v).rs = s.rs := rfl
@[simp] theorem State.takeHostWrite_ctl : (s.takeHostWrite a v).ctl = s.ctl := rfl
@[simp] theorem State.takeHostWrite_raw : (s.takeHostWrite a v).raw = s.raw := rfl
@[simp] theorem State.takeHostWrite_rawLen : (s.takeHostWrite a v).rawLen = s.rawLen := rfl
@[simp] theorem State.takeHostWrite_ovf : (s.takeHostWrite a v).ovf = s.ovf := rfl
@[simp] theorem State.takeHostWrite_phase : (s.takeHostWrite a v).phase = s.phase := rfl
@[simp] theorem State.takeHostWrite_tries : (s.takeHostWrite a v).tries = s.tries := rfl
@[simp] theorem State.takeHostWrite_opLen : (s.takeHostWrite a v).opLen = s.opLen := rfl
@[simp] theorem State.takeHostWrite_rxLen : (s.takeHostWrite a v).rxLen = s.rxLen := rfl
@[simp] theorem State.takeHostWrite_armed : (s.takeHostWrite a v).armed = s.armed := rfl
@[simp] theorem State.takeHostWrite_remaining : (s.takeHostWrite a v).remaining = s.remaining := rfl
@[simp] theorem State.takeHostWrite_txq : (s.takeHostWrite a v).txq = s.txq := rfl
@[simp] theorem State.takeHostWrite_done : (s.takeHostWrite a v).done = s.done := rfl
@[simp] theorem State.takeHostWrite_status : (s.takeHostWrite a v).status = s.status := rfl
@[simp] theorem State.takeHostWrite_resultLen : (s.takeHostWrite a v).resultLen = s.resultLen := rfl
@[simp] theorem State.takeHostWrite_statsValid : (s.takeHostWrite a v).statsValid = s.statsValid := rfl
@[simp] theorem State.takeHostWrite_txbuf : (s.takeHostWrite a v).txbuf = s.txbuf.write a.toNat v := rfl
@[simp] theorem State.takeHostWrite_rxbuf : (s.takeHostWrite a v).rxbuf = s.rxbuf := rfl
@[simp] theorem State.takeHostWrite_chanRelease : (s.takeHostWrite a v).chanRelease = s.chanRelease := rfl
@[simp] theorem State.takeHostWrite_txOut : (s.takeHostWrite a v).txOut = s.txOut := rfl
@[simp] theorem State.takeHostWrite_chanAvail : (s.takeHostWrite a v).chanAvail = s.chanAvail := rfl
@[simp] theorem State.takeHostWrite_events : (s.takeHostWrite a v).events = s.events := rfl
@[simp] theorem State.takeHostWrite_source : (s.takeHostWrite a v).source = s.source := rfl
@[simp] theorem State.takeHostWrite_epoch : (s.takeHostWrite a v).epoch = s.epoch := rfl
@[simp] theorem State.takeHostWrite_steps : (s.takeHostWrite a v).steps = s.steps := rfl
@[simp] theorem State.takeHostWrite_rxbufByte : (s.takeHostWrite a v).rxbufByte = s.rxbufByte := rfl
@[simp] theorem State.takeHostWrite_rawByte : (s.takeHostWrite a v).rawByte = s.rawByte := rfl
@[simp] theorem State.takeHostWrite_rawBytes : (s.takeHostWrite a v).rawBytes = s.rawBytes := rfl
end

section
variable (s : State)
@[simp] theorem State.clearOutputs_params : (s.clearOutputs).params = s.params := rfl
@[simp] theorem State.clearOutputs_sess : (s.clearOutputs).sess = s.sess := rfl
@[simp] theorem State.clearOutputs_role : (s.clearOutputs).role = s.role := rfl
@[simp] theorem State.clearOutputs_retryLimit : (s.clearOutputs).retryLimit = s.retryLimit := rfl
@[simp] theorem State.clearOutputs_timeoutDuration : (s.clearOutputs).timeoutDuration = s.timeoutDuration := rfl
@[simp] theorem State.clearOutputs_sendToggle : (s.clearOutputs).sendToggle = s.sendToggle := rfl
@[simp] theorem State.clearOutputs_expectToggle : (s.clearOutputs).expectToggle = s.expectToggle := rfl
@[simp] theorem State.clearOutputs_framesTotal : (s.clearOutputs).framesTotal = s.framesTotal := rfl
@[simp] theorem State.clearOutputs_framesValid : (s.clearOutputs).framesValid = s.framesValid := rfl
@[simp] theorem State.clearOutputs_framesInvalid : (s.clearOutputs).framesInvalid = s.framesInvalid := rfl
@[simp] theorem State.clearOutputs_framesDuplicate : (s.clearOutputs).framesDuplicate = s.framesDuplicate := rfl
@[simp] theorem State.clearOutputs_retransmissions : (s.clearOutputs).retransmissions = s.retransmissions := rfl
@[simp] theorem State.clearOutputs_timeouts : (s.clearOutputs).timeouts = s.timeouts := rfl
@[simp] theorem State.clearOutputs_rs : (s.clearOutputs).rs = s.rs := rfl
@[simp] theorem State.clearOutputs_ctl : (s.clearOutputs).ctl = s.ctl := rfl
@[simp] theorem State.clearOutputs_raw : (s.clearOutputs).raw = s.raw := rfl
@[simp] theorem State.clearOutputs_rawLen : (s.clearOutputs).rawLen = s.rawLen := rfl
@[simp] theorem State.clearOutputs_ovf : (s.clearOutputs).ovf = s.ovf := rfl
@[simp] theorem State.clearOutputs_phase : (s.clearOutputs).phase = s.phase := rfl
@[simp] theorem State.clearOutputs_tries : (s.clearOutputs).tries = s.tries := rfl
@[simp] theorem State.clearOutputs_opLen : (s.clearOutputs).opLen = s.opLen := rfl
@[simp] theorem State.clearOutputs_rxLen : (s.clearOutputs).rxLen = s.rxLen := rfl
@[simp] theorem State.clearOutputs_armed : (s.clearOutputs).armed = s.armed := rfl
@[simp] theorem State.clearOutputs_remaining : (s.clearOutputs).remaining = s.remaining := rfl
@[simp] theorem State.clearOutputs_txq : (s.clearOutputs).txq = s.txq := rfl
@[simp] theorem State.clearOutputs_done : (s.clearOutputs).done = s.done := rfl
@[simp] theorem State.clearOutputs_status : (s.clearOutputs).status = s.status := rfl
@[simp] theorem State.clearOutputs_resultLen : (s.clearOutputs).resultLen = s.resultLen := rfl
@[simp] theorem State.clearOutputs_statsValid : (s.clearOutputs).statsValid = s.statsValid := rfl
@[simp] theorem State.clearOutputs_txbuf : (s.clearOutputs).txbuf = s.txbuf := rfl
@[simp] theorem State.clearOutputs_rxbuf : (s.clearOutputs).rxbuf = s.rxbuf := rfl
@[simp] theorem State.clearOutputs_chanRelease : (s.clearOutputs).chanRelease = false := rfl
@[simp] theorem State.clearOutputs_txOut : (s.clearOutputs).txOut = none := rfl
@[simp] theorem State.clearOutputs_chanAvail : (s.clearOutputs).chanAvail = s.chanAvail := rfl
@[simp] theorem State.clearOutputs_events : (s.clearOutputs).events = s.events := rfl
@[simp] theorem State.clearOutputs_source : (s.clearOutputs).source = s.source := rfl
@[simp] theorem State.clearOutputs_epoch : (s.clearOutputs).epoch = s.epoch := rfl
@[simp] theorem State.clearOutputs_steps : (s.clearOutputs).steps = s.steps := rfl
@[simp] theorem State.clearOutputs_txbufByte : (s.clearOutputs).txbufByte = s.txbufByte := rfl
@[simp] theorem State.clearOutputs_rxbufByte : (s.clearOutputs).rxbufByte = s.rxbufByte := rfl
@[simp] theorem State.clearOutputs_rawByte : (s.clearOutputs).rawByte = s.rawByte := rfl
@[simp] theorem State.clearOutputs_rawBytes : (s.clearOutputs).rawBytes = s.rawBytes := rfl
@[simp] theorem State.clearOutputs_payload : (s.clearOutputs).payload = s.payload := rfl
end

section
variable (s : State) (rest : List Event)
@[simp] theorem State.dropEvent_params : (s.dropEvent rest).params = s.params := rfl
@[simp] theorem State.dropEvent_sess : (s.dropEvent rest).sess = s.sess := rfl
@[simp] theorem State.dropEvent_role : (s.dropEvent rest).role = s.role := rfl
@[simp] theorem State.dropEvent_retryLimit : (s.dropEvent rest).retryLimit = s.retryLimit := rfl
@[simp] theorem State.dropEvent_timeoutDuration : (s.dropEvent rest).timeoutDuration = s.timeoutDuration := rfl
@[simp] theorem State.dropEvent_sendToggle : (s.dropEvent rest).sendToggle = s.sendToggle := rfl
@[simp] theorem State.dropEvent_expectToggle : (s.dropEvent rest).expectToggle = s.expectToggle := rfl
@[simp] theorem State.dropEvent_framesTotal : (s.dropEvent rest).framesTotal = s.framesTotal := rfl
@[simp] theorem State.dropEvent_framesValid : (s.dropEvent rest).framesValid = s.framesValid := rfl
@[simp] theorem State.dropEvent_framesInvalid : (s.dropEvent rest).framesInvalid = s.framesInvalid := rfl
@[simp] theorem State.dropEvent_framesDuplicate : (s.dropEvent rest).framesDuplicate = s.framesDuplicate := rfl
@[simp] theorem State.dropEvent_retransmissions : (s.dropEvent rest).retransmissions = s.retransmissions := rfl
@[simp] theorem State.dropEvent_timeouts : (s.dropEvent rest).timeouts = s.timeouts := rfl
@[simp] theorem State.dropEvent_rs : (s.dropEvent rest).rs = s.rs := rfl
@[simp] theorem State.dropEvent_ctl : (s.dropEvent rest).ctl = s.ctl := rfl
@[simp] theorem State.dropEvent_raw : (s.dropEvent rest).raw = s.raw := rfl
@[simp] theorem State.dropEvent_rawLen : (s.dropEvent rest).rawLen = s.rawLen := rfl
@[simp] theorem State.dropEvent_ovf : (s.dropEvent rest).ovf = s.ovf := rfl
@[simp] theorem State.dropEvent_phase : (s.dropEvent rest).phase = s.phase := rfl
@[simp] theorem State.dropEvent_tries : (s.dropEvent rest).tries = s.tries := rfl
@[simp] theorem State.dropEvent_opLen : (s.dropEvent rest).opLen = s.opLen := rfl
@[simp] theorem State.dropEvent_rxLen : (s.dropEvent rest).rxLen = s.rxLen := rfl
@[simp] theorem State.dropEvent_armed : (s.dropEvent rest).armed = s.armed := rfl
@[simp] theorem State.dropEvent_remaining : (s.dropEvent rest).remaining = s.remaining := rfl
@[simp] theorem State.dropEvent_txq : (s.dropEvent rest).txq = s.txq := rfl
@[simp] theorem State.dropEvent_done : (s.dropEvent rest).done = s.done := rfl
@[simp] theorem State.dropEvent_status : (s.dropEvent rest).status = s.status := rfl
@[simp] theorem State.dropEvent_resultLen : (s.dropEvent rest).resultLen = s.resultLen := rfl
@[simp] theorem State.dropEvent_statsValid : (s.dropEvent rest).statsValid = s.statsValid := rfl
@[simp] theorem State.dropEvent_txbuf : (s.dropEvent rest).txbuf = s.txbuf := rfl
@[simp] theorem State.dropEvent_rxbuf : (s.dropEvent rest).rxbuf = s.rxbuf := rfl
@[simp] theorem State.dropEvent_chanRelease : (s.dropEvent rest).chanRelease = false := rfl
@[simp] theorem State.dropEvent_txOut : (s.dropEvent rest).txOut = none := rfl
@[simp] theorem State.dropEvent_chanAvail : (s.dropEvent rest).chanAvail = s.chanAvail := rfl
@[simp] theorem State.dropEvent_events : (s.dropEvent rest).events = rest := rfl
@[simp] theorem State.dropEvent_source : (s.dropEvent rest).source = s.source := rfl
@[simp] theorem State.dropEvent_epoch : (s.dropEvent rest).epoch = s.epoch := rfl
@[simp] theorem State.dropEvent_steps : (s.dropEvent rest).steps = s.steps + 1 := rfl
@[simp] theorem State.dropEvent_txbufByte : (s.dropEvent rest).txbufByte = s.txbufByte := rfl
@[simp] theorem State.dropEvent_rxbufByte : (s.dropEvent rest).rxbufByte = s.rxbufByte := rfl
@[simp] theorem State.dropEvent_rawByte : (s.dropEvent rest).rawByte = s.rawByte := rfl
@[simp] theorem State.dropEvent_rawBytes : (s.dropEvent rest).rawBytes = s.rawBytes := rfl
@[simp] theorem State.dropEvent_payload : (s.dropEvent rest).payload = s.payload := rfl
end

section
variable (s : State) (a : Bool)
@[simp] theorem State.sampleAvail_params : (s.sampleAvail a).params = s.params := rfl
@[simp] theorem State.sampleAvail_sess : (s.sampleAvail a).sess = s.sess := rfl
@[simp] theorem State.sampleAvail_role : (s.sampleAvail a).role = s.role := rfl
@[simp] theorem State.sampleAvail_retryLimit : (s.sampleAvail a).retryLimit = s.retryLimit := rfl
@[simp] theorem State.sampleAvail_timeoutDuration : (s.sampleAvail a).timeoutDuration = s.timeoutDuration := rfl
@[simp] theorem State.sampleAvail_sendToggle : (s.sampleAvail a).sendToggle = s.sendToggle := rfl
@[simp] theorem State.sampleAvail_expectToggle : (s.sampleAvail a).expectToggle = s.expectToggle := rfl
@[simp] theorem State.sampleAvail_framesTotal : (s.sampleAvail a).framesTotal = s.framesTotal := rfl
@[simp] theorem State.sampleAvail_framesValid : (s.sampleAvail a).framesValid = s.framesValid := rfl
@[simp] theorem State.sampleAvail_framesInvalid : (s.sampleAvail a).framesInvalid = s.framesInvalid := rfl
@[simp] theorem State.sampleAvail_framesDuplicate : (s.sampleAvail a).framesDuplicate = s.framesDuplicate := rfl
@[simp] theorem State.sampleAvail_retransmissions : (s.sampleAvail a).retransmissions = s.retransmissions := rfl
@[simp] theorem State.sampleAvail_timeouts : (s.sampleAvail a).timeouts = s.timeouts := rfl
@[simp] theorem State.sampleAvail_rs : (s.sampleAvail a).rs = s.rs := rfl
@[simp] theorem State.sampleAvail_ctl : (s.sampleAvail a).ctl = s.ctl := rfl
@[simp] theorem State.sampleAvail_raw : (s.sampleAvail a).raw = s.raw := rfl
@[simp] theorem State.sampleAvail_rawLen : (s.sampleAvail a).rawLen = s.rawLen := rfl
@[simp] theorem State.sampleAvail_ovf : (s.sampleAvail a).ovf = s.ovf := rfl
@[simp] theorem State.sampleAvail_phase : (s.sampleAvail a).phase = s.phase := rfl
@[simp] theorem State.sampleAvail_tries : (s.sampleAvail a).tries = s.tries := rfl
@[simp] theorem State.sampleAvail_opLen : (s.sampleAvail a).opLen = s.opLen := rfl
@[simp] theorem State.sampleAvail_rxLen : (s.sampleAvail a).rxLen = s.rxLen := rfl
@[simp] theorem State.sampleAvail_armed : (s.sampleAvail a).armed = s.armed := rfl
@[simp] theorem State.sampleAvail_remaining : (s.sampleAvail a).remaining = s.remaining := rfl
@[simp] theorem State.sampleAvail_txq : (s.sampleAvail a).txq = s.txq := rfl
@[simp] theorem State.sampleAvail_done : (s.sampleAvail a).done = s.done := rfl
@[simp] theorem State.sampleAvail_status : (s.sampleAvail a).status = s.status := rfl
@[simp] theorem State.sampleAvail_resultLen : (s.sampleAvail a).resultLen = s.resultLen := rfl
@[simp] theorem State.sampleAvail_statsValid : (s.sampleAvail a).statsValid = s.statsValid := rfl
@[simp] theorem State.sampleAvail_txbuf : (s.sampleAvail a).txbuf = s.txbuf := rfl
@[simp] theorem State.sampleAvail_rxbuf : (s.sampleAvail a).rxbuf = s.rxbuf := rfl
@[simp] theorem State.sampleAvail_chanRelease : (s.sampleAvail a).chanRelease = s.chanRelease := rfl
@[simp] theorem State.sampleAvail_txOut : (s.sampleAvail a).txOut = s.txOut := rfl
@[simp] theorem State.sampleAvail_chanAvail : (s.sampleAvail a).chanAvail = a := rfl
@[simp] theorem State.sampleAvail_events : (s.sampleAvail a).events = s.events := rfl
@[simp] theorem State.sampleAvail_source : (s.sampleAvail a).source = s.source := rfl
@[simp] theorem State.sampleAvail_epoch : (s.sampleAvail a).epoch = s.epoch := rfl
@[simp] theorem State.sampleAvail_steps : (s.sampleAvail a).steps = s.steps := rfl
@[simp] theorem State.sampleAvail_txbufByte : (s.sampleAvail a).txbufByte = s.txbufByte := rfl
@[simp] theorem State.sampleAvail_rxbufByte : (s.sampleAvail a).rxbufByte = s.rxbufByte := rfl
@[simp] theorem State.sampleAvail_rawByte : (s.sampleAvail a).rawByte = s.rawByte := rfl
@[simp] theorem State.sampleAvail_rawBytes : (s.sampleAvail a).rawBytes = s.rawBytes := rfl
@[simp] theorem State.sampleAvail_payload : (s.sampleAvail a).payload = s.payload := rfl
end

section
variable (s : State) (b : Byte)
@[simp] theorem State.appendRaw_params : (s.appendRaw b).params = s.params := by
  unfold State.appendRaw; split <;> rfl
@[simp] theorem State.appendRaw_sess : (s.appendRaw b).sess = s.sess := by
  unfold State.appendRaw; split <;> rfl
@[simp] theorem State.appendRaw_role : (s.appendRaw b).role = s.role := by
  unfold State.appendRaw; split <;> rfl
@[simp] theorem State.appendRaw_retryLimit : (s.appendRaw b).retryLimit = s.retryLimit := by
  unfold State.appendRaw; split <;> rfl
@[simp] theorem State.appendRaw_timeoutDuration : (s.appendRaw b).timeoutDuration = s.timeoutDuration := by
  unfold State.appendRaw; split <;> rfl
@[simp] theorem State.appendRaw_sendToggle : (s.appendRaw b).sendToggle = s.sendToggle := by
  unfold State.appendRaw; split <;> rfl
@[simp] theorem State.appendRaw_expectToggle : (s.appendRaw b).expectToggle = s.expectToggle := by
  unfold State.appendRaw; split <;> rfl
@[simp] theorem State.appendRaw_framesTotal : (s.appendRaw b).framesTotal = s.framesTotal := by
  unfold State.appendRaw; split <;> rfl
@[simp] theorem State.appendRaw_framesValid : (s.appendRaw b).framesValid = s.framesValid := by
  unfold State.appendRaw; split <;> rfl
@[simp] theorem State.appendRaw_framesInvalid : (s.appendRaw b).framesInvalid = s.framesInvalid := by
  unfold State.appendRaw; split <;> rfl
@[simp] theorem State.appendRaw_framesDuplicate : (s.appendRaw b).framesDuplicate = s.framesDuplicate := by
  unfold State.appendRaw; split <;> rfl
@[simp] theorem State.appendRaw_retransmissions : (s.appendRaw b).retransmissions = s.retransmissions := by
  unfold State.appendRaw; split <;> rfl
@[simp] theorem State.appendRaw_timeouts : (s.appendRaw b).timeouts = s.timeouts := by
  unfold State.appendRaw; split <;> rfl
@[simp] theorem State.appendRaw_rs : (s.appendRaw b).rs = s.rs := by
  unfold State.appendRaw; split <;> rfl
@[simp] theorem State.appendRaw_ctl : (s.appendRaw b).ctl = s.ctl := by
  unfold State.appendRaw; split <;> rfl
@[simp] theorem State.appendRaw_phase : (s.appendRaw b).phase = s.phase := by
  unfold State.appendRaw; split <;> rfl
@[simp] theorem State.appendRaw_tries : (s.appendRaw b).tries = s.tries := by
  unfold State.appendRaw; split <;> rfl
@[simp] theorem State.appendRaw_opLen : (s.appendRaw b).opLen = s.opLen := by
  unfold State.appendRaw; split <;> rfl
@[simp] theorem State.appendRaw_rxLen : (s.appendRaw b).rxLen = s.rxLen := by
  unfold State.appendRaw; split <;> rfl
@[simp] theorem State.appendRaw_armed : (s.appendRaw b).armed = s.armed := by
  unfold State.appendRaw; split <;> rfl
@[simp] theorem State.appendRaw_remaining : (s.appendRaw b).remaining = s.remaining := by
  unfold State.appendRaw; split <;> rfl
@[simp] theorem State.appendRaw_txq : (s.appendRaw b).txq = s.txq := by
  unfold State.appendRaw; split <;> rfl
@[simp] theorem State.appendRaw_done : (s.appendRaw b).done = s.done := by
  unfold State.appendRaw; split <;> rfl
@[simp] theorem State.appendRaw_status : (s.appendRaw b).status = s.status := by
  unfold State.appendRaw; split <;> rfl
@[simp] theorem State.appendRaw_resultLen : (s.appendRaw b).resultLen = s.resultLen := by
  unfold State.appendRaw; split <;> rfl
@[simp] theorem State.appendRaw_statsValid : (s.appendRaw b).statsValid = s.statsValid := by
  unfold State.appendRaw; split <;> rfl
@[simp] theorem State.appendRaw_txbuf : (s.appendRaw b).txbuf = s.txbuf := by
  unfold State.appendRaw; split <;> rfl
@[simp] theorem State.appendRaw_rxbuf : (s.appendRaw b).rxbuf = s.rxbuf := by
  unfold State.appendRaw; split <;> rfl
@[simp] theorem State.appendRaw_chanRelease : (s.appendRaw b).chanRelease = s.chanRelease := by
  unfold State.appendRaw; split <;> rfl
@[simp] theorem State.appendRaw_txOut : (s.appendRaw b).txOut = s.txOut := by
  unfold State.appendRaw; split <;> rfl
@[simp] theorem State.appendRaw_chanAvail : (s.appendRaw b).chanAvail = s.chanAvail := by
  unfold State.appendRaw; split <;> rfl
@[simp] theorem State.appendRaw_events : (s.appendRaw b).events = s.events := by
  unfold State.appendRaw; split <;> rfl
@[simp] theorem State.appendRaw_source : (s.appendRaw b).source = s.source := by
  unfold State.appendRaw; split <;> rfl
@[simp] theorem State.appendRaw_epoch : (s.appendRaw b).epoch = s.epoch := by
  unfold State.appendRaw; split <;> rfl
@[simp] theorem State.appendRaw_steps : (s.appendRaw b).steps = s.steps := by
  unfold State.appendRaw; split <;> rfl
@[simp] theorem State.appendRaw_txbufByte : (s.appendRaw b).txbufByte = s.txbufByte := by
  unfold State.appendRaw; split <;> rfl
@[simp] theorem State.appendRaw_rxbufByte : (s.appendRaw b).rxbufByte = s.rxbufByte := by
  unfold State.appendRaw; split <;> rfl
@[simp] theorem State.appendRaw_payload : (s.appendRaw b).payload = s.payload := by
  unfold State.appendRaw; split <;> rfl
end

section
variable (s : State) (p : Phase)
@[simp] theorem State.startWait_params : (s.startWait p).params = s.params := by
  unfold State.startWait; dsimp only; split <;> rfl
@[simp] theorem State.startWait_sess : (s.startWait p).sess = s.sess := by
  unfold State.startWait; dsimp only; split <;> rfl
@[simp] theorem State.startWait_role : (s.startWait p).role = s.role := by
  unfold State.startWait; dsimp only; split <;> rfl
@[simp] theorem State.startWait_retryLimit : (s.startWait p).retryLimit = s.retryLimit := by
  unfold State.startWait; dsimp only; split <;> rfl
@[simp] theorem State.startWait_timeoutDuration : (s.startWait p).timeoutDuration = s.timeoutDuration := by
  unfold State.startWait; dsimp only; split <;> rfl
@[simp] theorem State.startWait_sendToggle : (s.startWait p).sendToggle = s.sendToggle := by
  unfold State.startWait; dsimp only; split <;> rfl
@[simp] theorem State.startWait_expectToggle : (s.startWait p).expectToggle = s.expectToggle := by
  unfold State.startWait; dsimp only; split <;> rfl
@[simp] theorem State.startWait_framesTotal : (s.startWait p).framesTotal = s.framesTotal := by
  unfold State.startWait; dsimp only; split <;> rfl
@[simp] theorem State.startWait_framesValid : (s.startWait p).framesValid = s.framesValid := by
  unfold State.startWait; dsimp only; split <;> rfl
@[simp] theorem State.startWait_framesInvalid : (s.startWait p).framesInvalid = s.framesInvalid := by
  unfold State.startWait; dsimp only; split <;> rfl
@[simp] theorem State.startWait_framesDuplicate : (s.startWait p).framesDuplicate = s.framesDuplicate := by
  unfold State.startWait; dsimp only; split <;> rfl
@[simp] theorem State.startWait_retransmissions : (s.startWait p).retransmissions = s.retransmissions := by
  unfold State.startWait; dsimp only; split <;> rfl
@[simp] theorem State.startWait_timeouts : (s.startWait p).timeouts = s.timeouts := by
  unfold State.startWait; dsimp only; split <;> rfl
@[simp] theorem State.startWait_ctl : (s.startWait p).ctl = s.ctl := by
  unfold State.startWait; dsimp only; split <;> rfl
@[simp] theorem State.startWait_raw : (s.startWait p).raw = s.raw := by
  unfold State.startWait; dsimp only; split <;> rfl
@[simp] theorem State.startWait_tries : (s.startWait p).tries = s.tries := by
  unfold State.startWait; dsimp only; split <;> rfl
@[simp] theorem State.startWait_opLen : (s.startWait p).opLen = s.opLen := by
  unfold State.startWait; dsimp only; split <;> rfl
@[simp] theorem State.startWait_rxLen : (s.startWait p).rxLen = s.rxLen := by
  unfold State.startWait; dsimp only; split <;> rfl
@[simp] theorem State.startWait_txq : (s.startWait p).txq = s.txq := by
  unfold State.startWait; dsimp only; split <;> rfl
@[simp] theorem State.startWait_done : (s.startWait p).done = s.done := by
  unfold State.startWait; dsimp only; split <;> rfl
@[simp] theorem State.startWait_status : (s.startWait p).status = s.status := by
  unfold State.startWait; dsimp only; split <;> rfl
@[simp] theorem State.startWait_resultLen : (s.startWait p).resultLen = s.resultLen := by
  unfold State.startWait; dsimp only; split <;> rfl
@[simp] theorem State.startWait_statsValid : (s.startWait p).statsValid = s.statsValid := by
  unfold State.startWait; dsimp only; split <;> rfl
@[simp] theorem State.startWait_txbuf : (s.startWait p).txbuf = s.txbuf := by
  unfold State.startWait; dsimp only; split <;> rfl
@[simp] theorem State.startWait_rxbuf : (s.startWait p).rxbuf = s.rxbuf := by
  unfold State.startWait; dsimp only; split <;> rfl
@[simp] theorem State.startWait_chanRelease : (s.startWait p).chanRelease = s.chanRelease := by
  unfold State.startWait; dsimp only; split <;> rfl
@[simp] theorem State.startWait_txOut : (s.startWait p).txOut = s.txOut := by
  unfold State.startWait; dsimp only; split <;> rfl
@[simp] theorem State.startWait_chanAvail : (s.startWait p).chanAvail = s.chanAvail := by
  unfold State.startWait; dsimp only; split <;> rfl
@[simp] theorem State.startWait_events : (s.startWait p).events = s.events := by
  unfold State.startWait; dsimp only; split <;> rfl
@[simp] theorem State.startWait_source : (s.startWait p).source = s.source := by
  unfold State.startWait; dsimp only; split <;> rfl
@[simp] theorem State.startWait_epoch : (s.startWait p).epoch = s.epoch := by
  unfold State.startWait; dsimp only; split <;> rfl
@[simp] theorem State.startWait_steps : (s.startWait p).steps = s.steps := by
  unfold State.startWait; dsimp only; split <;> rfl
@[simp] theorem State.startWait_txbufByte : (s.startWait p).txbufByte = s.txbufByte := by
  unfold State.startWait; dsimp only; split <;> rfl
@[simp] theorem State.startWait_rxbufByte : (s.startWait p).rxbufByte = s.rxbufByte := by
  unfold State.startWait; dsimp only; split <;> rfl
@[simp] theorem State.startWait_rawByte : (s.startWait p).rawByte = s.rawByte := by
  unfold State.startWait; dsimp only; split <;> rfl
@[simp] theorem State.startWait_payload : (s.startWait p).payload = s.payload := by
  unfold State.startWait; dsimp only; split <;> rfl
end

section
variable (s : State) (op : TimedOp)
@[simp] theorem State.exhausted_params : (s.exhausted op).params = s.params := by
  cases op <;> rfl
@[simp] theorem State.exhausted_role : (s.exhausted op).role = s.role := by
  cases op <;> rfl
@[simp] theorem State.exhausted_retryLimit : (s.exhausted op).retryLimit = s.retryLimit := by
  cases op <;> rfl
@[simp] theorem State.exhausted_timeoutDuration : (s.exhausted op).timeoutDuration = s.timeoutDuration := by
  cases op <;> rfl
@[simp] theorem State.exhausted_sendToggle : (s.exhausted op).sendToggle = s.sendToggle := by
  cases op <;> rfl
@[simp] theorem State.exhausted_expectToggle : (s.exhausted op).expectToggle = s.expectToggle := by
  cases op <;> rfl
@[simp] theorem State.exhausted_framesTotal : (s.exhausted op).framesTotal = s.framesTotal := by
  cases op <;> rfl
@[simp] theorem State.exhausted_framesValid : (s.exhausted op).framesValid = s.framesValid := by
  cases op <;> rfl
@[simp] theorem State.exhausted_framesInvalid : (s.exhausted op).framesInvalid = s.framesInvalid := by
  cases op <;> rfl
@[simp] theorem State.exhausted_framesDuplicate : (s.exhausted op).framesDuplicate = s.framesDuplicate := by
  cases op <;> rfl
@[simp] theorem State.exhausted_retransmissions : (s.exhausted op).retransmissions = s.retransmissions := by
  cases op <;> rfl
@[simp] theorem State.exhausted_timeouts : (s.exhausted op).timeouts = s.timeouts := by
  cases op <;> rfl
@[simp] theorem State.exhausted_rs : (s.exhausted op).rs = s.rs := by
  cases op <;> rfl
@[simp] theorem State.exhausted_ctl : (s.exhausted op).ctl = s.ctl := by
  cases op <;> rfl
@[simp] theorem State.exhausted_raw : (s.exhausted op).raw = s.raw := by
  cases op <;> rfl
@[simp] theorem State.exhausted_rawLen : (s.exhausted op).rawLen = s.rawLen := by
  cases op <;> rfl
@[simp] theorem State.exhausted_ovf : (s.exhausted op).ovf = s.ovf := by
  cases op <;> rfl
@[simp] theorem State.exhausted_tries : (s.exhausted op).tries = s.tries := by
  cases op <;> rfl
@[simp] theorem State.exhausted_opLen : (s.exhausted op).opLen = s.opLen := by
  cases op <;> rfl
@[simp] theorem State.exhausted_rxLen : (s.exhausted op).rxLen = s.rxLen := by
  cases op <;> rfl
@[simp] theorem State.exhausted_remaining : (s.exhausted op).remaining = s.remaining := by
  cases op <;> rfl
@[simp] theorem State.exhausted_txq : (s.exhausted op).txq = s.txq := by
  cases op <;> rfl
@[simp] theorem State.exhausted_statsValid : (s.exhausted op).statsValid = s.statsValid := by
  cases op <;> rfl
@[simp] theorem State.exhausted_txbuf : (s.exhausted op).txbuf = s.txbuf := by
  cases op <;> rfl
@[simp] theorem State.exhausted_rxbuf : (s.exhausted op).rxbuf = s.rxbuf := by
  cases op <;> rfl
@[simp] theorem State.exhausted_txOut : (s.exhausted op).txOut = s.txOut := by
  cases op <;> rfl
@[simp] theorem State.exhausted_chanAvail : (s.exhausted op).chanAvail = s.chanAvail := by
  cases op <;> rfl
@[simp] theorem State.exhausted_events : (s.exhausted op).events = s.events := by
  cases op <;> rfl
@[simp] theorem State.exhausted_source : (s.exhausted op).source = s.source := by
  cases op <;> rfl
@[simp] theorem State.exhausted_epoch : (s.exhausted op).epoch = s.epoch := by
  cases op <;> rfl
@[simp] theorem State.exhausted_steps : (s.exhausted op).steps = s.steps := by
  cases op <;> rfl
@[simp] theorem State.exhausted_txbufByte : (s.exhausted op).txbufByte = s.txbufByte := by
  cases op <;> rfl
@[simp] theorem State.exhausted_rxbufByte : (s.exhausted op).rxbufByte = s.rxbufByte := by
  cases op <;> rfl
@[simp] theorem State.exhausted_rawByte : (s.exhausted op).rawByte = s.rawByte := by
  cases op <;> rfl
@[simp] theorem State.exhausted_rawBytes : (s.exhausted op).rawBytes = s.rawBytes := by
  cases op <;> rfl
@[simp] theorem State.exhausted_payload : (s.exhausted op).payload = s.payload := by
  cases op <;> rfl
end

section
variable (s : State) (op : TimedOp)
@[simp] theorem State.attempt_params : (s.attempt op).params = s.params := by
  unfold State.attempt; split <;> (cases op <;> rfl)
@[simp] theorem State.attempt_role : (s.attempt op).role = s.role := by
  unfold State.attempt; split <;> (cases op <;> rfl)
@[simp] theorem State.attempt_retryLimit : (s.attempt op).retryLimit = s.retryLimit := by
  unfold State.attempt; split <;> (cases op <;> rfl)
@[simp] theorem State.attempt_timeoutDuration : (s.attempt op).timeoutDuration = s.timeoutDuration := by
  unfold State.attempt; split <;> (cases op <;> rfl)
@[simp] theorem State.attempt_sendToggle : (s.attempt op).sendToggle = s.sendToggle := by
  unfold State.attempt; split <;> (cases op <;> rfl)
@[simp] theorem State.attempt_expectToggle : (s.attempt op).expectToggle = s.expectToggle := by
  unfold State.attempt; split <;> (cases op <;> rfl)
@[simp] theorem State.attempt_framesTotal : (s.attempt op).framesTotal = s.framesTotal := by
  unfold State.attempt; split <;> (cases op <;> rfl)
@[simp] theorem State.attempt_framesValid : (s.attempt op).framesValid = s.framesValid := by
  unfold State.attempt; split <;> (cases op <;> rfl)
@[simp] theorem State.attempt_framesInvalid : (s.attempt op).framesInvalid = s.framesInvalid := by
  unfold State.attempt; split <;> (cases op <;> rfl)
@[simp] theorem State.attempt_framesDuplicate : (s.attempt op).framesDuplicate = s.framesDuplicate := by
  unfold State.attempt; split <;> (cases op <;> rfl)
@[simp] theorem State.attempt_retransmissions : (s.attempt op).retransmissions = s.retransmissions := by
  unfold State.attempt; split <;> (cases op <;> rfl)
@[simp] theorem State.attempt_timeouts : (s.attempt op).timeouts = s.timeouts := by
  unfold State.attempt; split <;> (cases op <;> rfl)
@[simp] theorem State.attempt_rs : (s.attempt op).rs = s.rs := by
  unfold State.attempt; split <;> (cases op <;> rfl)
@[simp] theorem State.attempt_ctl : (s.attempt op).ctl = s.ctl := by
  unfold State.attempt; split <;> (cases op <;> rfl)
@[simp] theorem State.attempt_raw : (s.attempt op).raw = s.raw := by
  unfold State.attempt; split <;> (cases op <;> rfl)
@[simp] theorem State.attempt_rawLen : (s.attempt op).rawLen = s.rawLen := by
  unfold State.attempt; split <;> (cases op <;> rfl)
@[simp] theorem State.attempt_ovf : (s.attempt op).ovf = s.ovf := by
  unfold State.attempt; split <;> (cases op <;> rfl)
@[simp] theorem State.attempt_opLen : (s.attempt op).opLen = s.opLen := by
  unfold State.attempt; split <;> (cases op <;> rfl)
@[simp] theorem State.attempt_rxLen : (s.attempt op).rxLen = s.rxLen := by
  unfold State.attempt; split <;> (cases op <;> rfl)
@[simp] theorem State.attempt_remaining : (s.attempt op).remaining = s.remaining := by
  unfold State.attempt; split <;> (cases op <;> rfl)
@[simp] theorem State.attempt_statsValid : (s.attempt op).statsValid = s.statsValid := by
  unfold State.attempt; split <;> (cases op <;> rfl)
@[simp] theorem State.attempt_txbuf : (s.attempt op).txbuf = s.txbuf := by
  unfold State.attempt; split <;> (cases op <;> rfl)
@[simp] theorem State.attempt_rxbuf : (s.attempt op).rxbuf = s.rxbuf := by
  unfold State.attempt; split <;> (cases op <;> rfl)
@[simp] theorem State.attempt_txOut : (s.attempt op).txOut = s.txOut := by
  unfold State.attempt; split <;> (cases op <;> rfl)
@[simp] theorem State.attempt_chanAvail : (s.attempt op).chanAvail = s.chanAvail := by
  unfold State.attempt; split <;> (cases op <;> rfl)
@[simp] theorem State.attempt_events : (s.attempt op).events = s.events := by
  unfold State.attempt; split <;> (cases op <;> rfl)
@[simp] theorem State.attempt_source : (s.attempt op).source = s.source := by
  unfold State.attempt; split <;> (cases op <;> rfl)
@[simp] theorem State.attempt_epoch : (s.attempt op).epoch = s.epoch := by
  unfold State.attempt; split <;> (cases op <;> rfl)
@[simp] theorem State.attempt_steps : (s.attempt op).steps = s.steps := by
  unfold State.attempt; split <;> (cases op <;> rfl)
@[simp] theorem State.attempt_txbufByte : (s.attempt op).txbufByte = s.txbufByte := by
  unfold State.attempt; split <;> (cases op <;> rfl)
@[simp] theorem State.attempt_rxbufByte : (s.attempt op).rxbufByte = s.rxbufByte := by
  unfold State.attempt; split <;> (cases op <;> rfl)
@[simp] theorem State.attempt_rawByte : (s.attempt op).rawByte = s.rawByte := by
  unfold State.attempt; split <;> (cases op <;> rfl)
@[simp] theorem State.attempt_rawBytes : (s.attempt op).rawBytes = s.rawBytes := by
  unfold State.attempt; split <;> (cases op <;> rfl)
@[simp] theorem State.attempt_payload : (s.attempt op).payload = s.payload := by
  unfold State.attempt; split <;> (cases op <;> rfl)
end

section
variable (s : State) (p : Phase)
@[simp] theorem State.startWait_phase : (s.startWait p).phase = p := by
  unfold State.startWait; dsimp only; split <;> rfl
@[simp] theorem State.startWait_rs : (s.startWait p).rs = .start := by
  unfold State.startWait; dsimp only; split <;> rfl
@[simp] theorem State.startWait_rawLen : (s.startWait p).rawLen = 0 := by
  unfold State.startWait; dsimp only; split <;> rfl
@[simp] theorem State.startWait_ovf : (s.startWait p).ovf = false := by
  unfold State.startWait; dsimp only; split <;> rfl
@[simp] theorem State.startWait_armed : (s.startWait p).armed = (p.isTimed || s.armed) := by
  unfold State.startWait; dsimp only; split <;> simp_all
@[simp] theorem State.startWait_remaining :
    (s.startWait p).remaining = if p.isTimed then s.timeoutDuration else s.remaining := by
  unfold State.startWait; dsimp only; split <;> simp_all
end

end Sys2Proof.Machine
end

