-- ==== Sys2Proof/Laws/Ops.lean ====
section
/-! SUPPORT. What each shared operation can do, said once: the attempt loop, the timer expiry, the collection buffer, and that every memory
operation keeps the canonical form. -/

namespace Sys2Proof.Machine

/-! ### The attempt loop -/

theorem attempt_cases (s : State) (op : TimedOp) :
    (s.tries < s.retryLimit ∧ s.attempt op = { s with tries := s.tries + 1 }.retransmit op) ∨
      (s.retryLimit ≤ s.tries ∧ s.attempt op = s.exhausted op) := by
  unfold State.attempt
  split
  · next h => exact .inl ⟨h, rfl⟩
  · next h => exact .inr ⟨BitVec.not_lt.1 h, rfl⟩

theorem exhausted_phase (s : State) (op : TimedOp) :
    (s.exhausted op).phase = .idle ∧ (s.exhausted op).armed = false ∧ (s.exhausted op).done = true ∧
      (s.exhausted op).resultLen = 0 := by
  cases op <;> exact ⟨rfl, rfl, rfl, rfl⟩

/-- The attempt loop of SEND never touches the session (R255). -/
@[simp] theorem attempt_sendOp_sess (s : State) : (s.attempt .sendOp).sess = s.sess := by
  rcases attempt_cases s .sendOp with ⟨-, h⟩ | ⟨-, h⟩ <;> rw [h] <;> rfl

@[simp] theorem attempt_sendOp_chanRelease (s : State) : (s.attempt .sendOp).chanRelease = s.chanRelease := by
  rcases attempt_cases s .sendOp with ⟨-, h⟩ | ⟨-, h⟩ <;> rw [h] <;> rfl

/-- An expiry happens in a timed wait only, and goes through `attempt` of that wait's operation. -/
theorem expire_next {s t : State} (h : s.expire = .next t) :
    ∃ op, s.phase.timedOp = some op ∧ t = s.disarm.countTimeout.countRetransmission.attempt op := by
  unfold State.expire at h
  split at h
  · next op hop => exact ⟨op, hop, by simpa using h.symm⟩
  · cases h

theorem isTimed_iff_timedOp (p : Phase) : p.isTimed = true ↔ ∃ op, p.timedOp = some op := by
  cases p <;> simp [Phase.isTimed, Phase.timedOp]

/-! ### Kinds of phases -/

theorem Phase.not_tx_of_wait {p : Phase} (h : p.isWait = true) : p.isTx = false := by
  cases p <;> first | rfl | cases h

theorem Phase.wait_of_timed {p : Phase} (h : p.isTimed = true) : p.isWait = true := by
  cases p <;> first | rfl | cases h

theorem Phase.accept_nil {p : Phase} (h : p.isWait = false) : p.accept = [] := by
  cases p <;> first | rfl | cases h

/-! ### The collection buffer -/

theorem appendRaw_cases (s : State) (b : Byte) :
    (s.rawLen.toNat < s.params.rawCap ∧
        s.appendRaw b = { s with raw := s.raw.write s.rawLen.toNat b, rawLen := s.rawLen + 1 }) ∨
      (s.params.rawCap ≤ s.rawLen.toNat ∧ s.appendRaw b = { s with ovf := true }) := by
  unfold State.appendRaw
  split
  · next h => exact .inl ⟨h, rfl⟩
  · next h => exact .inr ⟨Nat.not_lt.1 h, rfl⟩

@[simp] theorem length_rawBytes (s : State) : s.rawBytes.length = s.rawLen.toNat := by simp [State.rawBytes]

theorem rawLen_succ {s : State} (hp : s.params.maxPayload ≤ 65535) (h : s.rawLen.toNat < s.params.rawCap) :
    (s.rawLen + 1).toNat = s.rawLen.toNat + 1 := by
  unfold Params.rawCap at h
  rw [BitVec.toNat_add]; simp; omega

theorem rawBytes_appendRaw (s : State) (b : Byte) (hp : s.params.maxPayload ≤ 65535)
    (h : s.rawLen.toNat < s.params.rawCap) : (s.appendRaw b).rawBytes = s.rawBytes ++ [b] := by
  rcases appendRaw_cases s b with ⟨-, he⟩ | ⟨h', -⟩
  · rw [he]
    simp only [State.rawBytes, rawLen_succ hp h, List.range_succ, List.map_append, List.map_cons, List.map_nil]
    congr 1
    · apply List.map_congr_left
      intro a ha
      have ha := List.mem_range.1 ha
      simp only [State.rawByte]
      rw [Memory.read?_write_ne _ _ (by omega)]
    · simp [State.rawByte]
  · omega

/-! ### Canonical form (Memory.wf) -/

@[simp] theorem Memory.wf_nil : Memory.wf [] := List.Pairwise.nil

theorem resetWith_memory_wf (p : Params) :
    (State.resetWith p).txbuf.wf ∧ (State.resetWith p).rxbuf.wf ∧ (State.resetWith p).raw.wf :=
  ⟨Memory.wf_nil, Memory.wf_nil, Memory.wf_nil⟩

theorem reset_memory_wf : State.reset.txbuf.wf ∧ State.reset.rxbuf.wf ∧ State.reset.raw.wf := resetWith_memory_wf _

theorem appendRaw_keeps_wf (s : State) (b : Byte) (h : s.raw.wf) : (s.appendRaw b).raw.wf := by
  rcases appendRaw_cases s b with ⟨-, he⟩ | ⟨-, he⟩ <;> rw [he]
  · exact Memory.write_keeps_wf _ _ h
  · exact h

theorem storePayload_keeps_wf (s : State) (payload : List Byte) (h : s.rxbuf.wf) : (s.storePayload payload).rxbuf.wf :=
  Memory.writeBytes_keeps_wf 0 payload h

theorem takeHostWrite_keeps_wf (s : State) (a : BitVec 16) (v : Byte) (h : s.txbuf.wf) : (s.takeHostWrite a v).txbuf.wf :=
  Memory.write_keeps_wf _ _ h

end Sys2Proof.Machine
end

