-- ==== Sys2Proof/Laws/Reader.lean ====
section
/-! SUPPORT. What a received byte can do to the reader, and what a completed frame can do in the wait that accepts it. -/

namespace Sys2Proof.Machine

/-- Everything a byte that completes no frame can do: nothing outside a wait; in one, the reader's own registers by the table. -/
theorem takeByte_next {s t : State} {b : Byte} (h : s.takeByte b = .next t) :
    (s.phase.isWait = false ∧ t = s) ∨ (s.phase.isWait = true ∧ s.rs ≠ .check ∧ s.rs ≠ .done ∧ t = s.readerStep b) := by
  unfold State.takeByte at h
  split at h
  · next hw =>
    split at h
    · cases h
    · cases h
    all_goals
      next hr => right; refine ⟨hw, by rw [hr]; decide, by rw [hr]; decide, by simpa using h.symm⟩
  · next hw => exact .inl ⟨by simpa using hw, by simpa using h.symm⟩

/-- Everything a FLAG that ends no accepted frame can do. -/
theorem takeIdleFlag_next {s t : State} (h : s.takeIdleFlag = .next t) :
    (s.phase.isWait = false ∧ t = s) ∨
      (s.phase.isWait = true ∧ (s.rs = .start ∨ s.rs = .flagSeen ∨ s.rs = .addressSeen ∨ s.rs = .controlSeen) ∧
        t = { s with rs := .flagSeen }) ∨
      (s.phase.isWait = true ∧ (s.rs = .bccOk ∨ s.rs = .collecting) ∧ t = s.readerStop) := by
  unfold State.takeIdleFlag at h
  split at h
  · next hw => split at h <;> simp_all
  · next hw => exact .inl ⟨by simpa using hw, by simpa using h.symm⟩

/-- Every way the reader steps, by the table of R162. -/
theorem readerStep_cases (s : State) (b : Byte) :
    (readerNext (s.phase.expAddr s.params) s.phase.accept s.ctl s.rs b = .controlSeen ∧
        s.readerStep b = { s with ctl := b, rs := .controlSeen }) ∨
      (readerNext (s.phase.expAddr s.params) s.phase.accept s.ctl s.rs b = .collecting ∧
        s.readerStep b = { s.appendRaw b with rs := .collecting }) ∨
      (readerNext (s.phase.expAddr s.params) s.phase.accept s.ctl s.rs b ≠ .controlSeen ∧
        readerNext (s.phase.expAddr s.params) s.phase.accept s.ctl s.rs b ≠ .collecting ∧
        s.readerStep b =
          { s with rs := readerNext (s.phase.expAddr s.params) s.phase.accept s.ctl s.rs b }) := by
  unfold State.readerStep
  split
  · next h => exact .inl ⟨h, rfl⟩
  · next h => exact .inr (.inl ⟨h, rfl⟩)
  · next h1 h2 => exact .inr (.inr ⟨h1, h2, rfl⟩)

/-- A header is remembered only for a control byte of the accepted set. -/
theorem readerNext_controlSeen {a : Byte} {accept : List Byte} {ctl : Byte} {rs : ReaderState} {b : Byte}
    (h : readerNext a accept ctl rs b = .controlSeen) : rs = .addressSeen ∧ b ≠ FLAG ∧ b ∈ accept := by
  cases rs <;> simp only [readerNext] at h <;> (repeat' split at h) <;> simp_all

/-- Collection goes on, or begins after an information header, with a byte that is no FLAG. -/
theorem readerNext_collecting {a : Byte} {accept : List Byte} {ctl : Byte} {rs : ReaderState} {b : Byte}
    (h : readerNext a accept ctl rs b = .collecting) :
    b ≠ FLAG ∧ (rs = .collecting ∨ rs = .bccOk ∧ isInfo ctl = true) := by
  cases rs <;> simp only [readerNext] at h <;> (repeat' split at h) <;> simp_all

/-- The transient states are entered by a FLAG alone. -/
theorem readerNext_settled {a : Byte} {accept : List Byte} {ctl : Byte} {rs : ReaderState} {b : Byte} (hb : b ≠ FLAG)
    (h1 : rs ≠ .check) (h2 : rs ≠ .done) :
    readerNext a accept ctl rs b ≠ .check ∧ readerNext a accept ctl rs b ≠ .done := by
  cases rs <;> simp only [readerNext] <;> (repeat' split) <;> simp_all

/-- BCC_OK is entered from CONTROL_SEEN alone (R154). -/
theorem readerNext_bccOk {a : Byte} {accept : List Byte} {ctl : Byte} {rs : ReaderState} {b : Byte}
    (h : readerNext a accept ctl rs b = .bccOk) : rs = .controlSeen := by
  cases rs <;> simp only [readerNext] at h <;> (repeat' split at h) <;> simp_all

/-- The control bytes a phase accepts are the ones whose frame kind it reacts to (R165, R166). -/
theorem accept_subset (p : Phase) : ∀ c ∈ p.accept, c ∈ controlBytes := by cases p <;> decide

/-! ### Completed frames -/

theorem onRR_cases (s : State) (t : Toggle) :
    (t = (!s.sendToggle) ∧ s.onRR t = s.readerStop.flipSendToggle.countValid.complete .ok s.opLen) ∨
      (t = s.sendToggle ∧ s.onRR t = s.readerInit) := by
  unfold State.onRR
  split
  · next h => exact .inl ⟨h, rfl⟩
  · next h => exact .inr ⟨by cases t <;> cases hs : s.sendToggle <;> simp_all, rfl⟩

theorem onREJ_cases (s : State) :
    (s.params.rejConsumesRetry = true ∧
        s.onREJ = s.readerStop.disarm.countInvalid.countRetransmission.attempt .sendOp) ∨
      (s.params.rejConsumesRetry = false ∧
        s.onREJ = s.readerStop.disarm.countInvalid.countRetransmission.retransmit .sendOp) := by
  unfold State.onREJ
  dsimp only
  cases h : s.params.rejConsumesRetry
  · exact .inr ⟨rfl, rfl⟩
  · exact .inl ⟨rfl, rfl⟩

theorem onInfo_cases (s : State) (t : Toggle) :
    (∃ why, checkPayload s.params.maxPayload s.rawBytes s.ovf = .reject why ∧
        s.onInfo t = s.readerStop.countInvalid.transmit (s.replyFrame (controlOfREJ s.expectToggle)) .recvTxRej) ∨
      (∃ payload, checkPayload s.params.maxPayload s.rawBytes s.ovf = .accept payload ∧
        (t ≠ s.expectToggle ∧
            s.onInfo t = s.readerStop.countDuplicate.transmit (s.replyFrame (controlOfRR s.expectToggle)) .recvTxDup ∨
          t = s.expectToggle ∧
            s.onInfo t =
              (s.readerStop.storePayload payload).flipExpectToggle.countValid.transmit (s.replyFrame (controlOfRR (!t)))
                .recvTxAck)) := by
  unfold State.onInfo
  cases h : checkPayload s.params.maxPayload s.rawBytes s.ovf with
  | reject why => exact .inl ⟨why, rfl, rfl⟩
  | accept payload =>
    refine .inr ⟨payload, rfl, ?_⟩
    by_cases ht : t = s.expectToggle
    · exact .inr ⟨ht, by simp [ht]⟩
    · exact .inl ⟨ht, by simp [ht]⟩

/-- The frame a FLAG completes is the one whose control byte is remembered. -/
theorem heldFrame_some {s : State} {i : Instr} (h : s.heldFrame = some i) :
    (s.rs = .bccOk ∨ s.rs = .collecting ∧ isInfo s.ctl = true) ∧ decodeControl s.ctl = .ok i := by
  unfold State.heldFrame at h
  split at h
  · next hr => exact ⟨.inl hr, by revert h; cases decodeControl s.ctl <;> simp [Except.toOption]⟩
  · next hr =>
    split at h
    · next hi => exact ⟨.inr ⟨hr, hi⟩, by revert h; cases decodeControl s.ctl <;> simp [Except.toOption]⟩
    · cases h
  all_goals cases h

end Sys2Proof.Machine
end

