-- ==== Sys2Proof/Laws/Step.lean ====
section
/-! SUPPORT. Every way a step can end in a next state, said once: by event, and for a received byte by what it completes. -/

namespace Sys2Proof.Machine

/-! ### No refusal below the parameter check -/

theorem takeByte_ne_refused (s : State) (b : Byte) (r : Refusal) : s.takeByte b ≠ .refused r := by
  unfold State.takeByte; split
  · split <;> simp
  · simp

theorem takeIdleFlag_ne_refused (s : State) (r : Refusal) : s.takeIdleFlag ≠ .refused r := by
  unfold State.takeIdleFlag; split
  · split <;> simp
  · simp

theorem runFrame_ne_refused (i : Instr) (s : State) (r : Refusal) : runFrame i s ≠ .refused r := by
  have h := takeIdleFlag_ne_refused s r
  cases i <;> simp only [runFrame, execSet, execUa, execDisc, execRr0, execRr1, execRej0, execRej1, execI0, execI1] <;>
    (repeat' split) <;> first | exact h | simp

theorem execFlag_ne_refused (s : State) (r : Refusal) : execFlag s ≠ .refused r := by
  unfold execFlag; split
  · exact runFrame_ne_refused _ s r
  · exact takeIdleFlag_ne_refused s r

theorem exec_ne_refused (i : Instr) (s : State) (r : Refusal) : exec i s ≠ .refused r := by
  cases i with
  | openCmd role n d => simp only [exec, execOpenCmd]; (repeat' split) <;> simp
  | sendCmd len => simp only [exec, execSendCmd]; (repeat' split) <;> simp
  | receiveCmd => simp only [exec, execReceiveCmd]; (repeat' split) <;> simp
  | closeCmd stats => simp only [exec, execCloseCmd]; (repeat' split) <;> simp
  | set => exact runFrame_ne_refused .set s r
  | ua => exact runFrame_ne_refused .ua s r
  | disc => exact runFrame_ne_refused .disc s r
  | rr0 => exact runFrame_ne_refused .rr0 s r
  | rr1 => exact runFrame_ne_refused .rr1 s r
  | rej0 => exact runFrame_ne_refused .rej0 s r
  | rej1 => exact runFrame_ne_refused .rej1 s r
  | i0 => exact runFrame_ne_refused .i0 s r
  | i1 => exact runFrame_ne_refused .i1 s r
  | flag => exact execFlag_ne_refused s r
  | escFlag => exact takeByte_ne_refused s _ r
  | escEsc => exact takeByte_ne_refused s _ r
  | escAny x =>
    simp only [exec, execEscAny]; split
    · exact execFlag_ne_refused s r
    · exact takeByte_ne_refused s x r

theorem stepEvent_ne_refused (e : Event) (s : State) (r : Refusal) : stepEvent e s ≠ .refused r := by
  cases e with
  | cmd w a =>
    simp only [stepEvent]; split
    · exact exec_ne_refused _ _ r
    · unfold State.refuseWord; split <;> simp
  | rx b =>
    simp only [stepEvent]; split
    · exact exec_ne_refused _ _ r
    · exact takeByte_ne_refused s b r
  | txTake =>
    simp only [stepEvent, State.takeTx]; split
    · simp
    · unfold State.txDone; split <;> simp
    · simp
  | tick =>
    simp only [stepEvent, State.takeTick, State.expire]; (repeat' split) <;> simp
  | chanErr => simp [stepEvent]
  | hostBufWrite a v => simp [stepEvent]
  | reset => simp [stepEvent]

/-- A conforming instance is never refused. -/
theorem step_ne_refused {s : State} (h : s.params.ok = true) (r : Refusal) : step s ≠ .refused r := by
  unfold step
  rw [if_pos h]
  split
  · simp
  · split
    · exact stepEvent_ne_refused _ _ r
    · simp

/-! ### The events to come -/

theorem upcoming_of_cons {s : State} {e : Event} {rest : List Event} (h : s.events = e :: rest) : s.upcoming = e :: rest := by
  simp [State.upcoming, h]

theorem upcoming_of_nil {s : State} (h : s.events = []) : s.upcoming = s.source.refill s.steps := by
  simp [State.upcoming, h]

@[simp] theorem Source.refill_silent (n : Nat) : Source.silent.refill n = [] := rfl
@[simp] theorem Source.refill_repeating (n : Nat) (es : List Event) : (Source.repeating es).refill n = es := rfl
@[simp] theorem Source.refill_free (n : Nat) : Source.free.refill n = [Config.freeEvent n] := rfl

/-! ### By event -/

/-- A step that answers a next state waits, passes over an event that is not enabled, or gives the event its effect. -/
theorem step_next {s t : State} (h : step s = .next t) :
    s.params.ok = true ∧
      ((s.upcoming = [] ∧ t = s.clearOutputs) ∨
        ∃ e rest, s.upcoming = e :: rest ∧
          ((e.enabled s = false ∧ t = s.dropEvent rest) ∨
            (e.enabled s = true ∧ stepEvent e (s.dropEvent rest) = .next t))) := by
  unfold step at h
  split at h
  · next hp =>
    refine ⟨hp, ?_⟩
    split at h
    · next he => exact .inl ⟨he, by simpa using h.symm⟩
    · next e rest he =>
      refine .inr ⟨e, rest, he, ?_⟩
      split at h
      · next hen => exact .inr ⟨hen, h⟩
      · next hen => exact .inl ⟨by simpa using hen, by simpa using h.symm⟩
  · cases h

/-- An enabled event at the head of those to come has its effect. -/
theorem step_enabled {s : State} {e : Event} {rest : List Event} (hp : s.params.ok = true) (hu : s.upcoming = e :: rest)
    (he : e.enabled s = true) : step s = stepEvent e (s.dropEvent rest) := by
  simp [step, hp, hu, he]

/-- TxTake: a byte leaves, and the last one ends the TX phase (R257). -/
theorem takeTx_next {s t : State} (h : s.takeTx = .next t) :
    (s.txq = [] ∧ t = s) ∨
      (∃ b q, s.txq = b :: q ∧ q ≠ [] ∧ t = { s with txq := q, txOut := some b }) ∨
      ∃ b, s.txq = [b] ∧ { s with txq := [], txOut := some b }.txDone = .next t := by
  unfold State.takeTx at h
  split at h
  · next hq => exact .inl ⟨hq, by simpa using h.symm⟩
  · next b hq => exact .inr (.inr ⟨b, hq, h⟩)
  · next b q hne hq => exact .inr (.inl ⟨b, q, hq, fun h0 => hne h0, by simpa using h.symm⟩)

/-- The ends of the eight TX phases. -/
theorem txDone_next {s t : State} (h : s.txDone = .next t) :
    (s.phase = .openITx ∧ t = s.startWait .openIWait) ∨ (s.phase = .sendTx ∧ t = s.startWait .sendWait) ∨
      (s.phase = .closeITx ∧ t = s.startWait .closeIWait) ∨ (s.phase = .recvTxRej ∧ t = s.startWait .recvWait) ∨
      (s.phase = .openRTx ∧ t = { s with sess := .opened }.complete .ok 0) ∨
      (s.phase = .closeRTx ∧ t = s.teardown.complete .ok 0) ∨
      (s.phase = .recvTxDup ∧ t = s.complete .duplicate 0) ∨ (s.phase = .recvTxAck ∧ t = s.complete .ok s.rxLen) := by
  unfold State.txDone at h
  split at h <;> simp_all

/-- Tick: nothing while the timer is off, one tick less, or the expiry (R252). -/
theorem takeTick_next {s t : State} (h : s.takeTick = .next t) :
    (s.armed = false ∧ t = s) ∨
      (s.armed = true ∧ 1 < s.remaining.toNat ∧ t = { s with remaining := s.remaining - 1 }) ∨
      (s.armed = true ∧ s.remaining.toNat ≤ 1 ∧ ∃ op, s.phase.timedOp = some op ∧
        t = s.disarm.countTimeout.countRetransmission.attempt op) := by
  unfold State.takeTick at h
  split at h
  · next ha => exact .inl ⟨ha, by simpa using h.symm⟩
  · next ha =>
    split at h
    · next hr => exact .inr (.inl ⟨by simpa using ha, hr, by simpa using h.symm⟩)
    · next hr => exact .inr (.inr ⟨by simpa using ha, by omega, expire_next h⟩)

/-! ### Commands -/

/-- A command taken in IDLE: refused, turned away, or begun by its operation. -/
theorem cmd_next {s t : State} {w : Word} {avail : Bool} (hi : s.phase = .idle) (h : stepEvent (.cmd w avail) s = .next t) :
    t = (s.sampleAvail avail).refuse ∨
      (∃ role n d, decodeCommand w = .ok (.openCmd role n d) ∧ s.sess = .closed ∧ d ≠ 0 ∧
        (avail = false ∧ t = (s.sampleAvail avail).complete .channelUnavailable 0 ∨
          avail = true ∧ t = (s.sampleAvail avail).beginOpen role n d)) ∨
      (∃ len, decodeCommand w = .ok (.sendCmd len) ∧ s.sess = .opened ∧ len.toNat ≤ s.params.maxPayload ∧
        t = (s.sampleAvail avail).beginSend len) ∨
      (decodeCommand w = .ok .receiveCmd ∧ s.sess = .opened ∧ t = (s.sampleAvail avail).beginReceive) ∨
      ∃ stats, decodeCommand w = .ok (.closeCmd stats) ∧ s.sess = .opened ∧ t = (s.sampleAvail avail).beginClose stats := by
  have hi' : (s.sampleAvail avail).phase = .idle := hi
  simp only [stepEvent] at h
  have hd : ∀ i, decodeCommand w = .ok i →
      (∃ role n d, i = .openCmd role n d) ∨ (∃ len, i = .sendCmd len) ∨ i = .receiveCmd ∨ ∃ stats, i = .closeCmd stats := by
    intro i hd
    unfold decodeCommand at hd
    repeat' split at hd
    all_goals cases hd
    all_goals simp
  split at h
  · next i hdw =>
    rcases hd i hdw with ⟨role, n, d, rfl⟩ | ⟨len, rfl⟩ | rfl | ⟨stats, rfl⟩
    · simp only [exec, execOpenCmd, hi', ne_eq, not_true_eq_false, if_false] at h
      split at h
      · exact .inl (by simpa using h.symm)
      · next hs =>
        split at h
        · exact .inl (by simpa using h.symm)
        · next hd0 =>
          refine .inr (.inl ⟨role, n, d, hdw, ?_, hd0, ?_⟩)
          · cases hc : s.sess <;> simp_all
          · split at h
            · next ha => exact .inl ⟨ha, by simpa using h.symm⟩
            · next ha => exact .inr ⟨by simpa using ha, by simpa using h.symm⟩
    · simp only [exec, execSendCmd, hi', ne_eq, not_true_eq_false, if_false] at h
      split at h
      · exact .inl (by simpa using h.symm)
      · next hs =>
        split at h
        · exact .inl (by simpa using h.symm)
        · next hl =>
          refine .inr (.inr (.inl ⟨len, hdw, ?_, ?_, by simpa using h.symm⟩))
          · cases hc : s.sess <;> simp_all
          · simpa using hl
    · simp only [exec, execReceiveCmd, hi', ne_eq, not_true_eq_false, if_false] at h
      split at h
      · exact .inl (by simpa using h.symm)
      · next hs =>
        refine .inr (.inr (.inr (.inl ⟨hdw, ?_, by simpa using h.symm⟩)))
        cases hc : s.sess <;> simp_all
    · simp only [exec, execCloseCmd, hi', ne_eq, not_true_eq_false, if_false] at h
      split at h
      · exact .inl (by simpa using h.symm)
      · next hs =>
        refine .inr (.inr (.inr (.inr ⟨stats, hdw, ?_, by simpa using h.symm⟩)))
        cases hc : s.sess <;> simp_all
  · simp only [State.refuseWord, hi', ne_eq, not_true_eq_false, if_false] at h
    exact .inl (by simpa using h.symm)

/-- `opField` of a word that decodes to OPEN (R110). -/
theorem opField_of_open {w : Word} {role : Role} {n : BitVec 8} {d : BitVec 16}
    (h : decodeCommand w = .ok (.openCmd role n d)) : opField w = 0 := by
  unfold decodeCommand at h
  split at h
  · next h0 => exact BitVec.eq_of_toNat_eq h0
  all_goals split at h <;> cases h

/-! ### Received bytes -/

/-- A received byte that is no FLAG runs the reader's table, whether or not it completes an escape pair. -/
theorem rx_byte {s : State} {b : Byte} (hb : b ≠ FLAG) : stepEvent (.rx b) s = s.takeByte b := by
  have hp : decodePair ESC b = .ok .escFlag ∧ b = 0x5E ∨ decodePair ESC b = .ok .escEsc ∧ b = 0x5D ∨
      decodePair ESC b = .ok (.escAny b) := by
    unfold decodePair
    rw [if_neg (by simp), if_neg hb]
    by_cases h1 : b = 0x5E
    · exact .inl ⟨by rw [if_pos h1], h1⟩
    · by_cases h2 : b = 0x5D
      · exact .inr (.inl ⟨by rw [if_neg h1, if_pos h2], h2⟩)
      · exact .inr (.inr (by rw [if_neg h1, if_neg h2]))
  simp only [stepEvent, State.completedBy, if_neg hb]
  by_cases he : s.escPending = true
  · rw [if_pos he]
    rcases hp with ⟨h, rfl⟩ | ⟨h, rfl⟩ | h <;> rw [h] <;> simp [Except.toOption, exec, execEscFlag, execEscEsc, execEscAny, hb]
  · rw [if_neg he]

/-- A received FLAG. -/
theorem rx_flag (s : State) : stepEvent (.rx FLAG) s = execFlag s := by
  simp only [stepEvent, State.completedBy, if_true, execFlag]
  cases hf : s.heldFrame with
  | none => simp [exec, execFlag, hf]
  | some i =>
    have hd := (heldFrame_some hf).2
    simp only [Option.getD_some]
    revert hd; unfold decodeControl
    (repeat' split) <;> intro hd <;> cases hd <;> rfl

/-- A step that takes a byte other than FLAG in a wait runs the reader's table. -/
theorem step_rx (s : State) {b : Byte} {rest : List Event} (hp : s.params.ok = true) (hw : s.phase.isWait = true)
    (hu : s.upcoming = .rx b :: rest) (hb : b ≠ FLAG) (h1 : s.rs ≠ .check) (h2 : s.rs ≠ .done) :
    step s = .next ((s.dropEvent rest).readerStep b) := by
  rw [step_enabled hp hu (by simpa [Event.enabled] using hw), rx_byte hb]
  unfold State.takeByte
  cases h : s.rs <;> simp_all

/-- A step that takes a FLAG in a wait. -/
theorem step_flag (s : State) {rest : List Event} (hp : s.params.ok = true) (hw : s.phase.isWait = true)
    (hu : s.upcoming = .rx FLAG :: rest) : step s = execFlag (s.dropEvent rest) := by
  rw [step_enabled hp hu (by simpa [Event.enabled] using hw), rx_flag]

/-- The reactions of R166: what a FLAG that ends an accepted frame does, by wait. -/
def Reaction (s t : State) : Prop :=
  (s.phase = .openIWait ∧ t = { s.readerStop with sess := .opened }.complete .ok 0) ∨
    (s.phase = .openRWait ∧ t = s.readerStop.transmit (s.replyFrame C_UA) .openRTx) ∨
    (s.phase = .sendWait ∧ ∃ r, t = s.onRR r) ∨
    (s.phase = .sendWait ∧ t = s.onREJ) ∨
    (s.phase = .recvWait ∧ ∃ r, t = s.onInfo r) ∨
    (s.phase = .closeIWait ∧ t = s.readerStop.teardown.complete .ok 0) ∨
    (s.phase = .closeRWait ∧ t = s.readerStop.transmit (s.replyFrame C_DISC) .closeRTx)

theorem runFrame_next {s t : State} {i : Instr} {c : Byte} (hd : decodeControl c = .ok i) (h : runFrame i s = .next t) :
    Reaction s t ∨ (c ∉ s.phase.accept ∧ s.takeIdleFlag = .next t) := by
  unfold Reaction
  revert hd; unfold decodeControl
  (repeat' split) <;> intro hd <;> cases hd <;> rename_i hc <;>
    simp only [runFrame, execSet, execUa, execDisc, execRr0, execRr1, execRej0, execRej1, execI0, execI1] at h <;>
    (repeat' split at h) <;>
    first
      | (simp only [Host.Outcome.next.injEq] at h; subst h; left; simp_all)
      | (refine .inr ⟨?_, h⟩; rw [hc]; clear h
         cases hp : s.phase <;> first | contradiction | (simp only [Phase.accept]; decide))

/-- A FLAG with no frame held, in a wait: the header is not complete, or what is held is not accepted. -/
theorem heldFrame_none {s : State} (h : s.heldFrame = none) :
    (s.rs ≠ .bccOk ∧ s.rs ≠ .collecting) ∨ s.ctl ∉ s.phase.accept ∨ (s.rs = .collecting ∧ isInfo s.ctl = false) := by
  unfold State.heldFrame at h
  split at h
  · refine .inr (.inl fun hacc => ?_)
    have := accept_subset _ _ hacc
    revert h
    simp only [controlBytes, List.mem_cons, List.not_mem_nil, or_false] at this
    rcases this with h | h | h | h | h | h | h | h | h <;> rw [h] <;> decide
  · next hr =>
    split at h
    · next hi =>
      exfalso
      revert h
      have : s.ctl = C_I0 ∨ s.ctl = C_I1 := by simpa [isInfo] using hi
      rcases this with h | h <;> rw [h] <;> decide
    · next hi => exact .inr (.inr ⟨hr, by simpa using hi⟩)
  all_goals next hr => left; rw [hr]; decide

/-- Everything a FLAG taken in a wait can do: open a header, drop a frame that is not accepted, or end an accepted frame (R166). -/
theorem flag_next {s t : State} (hw : s.phase.isWait = true) (h : execFlag s = .next t) :
    ((s.rs = .start ∨ s.rs = .flagSeen ∨ s.rs = .addressSeen ∨ s.rs = .controlSeen) ∧ t = { s with rs := .flagSeen }) ∨
      ((s.rs = .bccOk ∨ s.rs = .collecting) ∧
        (Reaction s t ∨
          (t = s.readerStop ∧ (s.ctl ∉ s.phase.accept ∨ s.rs = .collecting ∧ isInfo s.ctl = false)))) := by
  have idle : s.takeIdleFlag = .next t →
      (s.rs ≠ .bccOk ∧ s.rs ≠ .collecting) ∨ s.ctl ∉ s.phase.accept ∨ (s.rs = .collecting ∧ isInfo s.ctl = false) →
      ((s.rs = .start ∨ s.rs = .flagSeen ∨ s.rs = .addressSeen ∨ s.rs = .controlSeen) ∧ t = { s with rs := .flagSeen }) ∨
      ((s.rs = .bccOk ∨ s.rs = .collecting) ∧
        (Reaction s t ∨
          (t = s.readerStop ∧ (s.ctl ∉ s.phase.accept ∨ s.rs = .collecting ∧ isInfo s.ctl = false)))) := fun h' hc => by
    rcases takeIdleFlag_next h' with ⟨h1, -⟩ | ⟨-, hr, ht⟩ | ⟨-, hr, ht⟩
    · rw [hw] at h1; cases h1
    · exact .inl ⟨hr, ht⟩
    · rcases hc with hc | hc
      · rcases hr with hr | hr
        · exact absurd hr hc.1
        · exact absurd hr hc.2
      · exact .inr ⟨hr, .inr ⟨ht, hc⟩⟩
  unfold execFlag at h
  split at h
  · next i hf =>
    obtain ⟨hr, hd⟩ := heldFrame_some hf
    rcases runFrame_next hd h with h | ⟨h1, h2⟩
    · exact .inr ⟨hr.imp_right And.left, .inl h⟩
    · exact idle h2 (.inr (.inl h1))
  · next hf => exact idle h (heldFrame_none hf)

/-! ### By case -/

/-- Every way a step answers a next state: waiting, an event that is not enabled, and the effect of each enabled event. -/
theorem step_cases {s t : State} (h : step s = .next t) :
    s.params.ok = true ∧
      (s.upcoming = [] ∧ t = s.clearOutputs ∨
        ∃ e rest, s.upcoming = e :: rest ∧
          (t = s.dropEvent rest ∨
            (∃ w a, e = .cmd w a ∧ s.phase = .idle ∧ stepEvent (.cmd w a) (s.dropEvent rest) = .next t) ∨
            (∃ b, e = .rx b ∧ b ≠ FLAG ∧ s.phase.isWait = true ∧ s.rs ≠ .check ∧ s.rs ≠ .done ∧
              t = (s.dropEvent rest).readerStep b) ∨
            (e = .rx FLAG ∧ s.phase.isWait = true ∧ execFlag (s.dropEvent rest) = .next t) ∨
            (e = .txTake ∧ s.txq ≠ [] ∧ (s.dropEvent rest).takeTx = .next t) ∨
            (e = .tick ∧ (s.dropEvent rest).takeTick = .next t) ∨
            (e = .chanErr ∧ t = (s.dropEvent rest).takeChanErr) ∨
            (∃ a v, e = .hostBufWrite a v ∧ s.phase = .idle ∧ a.toNat < s.params.maxPayload ∧
              t = (s.dropEvent rest).takeHostWrite a v) ∨
            (e = .reset ∧ t = (s.dropEvent rest).takeReset))) := by
  obtain ⟨hp, h | ⟨e, rest, he, ⟨_, h⟩ | ⟨hen, h⟩⟩⟩ := step_next h
  · exact ⟨hp, .inl h⟩
  · exact ⟨hp, .inr ⟨e, rest, he, .inl h⟩⟩
  · refine ⟨hp, .inr ⟨e, rest, he, .inr ?_⟩⟩
    cases e with
    | cmd w a => exact .inl ⟨w, a, rfl, by simpa [Event.enabled] using hen, h⟩
    | rx b =>
      have hw : s.phase.isWait = true := by simpa [Event.enabled] using hen
      by_cases hb : b = FLAG
      · subst hb; rw [rx_flag] at h; exact .inr (.inr (.inl ⟨rfl, hw, h⟩))
      · rw [rx_byte hb] at h
        rcases takeByte_next h with ⟨h1, _⟩ | ⟨h1, h2, h3, h4⟩
        · simp [hw] at h1
        · exact .inr (.inl ⟨b, rfl, hb, hw, h2, h3, h4⟩)
    | txTake => exact .inr (.inr (.inr (.inl ⟨rfl, by simpa [Event.enabled] using hen, h⟩)))
    | tick => exact .inr (.inr (.inr (.inr (.inl ⟨rfl, h⟩))))
    | chanErr => exact .inr (.inr (.inr (.inr (.inr (.inl ⟨rfl, by simpa [stepEvent] using h.symm⟩)))))
    | hostBufWrite a v =>
      have : s.phase = .idle ∧ a.toNat < s.params.maxPayload := by simpa [Event.enabled] using hen
      exact .inr (.inr (.inr (.inr (.inr (.inr (.inl ⟨a, v, rfl, this.1, this.2, by simpa [stepEvent] using h.symm⟩))))))
    | reset => exact .inr (.inr (.inr (.inr (.inr (.inr (.inr ⟨rfl, by simpa [stepEvent] using h.symm⟩))))))

end Sys2Proof.Machine
end

