-- ==== Sys2Proof/Laws/Invariant.lean ====
section
/-! SUPPORT. The invariant's parts under the shared operations (Safety.lean): one lemma per operation, for the proofs about `State.Inv`. -/

namespace Sys2Proof.Machine

/-! ### Lengths of frames (spec/40_frame_codec.md R142) -/

theorem length_stuff (xs : List Byte) : (stuff xs).length ≤ 2 * xs.length ∧ xs.length ≤ (stuff xs).length := by
  induction xs with
  | nil => simp
  | cons x xs ih =>
    rw [stuff_cons]
    rcases stuffByte_cases x with ⟨_, h⟩ | ⟨_, h⟩ | ⟨_, _, h⟩ <;> rw [h] <;> simp <;> omega

theorem length_requestFrame (s : State) (op : TimedOp) (h : s.opLen.toNat ≤ s.params.maxPayload) :
    s.requestFrame op ≠ [] ∧ (s.requestFrame op).length ≤ 2 * (s.params.maxPayload + 1) + 5 := by
  cases op <;> simp [State.requestFrame, encodeSupervisory, encodeIFrame, stuffedRegion]
  have := (length_stuff (s.payload ++ [bcc2 s.payload])).1
  simp [State.payload] at this ⊢
  omega

/-! ### ControlInv -/

/-- What the operations that end or continue a command find true of the bounds. -/
structure State.Bounded (s : State) : Prop where
  queue : s.txq = []
  tries : s.tries ≤ s.retryLimit
  opLen : s.opLen.toNat ≤ s.params.maxPayload
  rxLen : s.rxLen.toNat ≤ s.params.maxPayload

/-- A command in progress with its timer off. -/
structure State.Busy (s : State) : Prop where
  disarmed : s.armed = false
  timeout : s.timeoutDuration ≠ 0
  notDone : s.done = false

theorem transmit_control {s : State} {xs : List Byte} {p : Phase} (h : s.Bounded) (r : s.Busy) (hx : xs ≠ [])
    (hl : xs.length ≤ 2 * (s.params.maxPayload + 1) + 5) (hp : p.isTx = true) (h1 : p.isOpening = true → s.sess = .closed)
    (h2 : p.isOpening = false → s.sess = .opened) : (s.transmit xs p).ControlInv :=
  have h3 : p.isTimed = false := by cases p <;> first | rfl | cases hp
  ⟨⟨fun _ => hp, fun _ => hx⟩, hl, by simp [h3, r.disarmed], by simp [r.disarmed], h.tries, fun _ => r.timeout, h1, fun _ => h2,
    fun _ => r.notDone, h.opLen, h.rxLen⟩

theorem complete_control {s : State} {st : Status} {n : BitVec 16} (h : s.Bounded)
    (ht : s.sess = .opened → s.timeoutDuration ≠ 0) : (s.complete st n).ControlInv :=
  ⟨by simp [h.queue, Phase.isTx], by simp [h.queue], rfl, (by intro h; cases h), h.tries,
    by rintro (h | h); exact absurd rfl h; exact ht h, (by intro h; cases h), (by intro h; exact absurd rfl h),
    (by intro h; exact absurd rfl h), h.opLen, h.rxLen⟩

theorem startWait_control {s : State} {p : Phase} (h : s.Bounded) (r : s.Busy) (hp : p.isWait = true)
    (h1 : p.isOpening = true → s.sess = .closed) (h2 : p.isOpening = false → s.sess = .opened) : (s.startWait p).ControlInv :=
  have h3 : p.isTx = false := Phase.not_tx_of_wait hp
  ⟨by simp [h.queue, h3], by simp [h.queue], by simp [r.disarmed], by
    simp only [State.startWait_armed, State.startWait_remaining, r.disarmed, Bool.or_false]
    intro h; rw [if_pos h]; exact r.timeout,
    by simpa using h.tries, by simpa using fun _ => r.timeout, by simpa using h1, by simpa using fun _ => h2,
    by simpa using fun _ => r.notDone, by simpa using h.opLen, by simpa using h.rxLen⟩

theorem attempt_control {s : State} {op : TimedOp} (h : s.Bounded) (r : s.Busy)
    (hs : op = .openOp ∧ s.sess = .closed ∨ op ≠ .openOp ∧ s.sess = .opened) : (s.attempt op).ControlInv := by
  have hl := length_requestFrame s op h.opLen
  rcases attempt_cases s op with ⟨h1, he⟩ | ⟨h1, he⟩ <;> rw [he]
  · have e1 : State.requestFrame { s with tries := s.tries + 1 } op = s.requestFrame op := by cases op <;> rfl
    have hlt : s.tries + 1 ≤ s.retryLimit := by
      have := s.retryLimit.isLt
      rw [BitVec.le_def]; rw [BitVec.lt_def] at h1; rw [BitVec.toNat_add]; simp; omega
    unfold State.retransmit
    rw [e1]
    refine transmit_control ⟨h.queue, hlt, h.opLen, h.rxLen⟩ ⟨r.disarmed, r.timeout, r.notDone⟩ hl.1 hl.2 ?_ ?_ ?_
    · cases op <;> rfl
    · rcases hs with ⟨rfl, hs⟩ | ⟨hne, hs⟩
      · intro _; exact hs
      · cases op <;> simp [TimedOp.txPhase, Phase.isOpening] at hne ⊢
    · rcases hs with ⟨rfl, hs⟩ | ⟨hne, hs⟩
      · simp [TimedOp.txPhase, Phase.isOpening]
      · intro _; exact hs
  · cases op
    · exact complete_control (s := s.releaseChannel) ⟨h.queue, h.tries, h.opLen, h.rxLen⟩ fun _ => r.timeout
    · exact complete_control (s := s) ⟨h.queue, h.tries, h.opLen, h.rxLen⟩ fun _ => r.timeout
    · exact complete_control (s := s.teardown) ⟨h.queue, h.tries, h.opLen, h.rxLen⟩ fun _ => r.timeout

/-- A step that leaves the registers of ControlInv alone keeps it (a refused command sets `done`, in IDLE). -/
theorem same_control {s t : State} (h : s.ControlInv) (e1 : t.params = s.params) (e2 : t.txq = s.txq) (e3 : t.phase = s.phase)
    (e4 : t.armed = s.armed) (e5 : t.remaining = s.remaining) (e6 : t.tries = s.tries) (e7 : t.retryLimit = s.retryLimit)
    (e8 : t.timeoutDuration = s.timeoutDuration) (e9 : t.sess = s.sess) (e10 : t.done = s.done ∨ s.phase = .idle)
    (e11 : t.opLen = s.opLen) (e12 : t.rxLen = s.rxLen) : t.ControlInv := by
  obtain ⟨a, b, c, d, e, f, g, i, j, k, l⟩ := h
  constructor <;> simp only [e1, e2, e3, e4, e5, e6, e7, e8, e9, e11, e12] <;> try assumption
  intro hh; rcases e10 with h | h
  · rw [h]; exact j hh
  · exact absurd h hh

/-! ### ReaderInv -/

/-- A step that leaves the reader's registers alone, or leaves the WAIT phases, keeps ReaderInv. -/
theorem same_reader {s t : State} (h : s.ReaderInv) (e1 : t.params = s.params) (e2 : t.ctl = s.ctl) (e3 : t.raw = s.raw)
    (e4 : t.rawLen = s.rawLen) (e5 : t.ovf = s.ovf) (e6 : t.rs = s.rs ∨ t.rs = .start)
    (e7 : t.phase = s.phase ∧ t.rs = s.rs ∨ t.phase.isWait = false) : t.ReaderInv := by
  obtain ⟨a, b, c, d, e, f, g, i⟩ := h
  refine ⟨?_, ?_, ?_, ?_, ?_, ?_, ?_, ?_⟩ <;> (try simp only [e1, e2, e3, e4, e5])
  · rcases e6 with h | h <;> rw [h]
    · exact a
    · decide
  · exact b
  · rcases e7 with ⟨h, h'⟩ | h
    · rw [h, h']; exact c
    · intro hw; rw [h] at hw; cases hw
  · rcases e6 with h | h <;> rw [h]
    · exact d
    · intro h; cases h
  · exact e
  · exact f
  · exact g
  · rcases e7 with ⟨h, h'⟩ | h
    · rw [h, h']; exact i
    · intro hw; rw [h] at hw; cases hw

/-- After ReaderInit. -/
theorem fresh_reader {t : State} (h1 : t.ctl ∈ controlBytes) (h2 : t.rs = .start) (h3 : t.rawLen = 0) (h4 : t.ovf = false) :
    t.ReaderInv := by
  refine ⟨?_, ?_, ?_, ?_, ?_, ?_, ?_, ?_⟩ <;> simp [h1, h2, h3, h4]

theorem attempt_notWait (s : State) (op : TimedOp) : (s.attempt op).phase.isWait = false := by
  rcases attempt_cases s op with ⟨_, h⟩ | ⟨_, h⟩ <;> rw [h]
  · cases op <;> rfl
  · cases op <;> rfl

/-! ### BufferInv -/

theorem Memory.write_within {m : Memory} {n a : Nat} {v : Byte} (h : m.within n) (ha : a < n) : (m.write a v).within n :=
  ⟨Memory.write_keeps_wf _ _ h.1, fun c hc => by rcases Memory.mem_write hc with rfl | hc; exact ha; exact h.2 c hc⟩

end Sys2Proof.Machine
end

