-- ==== Sys2Proof/Laws/PerInstr.lean ====
section
/-! SUPPORT. Statements made of every instruction as syntax, one lemma per constructor. -/

namespace Sys2Proof

/-- How many bits the opcode table gives an encoded instruction (spec/opcode_table.json). -/
def Encoded.tableBits : Encoded → Nat
  | .command _ => 32
  | .byte _ => 8
  | .pair _ _ => 16

/-- The number the opcode table writes for it, the byte of a pair that is sent first being the upper one (30_encoding.md R99). -/
def Encoded.tableWord : Encoded → Nat
  | .command w => w.toNat
  | .byte b => b.toNat
  | .pair first second => first.toNat * 256 + second.toNat

theorem encodedOfTable_command (w : Word) : encodedOfTable (Encoded.command w).tableBits (Encoded.command w).tableWord = some (.command w) := by
  simp [Encoded.tableBits, Encoded.tableWord, encodedOfTable]

theorem encodedOfTable_pair (first second : Byte) :
    encodedOfTable (Encoded.pair first second).tableBits (Encoded.pair first second).tableWord = some (.pair first second) := by
  have h1 := first.isLt
  have h2 := second.isLt
  have e1 : BitVec.ofNat 8 ((first.toNat * 256 + second.toNat) / 256) = first := by apply BitVec.eq_of_toNat_eq; simp; omega
  have e2 : BitVec.ofNat 8 (first.toNat * 256 + second.toNat) = second := by apply BitVec.eq_of_toNat_eq; simp; omega
  simp only [Encoded.tableBits, Encoded.tableWord, encodedOfTable, e1, e2]

end Sys2Proof

namespace Sys2Proof.Laws.TableNumbering

/-- The opcode table's numbering of an instruction's encoding is read back as that encoding. -/
def Statement (i : Instr) : Prop := encodedOfTable (encode i).tableBits (encode i).tableWord = some (encode i)

theorem openCmd (role : Role) (n : BitVec 8) (t : BitVec 16) : Statement (.openCmd role n t) := encodedOfTable_command _
theorem sendCmd (len : BitVec 16) : Statement (.sendCmd len) := encodedOfTable_command _
theorem receiveCmd : Statement .receiveCmd := encodedOfTable_command _
theorem closeCmd (stats : Bool) : Statement (.closeCmd stats) := encodedOfTable_command _
theorem set : Statement .set := rfl
theorem ua : Statement .ua := rfl
theorem disc : Statement .disc := rfl
theorem rr0 : Statement .rr0 := rfl
theorem rr1 : Statement .rr1 := rfl
theorem rej0 : Statement .rej0 := rfl
theorem rej1 : Statement .rej1 := rfl
theorem i0 : Statement .i0 := rfl
theorem i1 : Statement .i1 := rfl
theorem flag : Statement .flag := rfl
theorem escFlag : Statement .escFlag := rfl
theorem escEsc : Statement .escEsc := rfl
theorem escAny (x : Byte) : Statement (.escAny x) := encodedOfTable_pair _ _

end Sys2Proof.Laws.TableNumbering
end

