-- ==== Sys2Proof/Laws/Ports.lean ====
section
/-! SUPPORT. The status registers as sums of their fields (spec/10_state.md R46). -/

namespace Sys2Proof.Machine

theorem toNat_srStatus (s : State) :
    s.srStatus.toNat =
      s.ovf.toNat * 2 ^ 18 + s.phase.code.toNat * 2 ^ 14 + s.rs.code.toNat * 2 ^ 11 + s.armed.toNat * 2 ^ 10
        + s.statsValid.toNat * 2 ^ 9 + s.expectToggle.toNat * 2 ^ 8 + s.sendToggle.toNat * 2 ^ 7 + (roleCode s.role).toNat * 2 ^ 6
        + s.sess.code.toNat * 2 ^ 5 + s.busy.toNat * 2 ^ 4 + s.done.toNat * 2 ^ 3 + s.status.code.toNat := by
  simp only [State.srStatus, toNat_append_eq, BitVec.toNat_ofBool, BitVec.toNat_ofNat]
  omega

theorem toNat_srResultLen (s : State) : s.srResultLen.toNat = s.rxLen.toNat * 2 ^ 16 + s.resultLen.toNat := by
  simp only [State.srResultLen, toNat_append_eq]

theorem toNat_srConfig (s : State) : s.srConfig.toNat = s.timeoutDuration.toNat * 2 ^ 8 + s.retryLimit.toNat := by
  simp only [State.srConfig, toNat_append_eq, BitVec.toNat_ofNat]; omega

theorem toNat_srProgress (s : State) :
    s.srProgress.toNat = s.ctl.toNat * 2 ^ 24 + s.remaining.toNat * 2 ^ 8 + s.tries.toNat := by
  simp only [State.srProgress, toNat_append_eq]; omega

theorem toNat_srLengths (s : State) : s.srLengths.toNat = s.rawLen.toNat % 2 ^ 16 * 2 ^ 16 + s.opLen.toNat := by
  simp only [State.srLengths, toNat_append_eq, BitVec.toNat_setWidth]

end Sys2Proof.Machine
end

