-- ==== Sys2Proof/Laws/Run.lean ====
section
/-! SUPPORT. Runs: how they compose, and that the endless runs of spec/00_scope.md R14 (b) are runs of the machine. -/

namespace Sys2Proof.Machine

/-! ### Composition -/

theorem run_succ {s t : State} (k : Nat) (h : step s = .next t) : Host.Core.run Sys2Proof.core (k + 1) s = Host.Core.run Sys2Proof.core k t := by
  simp only [Host.Core.run]
  rw [show Sys2Proof.core.step s = .next t from h]

theorem run_add {s t : State} (j k : Nat) (h : Host.Core.run Sys2Proof.core j s = .next t) :
    Host.Core.run Sys2Proof.core (j + k) s = Host.Core.run Sys2Proof.core k t := by
  induction j generalizing s with
  | zero => cases h; rw [Nat.zero_add]
  | succ j ih =>
    rw [Nat.add_right_comm]
    simp only [Host.Core.run] at h ⊢
    cases hs : Sys2Proof.core.step s with
    | next u => rw [hs] at h; exact ih h
    | fault f => rw [hs] at h; cases h
    | refused r => rw [hs] at h; cases h

/-- A period that leads from `s n` to `s (n + 1)` can be run any number of times. -/
theorem run_periods {s : Nat → State} {p : Nat} (h : ∀ n, Host.Core.run Sys2Proof.core p (s n) = .next (s (n + 1))) (n : Nat) :
    Host.Core.run Sys2Proof.core (p * n) (s 0) = .next (s n) := by
  induction n with
  | zero => rfl
  | succ n ih => rw [Nat.mul_succ, run_add _ _ ih]; exact h n

/-! ### A wait that no frame ends (R14 (b), 70_reset_and_hazards.md R320) -/

/-- An engine in a wait without a timer, after `n` ticks of a source of ticks. -/
def waiting (s : State) (n : Nat) : State :=
  { s with source := .repeating [.tick], events := [], armed := false, chanRelease := false, txOut := none, steps := s.steps + n }

theorem step_waiting (s : State) (n : Nat) (hp : s.params.ok = true) : step (waiting s n) = .next (waiting s (n + 1)) :=
  (step_enabled (s := waiting s n) (e := .tick) (rest := []) hp rfl rfl).trans rfl

/-- Whatever phase it waits in, the engine stays there for ever. -/
theorem waits_for_ever (s : State) (hp : s.params.ok = true) (n : Nat) :
    Host.Core.run Sys2Proof.core n (waiting s 0) = .next (waiting s n) := by
  have := run_periods (s := waiting s) (p := 1) (fun n => run_succ 0 (step_waiting s n hp)) n
  rwa [Nat.one_mul] at this

/-! ### A sender that keeps receiving REJ (R14 (b)) -/

/-- What happens to it again and again: the five bytes of REJ0 arrive, and the channel takes the six bytes of the frame sent again. -/
def rejection : List Event :=
  [.rx 0x7E, .rx 0x01, .rx 0x54, .rx 0x55, .rx 0x7E, .txTake, .txTake, .txTake, .txTake, .txTake, .txTake]

/-- A sender of an empty payload whose REJs use no budget, in SEND_WAIT after `c` rejections and `m` events. -/
def rejectedAt (c : BitVec 32) (m : Nat) : State :=
  { State.resetWith ⟨0x03, 0x01, 16, false⟩ with
    sess := .opened, retryLimit := 1, timeoutDuration := 3, phase := .sendWait, tries := 1, armed := true, remaining := 3
    ctl := C_REJ0, txOut := some 0x7E, source := .repeating rejection, retransmissions := c, framesInvalid := c, framesTotal := c
    steps := m }

theorem run_rejection (c : BitVec 32) (m : Nat) :
    Host.Core.run Sys2Proof.core 11 (rejectedAt c m) = .next (rejectedAt (c + 1) (m + 11)) := by
  simp [Host.Core.run, Sys2Proof.core, step, stepEvent, State.upcoming, Event.enabled, State.dropEvent, State.clearOutputs, rejectedAt, rejection,
    State.resetWith, Params.ok, addressOk, commandControls, replyControls, FLAG, ESC, C_SET, C_DISC, C_I0, C_I1, C_UA, C_RR0, C_RR1, C_REJ0,
    C_REJ1, Phase.isWait, Phase.isTimed, Phase.expAddr, Phase.accept, State.completedBy, State.heldFrame, State.escPending, State.takeByte,
    State.takeIdleFlag, State.readerStep, readerNext, bcc1, bcc2, decodeControl, Except.toOption, exec, execFlag, execRej0, State.onREJ,
    State.readerStop, State.disarm, State.countInvalid, State.countRetransmission, State.retransmit, State.requestFrame, State.transmit,
    State.emit, encodeIFrame, stuffedRegion, stuff, stuffByte, State.payload, controlOfI, TimedOp.txPhase, State.takeTx, State.txDone,
    State.startWait, State.readerInit, State.arm]

def rejected (n : Nat) : State := rejectedAt (BitVec.ofNat 32 n) (11 * n)

/-- "With REJ_CONSUMES_RETRY = false a sender that keeps receiving REJ retransmits for ever": after any number of rejections it is in
SEND_WAIT again, one retransmission on for each, its one attempt still not used up. -/
theorem rejected_for_ever (n : Nat) : Host.Core.run Sys2Proof.core (11 * n) (rejected 0) = .next (rejected n) :=
  run_periods (fun n => by unfold rejected; rw [run_rejection, Nat.mul_succ, BitVec.ofNat_add]; rfl) n

end Sys2Proof.Machine
end

