-- ==== Sys2Proof/Tests/Slice0.lean ====
section
/-! SUPPORT. Tests of one step each, expected results from spec/, and for every statement a state and operands that meet its hypotheses. -/

namespace Sys2Proof.Tests

open Sys2Proof Sys2Proof.Machine

/-- The next state, if there is one. -/
def nextOf : Result → Option State
  | .next s => some s
  | .fault _ | .refused _ => none

/-- An engine of the reset instance, in a session with a retry limit of 2 and a timeout of 3, in phase `p`, the events `es` to come. -/
def inPhase (p : Phase) (es : List Event) : State :=
  { State.reset with
    phase := p, sess := if p.isOpening then .closed else .opened, retryLimit := 2, timeoutDuration := 3, events := es }

/-- The same with a complete header for control byte `c` held by the reader. -/
def holding (p : Phase) (c : Byte) (es : List Event) : State := { inPhase p es with rs := .bccOk, ctl := c }

/-- A receiver of toggle `t` collecting, with the bytes `region` collected. -/
def collecting (t : Toggle) (region : List Byte) (es : List Event) : State :=
  { inPhase .recvWait es with
    rs := .collecting, ctl := C_I0, expectToggle := t, raw := Memory.writeBytes [] 0 region, rawLen := BitVec.ofNat 18 region.length }

/-- An idle engine without a session. -/
def closedIdle (es : List Event) : State := { State.reset with events := es }

/-! ### WellFormed: an ill-formed term for each check -/

theorem test_wellFormed_open_zero_timeout : (Instr.openCmd .initiator 3 0).wellFormed Config.params = false := by decide
theorem test_wellFormed_send_over_max : (Instr.sendCmd 17).wellFormed Config.params = false := by decide
theorem test_wellFormed_escAny_flag : (Instr.escAny 0x7E).wellFormed Config.params = false := by decide
theorem test_wellFormed_escAny_5E : (Instr.escAny 0x5E).wellFormed Config.params = false := by decide
theorem test_wellFormed_escAny_5D : (Instr.escAny 0x5D).wellFormed Config.params = false := by decide
theorem test_wellFormed_ok :
    (Instr.sendCmd 16).wellFormed Config.params = true ∧ (Instr.openCmd .responder 0 1).wellFormed Config.params = true ∧
      (Instr.escAny 0x7D).wellFormed Config.params = true := by decide

/-! ### Decode: words written out from the encodings of 30_encoding.md (R110 to R114, R95, R99) -/

/-- op 00, role 1, reserved 00000, retry_limit 00000011, timeout_duration 0x0003 (95_test_vectors.md V6). -/
theorem test_decode_open :
    decodeTableWord 32 0b00_1_00000_00000011_0000000000000011 = some (.openCmd .responder 3 3) := by decide
theorem test_decode_send : decodeTableWord 32 0b01_00000000000000_0000000000000011 = some (.sendCmd 3) := by decide
theorem test_decode_receive : decodeTableWord 32 0b10_000000000000000000000000000000 = some .receiveCmd := by decide
theorem test_decode_close : decodeTableWord 32 0b11_1_00000000000000000000000000000 = some (.closeCmd true) := by decide
theorem test_decode_set : decodeTableWord 8 0b00000011 = some .set := by decide
theorem test_decode_ua : decodeTableWord 8 0b00000111 = some .ua := by decide
theorem test_decode_disc : decodeTableWord 8 0b00001011 = some .disc := by decide
theorem test_decode_rr0 : decodeTableWord 8 0b10101010 = some .rr0 := by decide
theorem test_decode_rr1 : decodeTableWord 8 0b10101011 = some .rr1 := by decide
theorem test_decode_rej0 : decodeTableWord 8 0b01010100 = some .rej0 := by decide
theorem test_decode_rej1 : decodeTableWord 8 0b01010101 = some .rej1 := by decide
theorem test_decode_i0 : decodeTableWord 8 0b00000000 = some .i0 := by decide
theorem test_decode_i1 : decodeTableWord 8 0b10000000 = some .i1 := by decide
theorem test_decode_flag : decodeTableWord 8 0b01111110 = some .flag := by decide
theorem test_decode_escFlag : decodeTableWord 16 0b01111101_01011110 = some .escFlag := by decide
theorem test_decode_escEsc : decodeTableWord 16 0b01111101_01011101 = some .escEsc := by decide
theorem test_decode_escAny : decodeTableWord 16 0b01111101_01000001 = some (.escAny 0x41) := by decide
theorem test_decode_refused :
    decode (.command 0x01030003) = .error .reservedBit ∧ decode (.byte 0x01) = .error .noSuchControl ∧
      decode (.pair 0x41 0x5E) = .error .notAnEscape ∧ decode (.pair 0x7D 0x7E) = .error .danglingEscape := by decide

/-! ### One step each, from the vectors of 95_test_vectors.md -/

/-- V7a row 1. -/
theorem test_open_initiator :
    (nextOf (step (closedIdle [.cmd 0x00030002 true]))).map (fun t => (t.phase, t.txq, t.tries, t.timeoutDuration)) =
      some (.openITx, [0x7E, 0x03, 0x03, 0x00, 0x7E], 1, 2) := by decide
/-- V6: `timeout_duration = 0` is checked before `avail`. -/
theorem test_open_zero_timeout :
    (nextOf (step (closedIdle [.cmd 0x00030000 false]))).map (fun t => (t.phase, t.done, t.status)) = some (.idle, true, .cmdError) := by
  decide
/-- V8a row 2. -/
theorem test_send_stuffs :
    (nextOf (step { inPhase .idle [.cmd 0x40000002 true] with txbuf := [(0, 0x7E), (1, 0x7D)], sendToggle := true })).map
        (fun t => (t.phase, t.txq, t.opLen)) =
      some (.sendTx, [0x7E, 0x03, 0x80, 0x83, 0x7D, 0x5E, 0x7D, 0x5D, 0x03, 0x7E], 2) := by decide
/-- V6: SEND with `len = 17`. -/
theorem test_send_too_long :
    (nextOf (step (inPhase .idle [.cmd 0x40000011 true]))).map (fun t => (t.phase, t.done, t.status, t.opLen)) =
      some (.idle, true, .cmdError, 0) := by decide
/-- V9a row 1. -/
theorem test_receive :
    (nextOf (step { inPhase .idle [.cmd 0x80000000 true] with done := true })).map (fun t => (t.phase, t.done)) =
      some (.recvWait, false) := by decide
/-- V7c, second trace, row 1. -/
theorem test_close_initiator :
    (nextOf (step (inPhase .idle [.cmd 0xE0000000 true]))).map (fun t => (t.phase, t.txq, t.statsValid)) =
      some (.closeITx, [0x7E, 0x03, 0x0B, 0x08, 0x7E], true) := by decide
/-- V7b row 3. -/
theorem test_set :
    (nextOf (step (holding .openRWait 0x03 [.rx 0x7E]))).map (fun t => (t.phase, t.txq)) =
      some (.openRTx, [0x7E, 0x01, 0x07, 0x06, 0x7E]) := by decide
/-- V7a row 6. -/
theorem test_ua :
    (nextOf (step { holding .openIWait 0x07 [.rx 0x7E] with armed := true })).map
        (fun t => (t.phase, t.sess, t.armed, t.done, t.status)) = some (.idle, .opened, false, true, .ok) := by decide
/-- V7a row 9: `chan_release pulses`. -/
theorem test_disc_initiator :
    (nextOf (step (holding .closeIWait 0x0B [.rx 0x7E]))).map (fun t => (t.phase, t.sess, t.chanRelease)) =
      some (.idle, .closed, true) := by decide
/-- V7b row 10. -/
theorem test_disc_responder :
    (nextOf (step (holding .closeRWait 0x0B [.rx 0x7E]))).map (fun t => (t.phase, t.txq, t.sess)) =
      some (.closeRTx, [0x7E, 0x01, 0x0B, 0x0A, 0x7E], .opened) := by decide
/-- V8a row 4. -/
theorem test_rr0 :
    (nextOf (step { holding .sendWait 0xAA [.rx 0x7E] with sendToggle := true, opLen := 2, framesTotal := 1, framesValid := 1 })).map
        (fun t => (t.phase, t.sendToggle, t.framesTotal, t.framesValid, t.resultLen)) = some (.idle, false, 2, 2, 2) := by decide
/-- R41 and R44, the wrap law of V12: `frames_valid = 0xFFFFFFFF` before an acknowledging RR. -/
theorem test_rr1_counter_wraps :
    (nextOf (step { holding .sendWait 0xAB [.rx 0x7E] with framesTotal := 0xFFFFFFFF, framesValid := 0xFFFFFFFF })).map
        (fun t => (t.framesTotal, t.framesValid, t.sendToggle)) = some (0, 0, true) := by decide
/-- V8d row 5, left: the REJ that finds the budget used up. -/
theorem test_rej0_exhausts :
    (nextOf (step { holding .sendWait 0x54 [.rx 0x7E] with tries := 2 })).map
        (fun t => (t.phase, t.status, t.framesInvalid, t.retransmissions, t.sess)) = some (.idle, .linkExhausted, 1, 1, .opened) := by
  decide
/-- V8d row 3: the toggle the REJ names is not looked at. -/
theorem test_rej1_retransmits :
    (nextOf (step { holding .sendWait 0x55 [.rx 0x7E] with tries := 1, opLen := 1, txbuf := [(0, 0x41)] })).map
        (fun t => (t.phase, t.txq, t.tries, t.framesInvalid)) =
      some (.sendTx, [0x7E, 0x03, 0x00, 0x03, 0x41, 0x41, 0x7E], 2, 1) := by decide
/-- V9a row 2: a new frame. -/
theorem test_i0_new :
    (nextOf (step (collecting false [0x41, 0x42, 0x43, 0x40] [.rx 0x7E]))).map
        (fun t => (t.phase, (List.range 4).map t.rxbuf.read?, t.rxLen, t.txq)) =
      some (.recvTxAck, [some 0x41, some 0x42, some 0x43, none], 3, [0x7E, 0x01, 0xAB, 0xAA, 0x7E]) := by decide
/-- P2, engine Y, row 7: a duplicate. -/
theorem test_i0_duplicate :
    (nextOf (step (collecting true [0x41, 0x42, 0x43, 0x40] [.rx 0x7E]))).map
        (fun t => (t.phase, t.rxbuf.read? 0, t.framesDuplicate, t.txq)) =
      some (.recvTxDup, none, 1, [0x7E, 0x01, 0xAB, 0xAA, 0x7E]) := by decide
/-- V9c row 4: a dangling escape, `expect_toggle = 1`. -/
theorem test_i1_rejected :
    (nextOf (step { collecting true [0x41, 0x7D] [.rx 0x7E] with ctl := 0x80 })).map (fun t => (t.phase, t.txq, t.framesInvalid)) =
      some (.recvTxRej, [0x7E, 0x01, 0x55, 0x54, 0x7E], 1) := by decide
/-- R151: FLAG opens a header. -/
theorem test_flag_opens : (nextOf (step (inPhase .sendWait [.rx 0x7E]))).map (fun t => (t.phase, t.rs)) = some (.sendWait, .flagSeen) := by
  decide
/-- R156, R157, R134: the pair 7D 5E stands for 0x7E. -/
theorem test_escFlag :
    (nextOf (step (collecting false [0x7D] [.rx 0x5E]))).map (fun t => (t.rawBytes, destuff t.rawBytes)) =
      some ([0x7D, 0x5E], some [0x7E]) := by decide
theorem test_escEsc :
    (nextOf (step (collecting false [0x7D] [.rx 0x5D]))).map (fun t => (t.rawBytes, destuff t.rawBytes)) =
      some ([0x7D, 0x5D], some [0x7D]) := by decide
/-- R134: the byte after ESC is XORed with 0x20 whatever it is. -/
theorem test_escAny :
    (nextOf (step (collecting false [0x41, 0x7D] [.rx 0x7D]))).map (fun t => (t.rawBytes, destuff t.rawBytes)) =
      some ([0x41, 0x7D, 0x7D], some [0x41, 0x5D]) := by decide
/-- P5 row 3. -/
theorem test_channel_error_in_receive :
    (nextOf (step (collecting false [0x41, 0x42] [.chanErr]))).map (fun t => (t.phase, t.status, t.sess, t.rawLen, t.chanRelease)) =
      some (.idle, .ioError, .opened, 2, false) := by decide
/-- V7b row 8: the session opens when the last byte of UA is taken. -/
theorem test_last_byte_of_ua :
    (nextOf (step { inPhase .openRTx [.txTake] with txq := [0x7E] })).map (fun t => (t.phase, t.sess, t.txOut)) =
      some (.idle, .opened, some 0x7E) := by decide
/-- V13: the status registers of an initiator in SEND_WAIT whose reader has seen an address. -/
theorem test_status_registers :
    ({ inPhase .sendWait [] with rs := .addressSeen, armed := true } : State).sr 0 = 0x00019430 ∧
      ({ inPhase .sendWait [] with tries := 1, remaining := 2, ctl := 0x07 } : State).sr 9 = 0x07000201 := ⟨rfl, rfl⟩

/-! ### Witnesses: encoding -/

theorem witness_DecodeOfEncode :
    (Instr.openCmd .responder 255 65535).encodable = true ∧ (Instr.openCmd .initiator 0 0).encodable = true ∧
      (Instr.sendCmd 65535).encodable = true ∧ (Instr.escAny 0xFF).encodable = true ∧ (Instr.escAny 0x5C).encodable = true := by decide

theorem witness_EncodeOfDecode :
    decode (.command 0xC0000000) = .ok (.closeCmd false) ∧ decode (.byte 0x80) = .ok .i1 ∧
      decode (.pair 0x7D 0x5F) = .ok (.escAny 0x5F) := by decide

/-- The lowest and the highest reserved bit of each operation. -/
theorem witness_ReservedBitRefused :
    (closedIdle []).params.ok = true ∧ (closedIdle []).phase = .idle ∧
      (∀ w ∈ [0x01000000#32, 0x10000000], w.extractLsb' 30 2 = 0 ∧ w.extractLsb' 24 5 ≠ 0) ∧
      (∀ w ∈ [0x40010000#32, 0x60000000], w.extractLsb' 30 2 = 1 ∧ w.extractLsb' 16 14 ≠ 0) ∧
      (∀ w ∈ [0x80000001#32, 0xA0000000], w.extractLsb' 30 2 = 2 ∧ w.extractLsb' 0 30 ≠ 0) ∧
      (∀ w ∈ [0xC0000001#32, 0xD0000000], w.extractLsb' 30 2 = 3 ∧ w.extractLsb' 0 29 ≠ 0) :=
  ⟨by decide, rfl, by simp, by simp, by simp, by simp⟩

/-! ### Witnesses: steps -/

theorem witness_StepRunsDecodedInstr_command :
    (closedIdle [.cmd 0x00000001 true]).params.ok = true ∧ (closedIdle [.cmd 0x00000001 true]).phase = .idle ∧
      decode (.command 0x00000001) = .ok (.openCmd .initiator 0 1) := by decide

theorem witness_StepRunsDecodedInstr_frame :
    (holding .sendWait 0xAA [.rx FLAG]).phase.isWait = true ∧ (holding .sendWait 0xAA [.rx FLAG]).rs = .bccOk ∧
      decodeControl (holding .sendWait 0xAA [.rx FLAG]).ctl = .ok .rr0 ∧
      (collecting false [0x41] [.rx FLAG]).rs = .collecting ∧ isInfo (collecting false [0x41] [.rx FLAG]).ctl = true ∧
      decodeControl (collecting false [0x41] [.rx FLAG]).ctl = .ok .i0 ∧
      (inPhase .recvWait [.rx FLAG]).rs ≠ .bccOk ∧ (inPhase .recvWait [.rx FLAG]).rs ≠ .collecting := by decide

theorem witness_StepRunsDecodedInstr_pair :
    (collecting false [0x41, 0x7D] [.rx 0x20]).phase.isWait = true ∧
      destuff (collecting false [0x41, 0x7D] [.rx 0x20]).rawBytes = none ∧ decode (.pair ESC 0x20) = .ok (.escAny 0x20) := by decide

theorem witness_DisabledEventChangesNothing :
    (inPhase .idle []).upcoming = [] ∧ (inPhase .recvWait [.cmd 0 true]).upcoming = [.cmd 0 true] ∧
      (inPhase .recvWait [.cmd 0 true]).phase ≠ .idle ∧
      (inPhase .idle [.rx 0x7E]).phase.isWait = false ∧ (inPhase .idle [.txTake]).txq = [] ∧
      (inPhase .recvWait [.hostBufWrite 0 1]).phase ≠ .idle ∧
      (inPhase .idle [.hostBufWrite 16 1]).params.maxPayload ≤ (16#16).toNat := by decide

/-- R14 (b): when the list is used up a repeating source gives its events again. -/
theorem test_source_repeats :
    (nextOf (step { inPhase .sendWait [] with source := .repeating [.tick, .rx 0x7E], armed := true, remaining := 3 })).map
        (fun t => (t.remaining, t.events, t.steps)) = some (2, [.rx 0x7E], 1) := by decide

/-- Both sides hold of some state, and both fail of some. -/
theorem witness_BadParametersRefused :
    step { closedIdle [] with params := ⟨0x03, 0x03, 16, true⟩ } = .refused .parametersOutsideSpec ∧
      step { closedIdle [] with params := ⟨0x03, 0x01, 65536, true⟩ } = .refused .parametersOutsideSpec ∧
      step { closedIdle [] with params := ⟨0x03, 0x01, 65535, true⟩ } =
        .next { closedIdle [] with params := ⟨0x03, 0x01, 65535, true⟩ } := ⟨rfl, rfl, rfl⟩

/-! ### Witnesses: codec -/

theorem witness_StuffingRoundTrip : ([0x7E, 0x7D] : List Byte).length ≤ 2 ∧ ([] : List Byte).length ≤ 0 := by decide

theorem witness_StuffingExhaustive : stuff [0x41, 0x7E] = [0x41] ++ ESC :: [0x5E] := by decide

theorem witness_DestuffFailsOnlyDangling :
    destuff [0x7D, 0x7D] = some [0x5D] ∧ destuff [0x7D] = none ∧ destuff [0x7D, 0x7D, 0x7D] = none := by decide

theorem witness_FramesDelimited : Config.params.ok = true ∧ C_DISC ∈ [C_SET, C_DISC] ∧ C_REJ1 ∈ [C_UA, C_DISC, C_RR0, C_RR1, C_REJ0, C_REJ1] := by
  decide

theorem witness_PayloadAcceptedExactly :
    checkPayload 2 [0x41, 0x41] false = .accept [0x41] ∧ checkPayload 0 [0x00] false = .accept [] ∧
      checkPayload 0 [0x41, 0x41] false = .reject .overLength := by decide

theorem witness_BoundedBufferIsExact :
    (inPhase .recvWait []).params.maxPayload ≤ 65535 ∧ (inPhase .recvWait []).rawLen = 0 ∧ (inPhase .recvWait []).ovf = false := by decide

/-! ### Witnesses: host commands -/

theorem witness_OpenInitiatorSendsSet :
    (closedIdle []).phase = .idle ∧ (closedIdle []).sess = .closed ∧ (1#16 ≠ 0) ∧ ({ closedIdle [] with chanAvail := true } : State).chanAvail = true ∧
      (1#8 ≠ 0) := by decide

theorem witness_OpenResponderWaits :
    (closedIdle []).phase = .idle ∧ (closedIdle []).sess = .closed ∧ (65535#16 ≠ 0) ∧
      ({ closedIdle [] with chanAvail := true } : State).chanAvail = true := by decide

theorem witness_OpenChannelUnavailable :
    (closedIdle []).phase = .idle ∧ (closedIdle []).sess = .closed ∧ (1#16 ≠ 0) ∧ (closedIdle []).chanAvail = false ∧
      (closedIdle []).armed = false := by decide

theorem witness_ZeroRetryLimitFailsAtOnce :
    (closedIdle []).phase = .idle ∧ (closedIdle []).sess = .closed ∧ ({ inPhase .idle [] with retryLimit := 0 } : State).sess = .opened ∧
      ({ inPhase .idle [] with retryLimit := 0 } : State).role = .initiator ∧
      (16#16).toNat ≤ (inPhase .idle []).params.maxPayload := by decide

theorem witness_IllegalCommandsRefused :
    (inPhase .idle []).phase = .idle ∧ (inPhase .idle []).sess = .opened ∧ (closedIdle []).sess = .closed ∧
      (inPhase .idle []).params.maxPayload < (17#16).toNat := by decide

theorem witness_SendEmitsFrame :
    (inPhase .idle []).phase = .idle ∧ (inPhase .idle []).sess = .opened ∧ (16#16).toNat ≤ (inPhase .idle []).params.maxPayload ∧
      (inPhase .idle []).retryLimit ≠ 0 := by decide

theorem witness_ReceiveStartsReading : (inPhase .idle []).phase = .idle ∧ (inPhase .idle []).sess = .opened := by decide

theorem witness_CloseStartsHandshake :
    (inPhase .idle []).phase = .idle ∧ (inPhase .idle []).sess = .opened ∧ (inPhase .idle []).role = .initiator ∧
      (inPhase .idle []).retryLimit ≠ 0 ∧ ({ inPhase .idle [] with role := .responder } : State).role = .responder := by decide

theorem witness_BusyTakesNoCommand : (inPhase .sendTx []).phase ≠ .idle := by decide

/-! ### Witnesses: frames received -/

theorem witness_SetAnsweredByUa : (inPhase .openRWait []).phase = .openRWait := rfl
theorem witness_UaOpensSession : (inPhase .openIWait []).phase = .openIWait := rfl
theorem witness_DiscClosesOrIsAnswered :
    (inPhase .closeIWait []).phase = .closeIWait ∧ (inPhase .closeRWait []).phase = .closeRWait := ⟨rfl, rfl⟩

/-- Both toggles, for R214 and for R215. -/
theorem witness_AcknowledgingRrCompletesSend :
    (inPhase .sendWait []).phase = .sendWait ∧ (inPhase .sendWait []).sendToggle = false ∧
      ({ inPhase .sendWait [] with sendToggle := true } : State).sendToggle = true := by decide
theorem witness_SameToggleRrIgnored :
    (inPhase .sendWait []).phase = .sendWait ∧ (inPhase .sendWait []).sendToggle = false ∧
      ({ inPhase .sendWait [] with sendToggle := true } : State).sendToggle = true := by decide

/-- One unit left, and none; with a parameter that does not count REJs, at an empty budget. -/
theorem witness_RejRetransmitsAtOnce :
    (({ inPhase .sendWait [] with tries := 1 } : State).tries < (inPhase .sendWait []).retryLimit) ∧
      ((inPhase .sendWait []).retryLimit ≤ ({ inPhase .sendWait [] with tries := 2 } : State).tries) ∧
      (inPhase .sendWait []).params.rejConsumesRetry = true ∧
      ({ inPhase .sendWait [] with params := ⟨0x03, 0x01, 16, false⟩ } : State).params.rejConsumesRetry = false := by decide

theorem witness_RejectedFrameAnsweredByRej :
    (collecting false [] []).phase = .recvWait ∧
      checkPayload (collecting false [] []).params.maxPayload (collecting false [] []).rawBytes (collecting false [] []).ovf =
        .reject .emptyRegion := by decide
theorem witness_DuplicateFrameAcknowledgedAgain :
    (collecting true [0x00] []).phase = .recvWait ∧ (collecting true [0x00] []).expectToggle = true ∧
      (collecting false [0x00] []).expectToggle = false ∧
      checkPayload (collecting true [0x00] []).params.maxPayload (collecting true [0x00] []).rawBytes false = .accept [] := by decide
theorem witness_NewFrameDelivered :
    (collecting false [0x41, 0x41] []).phase = .recvWait ∧ (collecting false [0x41, 0x41] []).expectToggle = false ∧
      (collecting true [0x41, 0x41] []).expectToggle = true ∧
      checkPayload (collecting false [0x41, 0x41] []).params.maxPayload (collecting false [0x41, 0x41] []).rawBytes false =
        .accept [0x41] := by decide
theorem witness_UnacceptedFrameIgnored :
    decodeControl C_SET = .ok .set ∧ C_SET ∉ (inPhase .recvWait []).phase.accept ∧ (inPhase .recvWait []).phase.isWait = true ∧
      (inPhase .recvWait []).rs = .start ∧ C_SET ∉ (inPhase .idle []).phase.accept ∧ (inPhase .idle []).phase.isWait = false := by decide

/-! ### Witnesses: delimiter and escape pairs -/

theorem witness_FlagOpensOrEndsFrame :
    (inPhase .idle []).phase.isWait = false ∧ (inPhase .recvWait []).phase.isWait = true ∧ (inPhase .recvWait []).rs = .start ∧
      (holding .recvWait C_I1 []).rs = .bccOk ∧ decodeControl C_I1 = .ok .i1 ∧ (collecting false [] []).rs = .collecting ∧
      isInfo (collecting false [] []).ctl = true := by decide

/-- With room in the buffer, and (MAX_PAYLOAD = 0) with a buffer of two cells that is full. -/
theorem witness_EscapePairDestuffs :
    (collecting false [0x41, 0x7D] []).phase.isWait = true ∧ (collecting false [0x41, 0x7D] []).rs = .collecting ∧
      (collecting false [0x41, 0x7D] []).rawBytes = [0x41] ++ [ESC] ∧ destuff [0x41] = some [0x41] ∧
      (collecting false [0x41, 0x7D] []).rawLen.toNat < (collecting false [0x41, 0x7D] []).params.rawCap ∧
      (⟨0x03, 0x01, 0, true⟩ : Params).rawCap ≤
        ({ collecting false [0x41, 0x7D] [] with params := ⟨0x03, 0x01, 0, true⟩ } : State).rawLen.toNat ∧
      (⟨0x03, 0x01, 0, true⟩ : Params).maxPayload ≤ 65535 := by decide

/-- Each reader state named; in FLAG_SEEN, ADDRESS_SEEN and CONTROL_SEEN a byte on either side of the reader's test. -/
theorem witness_EscapeBytesPlainOutsideRegion :
    (inPhase .sendWait []).phase.isWait = true ∧ (inPhase .sendWait []).rs = .start ∧ (holding .sendWait C_RR0 []).rs = .bccOk ∧
      isInfo C_RR0 = false ∧ (0x01#8 ≠ 0x7E) ∧ 0x01#8 = (inPhase .sendWait []).phase.expAddr Config.params ∧
      0x5E#8 ≠ (inPhase .sendWait []).phase.expAddr Config.params ∧ C_REJ0 ∈ (inPhase .sendWait []).phase.accept ∧
      0x5D#8 ∉ (inPhase .sendWait []).phase.accept ∧ 0xAB#8 = 0x01#8 ^^^ C_RR0 ∧ 0x5E#8 ≠ 0x01#8 ^^^ C_RR0 ∧
      (inPhase .sendTx []).phase.isWait = false := by decide

/-- The same state with the reader in `r`. -/
theorem witness_EscapeBytesPlainOutsideRegion_reader :
    ∀ r ∈ [ReaderState.flagSeen, .addressSeen, .controlSeen], ({ inPhase .sendWait [] with rs := r } : State).rs = r := by decide

/-! ### Witnesses: frames -/

theorem witness_HostCommandFrame :
    (∃ t, exec (.sendCmd 0) (inPhase .idle []) = .next t) ∧ (∃ t, exec (.openCmd .responder 0 1) (closedIdle []) = .next t) ∧
      (∃ t, exec .receiveCmd (inPhase .idle []) = .next t) ∧ ∃ t, exec (.closeCmd true) (inPhase .idle []) = .next t :=
  ⟨⟨_, rfl⟩, ⟨_, rfl⟩, ⟨_, rfl⟩, ⟨_, rfl⟩⟩
theorem witness_SupervisoryFrameFrame :
    ∀ i ∈ [Instr.set, .ua, .disc, .rr0, .rr1, .rej0, .rej1], (nextOf (exec i (inPhase .sendWait []))).isSome = true := by decide
theorem witness_InformationFrameFrame :
    ∀ i ∈ [Instr.i0, .i1], (nextOf (exec i (collecting false [0x41, 0x41] []))).isSome = true := by decide
theorem witness_EscapePairFrame :
    ∀ i ∈ [Instr.escFlag, .escEsc, .escAny 0x41], (nextOf (exec i (collecting false [0x7D] []))).isSome = true := by decide

/-! ### Witnesses: events -/

theorem witness_TxTakeDrainsQueue :
    ∀ p ∈ [Phase.openITx, .openRTx, .sendTx, .recvTxRej, .recvTxDup, .recvTxAck, .closeITx, .closeRTx],
      (inPhase p [.txTake]).params.ok = true ∧ (inPhase p [.txTake]).upcoming = .txTake :: [] ∧
        ({ inPhase p [.txTake] with txq := [0x7E] } : State).txq = 0x7E :: [] ∧
        ({ inPhase p [.txTake] with txq := [0x7E, 0x7E] } : State).txq = 0x7E :: [0x7E] := by decide

/-- None, and one less than the timer has. -/
theorem witness_TimerRunsItsTicks :
    ({ inPhase .sendWait [.tick, .tick] with armed := true, remaining := 3 } : State).armed = true ∧ 0 < (3#16).toNat ∧ 2 < (3#16).toNat ∧
      [Event.tick, .tick] = List.replicate 2 Event.tick ++ [] := by decide

theorem witness_ExpiryRetriesOrFails :
    ∀ p ∈ [Phase.openIWait, .sendWait, .closeIWait],
      (inPhase p [.tick]).params.ok = true ∧ ({ inPhase p [.tick] with armed := true, remaining := 1 } : State).remaining = 1 ∧
        ({ inPhase p [.tick] with tries := 1 } : State).tries < (inPhase p []).retryLimit ∧
        (inPhase p []).retryLimit ≤ ({ inPhase p [.tick] with tries := 2 } : State).tries := by decide

theorem witness_ChannelErrorAborts :
    (inPhase .idle [.chanErr]).params.ok = true ∧ (inPhase .idle [.chanErr]).phase = .idle ∧ (inPhase .closeRTx [.chanErr]).phase ≠ .idle ∧
      (inPhase .openITx [.chanErr]).phase ≠ .idle ∧ (inPhase .sendTx [.chanErr]).phase ≠ .idle := by decide

theorem witness_ResetClearsRegisters :
    (inPhase .sendWait [.reset]).params.ok = true ∧ (inPhase .sendWait [.reset]).upcoming = .reset :: [] := by decide

/-- The first and the last cell. -/
theorem witness_HostWritesTxbuf :
    (closedIdle [.hostBufWrite 0 0x41]).params.ok = true ∧ (closedIdle [.hostBufWrite 0 0x41]).phase = .idle ∧
      (0#16).toNat < (closedIdle []).params.maxPayload ∧ (15#16).toNat < (closedIdle []).params.maxPayload := by decide

/-! ### Witnesses: the whole machine -/

theorem witness_InvAfterReset : Config.params.ok = true ∧ (⟨0x03, 0x01, 65535, false⟩ : Params).ok = true ∧ (⟨0x03, 0x01, 0, true⟩ : Params).ok = true := by
  decide

theorem test_receiver_meets_control : (inPhase .recvWait []).ControlInv :=
  ⟨by decide, by decide, by decide, by decide, by decide, by decide, by decide, by decide, by decide, by decide, by decide⟩

theorem test_receiver_meets_reader : (inPhase .recvWait []).ReaderInv :=
  ⟨by decide, by decide, by decide, by decide, by decide, fun i hi => absurd hi (Nat.not_lt_zero i), by decide, by decide⟩

theorem test_nothing_written_within (n : Nat) : Memory.within [] n := ⟨.nil, fun _ h => nomatch h⟩

/-- A receiver waiting for a frame meets the invariant, whatever events are to come. -/
theorem test_receiver_meets_inv (es : List Event) : (inPhase .recvWait es).Inv :=
  have h := test_receiver_meets_control
  have r := test_receiver_meets_reader
  ⟨⟨h.1, h.2, h.3, h.4, h.5, h.6, h.7, h.8, h.9, h.10, h.11⟩, ⟨r.1, r.2, r.3, r.4, r.5, r.6, r.7, r.8⟩,
    ⟨test_nothing_written_within _, test_nothing_written_within _, test_nothing_written_within _⟩, rfl⟩

theorem witness_StepKeepsInv :
    (inPhase .recvWait [.rx 0x7E]).Inv ∧ ∃ t, step (inPhase .recvWait [.rx 0x7E]) = .next t ∧ t.rs = .flagSeen :=
  ⟨test_receiver_meets_inv _, _, rfl, rfl⟩

theorem witness_InvStatesNeverStop : (inPhase .recvWait []).params.ok = true ∧ (inPhase .recvWait []).Inv :=
  ⟨by decide, test_receiver_meets_inv _⟩

/-- The acknowledgment, the reset and the OPEN. -/
theorem witness_SendToggleFlipsOnlyOnAck :
    (∃ t, step (holding .sendWait C_RR1 [.rx FLAG]) = .next t ∧ t.sendToggle ≠ (holding .sendWait C_RR1 [.rx FLAG]).sendToggle) ∧
      (∃ t, step { closedIdle [.reset] with sendToggle := true } = .next t ∧ t.sendToggle ≠ true) ∧
      ∃ t, step { closedIdle [.cmd 0x20000001 true] with sendToggle := true } = .next t ∧ t.sendToggle ≠ true :=
  ⟨⟨_, rfl, by decide⟩, ⟨_, rfl, by decide⟩, ⟨_, rfl, by decide⟩⟩

theorem witness_ExpectToggleFlipsOnlyOnNewFrame :
    (∃ t, step (collecting false [0x00] [.rx FLAG]) = .next t ∧ t.expectToggle ≠ (collecting false [0x00] [.rx FLAG]).expectToggle) ∧
      (∃ t, step { closedIdle [.reset] with expectToggle := true } = .next t ∧ t.expectToggle ≠ true) ∧
      ∃ t, step { closedIdle [.cmd 0x20000001 true] with expectToggle := true } = .next t ∧ t.expectToggle ≠ true :=
  ⟨⟨_, rfl, by decide⟩, ⟨_, rfl, by decide⟩, ⟨_, rfl, by decide⟩⟩

theorem witness_CountersMoveOnlyAsListed :
    ∃ t, step { inPhase .sendWait [.tick] with armed := true, remaining := 1 } = .next t ∧ t.counters = ⟨0, 0, 0, 0, 1, 1⟩ := ⟨_, rfl, rfl⟩

theorem witness_BuffersWrittenOnlyAsListed :
    ∃ t, step (collecting false [0x41, 0x41] [.rx FLAG]) = .next t ∧ t.rxbuf = [(0, 0x41)] := ⟨_, rfl, by decide⟩

theorem witness_OpenOperandsWrittenOnlyByOpen :
    ∃ t, step (closedIdle [.cmd 0x20030003 true]) = .next t ∧ t.role = .responder ∧ t.retryLimit = 3 := ⟨_, rfl, by decide, by decide⟩

theorem witness_CompletionPointIsQuiet :
    (inPhase .recvWait [.chanErr]).Inv ∧ (inPhase .recvWait [.chanErr]).done = false ∧
      ∃ t, step (inPhase .recvWait [.chanErr]) = .next t ∧ t.done = true :=
  ⟨test_receiver_meets_inv _, rfl, _, rfl, rfl⟩

/-- A clock edge with a FLAG and a tick, with and without a channel error. -/
def flagAndTick (err : Bool) : InPorts := ⟨false, false, 0, false, true, FLAG, false, err, true, false, 0, 0⟩

theorem witness_FrameWinsOverTickAndError_ports :
    ∀ err : Bool, (flagAndTick err).rst = false ∧ (flagAndTick err).rxValid = true ∧ (flagAndTick err).rxData = FLAG ∧
      (flagAndTick err).tick = true ∧ (flagAndTick err).chanErr = err := by decide

/-- The RR of either toggle, UA, DISC, and a REJ with the budget used up and not. -/
theorem witness_FrameWinsOverTickAndError :
    (∀ p ∈ [(Phase.sendWait, C_RR0), (.sendWait, C_RR1), (.openIWait, C_UA), (.closeIWait, C_DISC), (.sendWait, C_REJ0), (.sendWait, C_REJ1)],
        (holding p.1 p.2 []).params.ok = true ∧ (holding p.1 p.2 []).events = [] ∧ (holding p.1 p.2 []).rs = .bccOk) ∧
      ({ holding .sendWait C_RR0 [] with sendToggle := true } : State).sendToggle = true ∧
      (holding .sendWait C_RR1 []).sendToggle = false ∧ (holding .sendWait C_REJ0 []).params.rejConsumesRetry = true ∧
      (holding .sendWait C_REJ0 []).retryLimit ≤ ({ holding .sendWait C_REJ0 [] with tries := 2 } : State).tries ∧
      ({ holding .sendWait C_REJ1 [] with tries := 1 } : State).tries < (holding .sendWait C_REJ1 []).retryLimit := by decide

theorem witness_NoiseIsIgnored :
    (inPhase .sendWait []).params.ok = true ∧ (inPhase .sendWait []).phase.isWait = true ∧ (inPhase .sendWait []).rs = .start ∧
      FLAG ∉ ([0x7D, 0x00, 0xFF] : List Byte) ∧ FLAG ∉ ([] : List Byte) := by decide

theorem witness_SupervisoryFrameRecognised :
    (inPhase .openIWait []).params.ok = true ∧ (inPhase .openIWait []).phase.isWait = true ∧ (inPhase .openIWait []).rs = .start ∧
      ({ inPhase .openIWait [] with rs := .flagSeen } : State).rs = .flagSeen ∧ C_UA ∈ (inPhase .openIWait []).phase.accept ∧
      isInfo C_UA = false ∧ decodeControl C_UA = .ok .ua := by decide

/-- The byte that fails in each reader state, and the bytes of the three headers. -/
theorem witness_BadHeaderIsSilent :
    (inPhase .recvWait [.rx 0x01]).params.ok = true ∧ (inPhase .recvWait [.rx 0x01]).phase.isWait = true ∧
      (inPhase .recvWait [.rx 0x01]).upcoming = .rx 0x01 :: [] ∧ (0x01#8 ≠ FLAG) ∧
      (0x01#8 ≠ (inPhase .recvWait []).phase.expAddr Config.params) ∧ (0x01#8 ∉ (inPhase .recvWait []).phase.accept) ∧
      (0x01#8 ≠ (inPhase .recvWait []).phase.expAddr Config.params ^^^ C_I1) ∧ (holding .sendWait C_RR0 []).rs = .bccOk ∧
      isInfo C_RR0 = false ∧ (inPhase .recvWait []).events = [] ∧ (inPhase .recvWait []).rs = .start ∧
      C_SET ∉ (inPhase .recvWait []).phase.accept ∧ (C_SET ≠ FLAG) ∧ C_I1 ∈ (inPhase .recvWait []).phase.accept := by decide

theorem witness_BadHeaderIsSilent_reader :
    ∀ r ∈ [ReaderState.flagSeen, .addressSeen, .controlSeen], ({ inPhase .recvWait [.rx 0x01] with rs := r } : State).rs = r := by decide

/-- The empty payload and one of MAX_PAYLOAD bytes. -/
theorem witness_InformationFrameDeliversPayload :
    (inPhase .recvWait []).params.ok = true ∧ (inPhase .recvWait []).Inv ∧ (inPhase .recvWait []).events = [] ∧
      (inPhase .recvWait []).phase = .recvWait ∧ (inPhase .recvWait []).rs = .start ∧
      ([] : List Byte).length ≤ (inPhase .recvWait []).params.maxPayload ∧
      (List.replicate 16 (0x7E#8)).length ≤ (inPhase .recvWait []).params.maxPayload :=
  ⟨by decide, test_receiver_meets_inv _, rfl, rfl, rfl, by decide, by decide⟩

end Sys2Proof.Tests
end

/-! PROOFS. The handshake frames received in the wait that awaits them (spec/42_session_open_close.md R183, R187, R192, R196). -/

namespace Sys2Proof.Machine

/-! ### The arms of the handshake frames -/

theorem exec_set (s : State) : exec .set s = execSet s := rfl

theorem exec_ua (s : State) : exec .ua s = execUa s := rfl

theorem exec_disc (s : State) : exec .disc s = execDisc s := rfl

/-! ### What each does in its wait, as the shared operations -/

theorem execSet_of_openRWait {s : State} (h : s.phase = .openRWait) :
    execSet s = .next (s.readerStop.transmit (s.replyFrame C_UA) .openRTx) := if_pos h

theorem execUa_of_openIWait {s : State} (h : s.phase = .openIWait) :
    execUa s = .next ({ s.readerStop with sess := .opened }.complete .ok 0) := if_pos h

theorem execDisc_of_closeIWait {s : State} (h : s.phase = .closeIWait) :
    execDisc s = .next (s.readerStop.teardown.complete .ok 0) := if_pos h

theorem execDisc_of_closeRWait {s : State} (h : s.phase = .closeRWait) :
    execDisc s = .next (s.readerStop.transmit (s.replyFrame C_DISC) .closeRTx) := by
  have hI : s.phase ≠ .closeIWait := by simp [h]
  exact (if_neg hI).trans (if_pos h)

/-! ### The two ends of a handshake wait, field by field -/

/-- A supervisory reply leaves at `A_RPL` with its BCC1 (R97, R137). -/
theorem replyFrame_eq (s : State) (c : Byte) :
    s.replyFrame c = [0x7E, s.params.aRpl, c, s.params.aRpl ^^^ c, 0x7E] := rfl

/-- The step that recognises a frame and answers it moves `rs`, `phase` and the transmit queue, nothing else. -/
theorem readerStop_transmit_eq (s : State) (xs : List Byte) (p : Phase) :
    s.readerStop.transmit xs p = { s with rs := .start, phase := p, txq := xs } := by
  ext1 <;> simp

/-- `Complete` (R271), every field it writes. -/
theorem complete_eq (s : State) (st : Status) (n : BitVec 16) :
    s.complete st n = { s with armed := false, phase := .idle, done := true, status := st, resultLen := n } := by
  ext1 <;> simp

/-- `Teardown` (R198) in the step that recognises a frame. -/
theorem readerStop_teardown_eq (s : State) :
    s.readerStop.teardown = { s with rs := .start, sess := .closed, chanRelease := true } := by
  ext1 <;> simp

/-! ### The obligations -/

/-- Settles O23: SET in OPEN_R_WAIT is answered by UA at A_RPL, and only `rs`, `phase` and `txq` move. -/
theorem setAnsweredByUa : Obligations.SetAnsweredByUa := by
  intro s h
  rw [exec_set, execSet_of_openRWait h, readerStop_transmit_eq, replyFrame_eq, C_UA]

/-- Settles O24: UA in OPEN_I_WAIT opens the session and completes the OPEN. -/
theorem uaOpensSession : Obligations.UaOpensSession := by
  intro s h
  rw [exec_ua, execUa_of_openIWait h, complete_eq, State.readerStop]

/-- Settles O25: DISC ends the initiator's CLOSE by `Teardown` and `Complete`; the responder answers it with DISC at A_RPL. -/
theorem discClosesOrIsAnswered : Obligations.DiscClosesOrIsAnswered := by
  intro s
  constructor
  · intro h
    rw [exec_disc, execDisc_of_closeIWait h, complete_eq, readerStop_teardown_eq]
  · intro h
    rw [exec_disc, execDisc_of_closeRWait h, readerStop_transmit_eq, replyFrame_eq, C_DISC]

end Sys2Proof.Machine

/-! PROOFS. The acknowledgment received in SEND_WAIT (spec/43_session_send.md R214). -/

namespace Sys2Proof.Machine

/-! ### The arms of the two RR frames, and what each does in SEND_WAIT -/

theorem exec_rr0 (s : State) : exec .rr0 s = execRr0 s := rfl

theorem exec_rr1 (s : State) : exec .rr1 s = execRr1 s := rfl

theorem execRr0_of_sendWait {s : State} (h : s.phase = .sendWait) : execRr0 s = .next (s.onRR false) := if_pos h

theorem execRr1_of_sendWait {s : State} (h : s.phase = .sendWait) : execRr1 s = .next (s.onRR true) := if_pos h

/-! ### The RR that names the toggle other than `send_toggle` -/

theorem onRR_of_other {s : State} {t : Toggle} (h : t = !s.sendToggle) :
    s.onRR t = s.readerStop.flipSendToggle.countValid.complete .ok s.opLen := if_pos h

/-- What the step counts and flips before it completes the SEND: three fields besides `rs`. -/
theorem readerStop_flipSendToggle_countValid_eq (s : State) :
    s.readerStop.flipSendToggle.countValid = { s with
      rs := .start, sendToggle := !s.sendToggle, framesValid := s.framesValid + 1, framesTotal := s.framesTotal + 1 } := by
  ext1 <;> simp

/-! ### The obligation -/

/-- Settles O26: in SEND_WAIT either RR arm is `onRR` of the toggle it names, which for the toggle other than `send_toggle` flips, counts
and completes. -/
theorem acknowledgingRrCompletesSend : Obligations.AcknowledgingRrCompletesSend := by
  intro s i hphase hi
  have hrr : exec i s = .next (s.onRR (!s.sendToggle)) := by
    obtain ⟨rfl, htoggle⟩ | ⟨rfl, htoggle⟩ := hi
    · rw [exec_rr0, execRr0_of_sendWait hphase, htoggle, Bool.not_true]
    · rw [exec_rr1, execRr1_of_sendWait hphase, htoggle, Bool.not_false]
  rw [hrr, onRR_of_other rfl, readerStop_flipSendToggle_countValid_eq, complete_eq]

end Sys2Proof.Machine

/-! PROOFS. The decoder and the encoder are inverse to each other (spec/30_encoding.md R95, R99, R110 to R115). -/

namespace Sys2Proof

/-! ### Decoding an encoded command word -/

theorem decodeCommand_encodeOpen (role : Role) (n : BitVec 8) (t : BitVec 16) :
    decodeCommand (encodeOpen role n t) = .ok (.openCmd role n t) := by
  simp [decodeCommand, opField_encodeOpen, reserved_encodeOpen, roleField_encodeOpen, retryField_encodeOpen,
    timeoutField_encodeOpen]

theorem decodeCommand_encodeSend (len : BitVec 16) : decodeCommand (encodeSend len) = .ok (.sendCmd len) := by
  simp [decodeCommand, opField_encodeSend, reserved_encodeSend, lenField_encodeSend]

theorem decodeCommand_encodeReceive : decodeCommand encodeReceive = .ok .receiveCmd := by decide

theorem decodeCommand_encodeClose (stats : Bool) : decodeCommand (encodeClose stats) = .ok (.closeCmd stats) := by
  cases stats <;> decide

/-! ### Decoding a pair of region bytes -/

/-- The general form stands for every second byte that has no row of its own. -/
theorem decodePair_escAny {x : Byte} (h : (Instr.escAny x).encodable = true) : decodePair ESC x = .ok (.escAny x) := by
  simp only [Instr.encodable, Bool.and_eq_true, bne_iff_ne] at h
  obtain ⟨⟨hflag, h5E⟩, h5D⟩ := h
  simp only [decodePair, ne_eq, not_true_eq_false, FLAG, hflag, h5E, h5D, if_false]

/-- Settles O1: by the shape of the encoding; a command word by its fields read back, a byte by the closed match, a pair by its second byte. -/
theorem decodeOfEncode : Obligations.DecodeOfEncode := by
  intro i hi
  cases i with
  | openCmd role n t => exact decodeCommand_encodeOpen role n t
  | sendCmd len => exact decodeCommand_encodeSend len
  | receiveCmd => exact decodeCommand_encodeReceive
  | closeCmd stats => exact decodeCommand_encodeClose stats
  | escAny x => exact decodePair_escAny hi
  | set | ua | disc | rr0 | rr1 | rej0 | rej1 | i0 | i1 | flag | escFlag | escEsc => rfl

/-! ### Encoding what a command word decodes to -/

theorem toNat_roleBit_roleField (w : Word) : (roleBit (roleField w)).toNat = w.toNat / 2 ^ 29 % 2 := by
  have hbit : (roleBit (roleField w)).toNat = (w.getLsbD 29).toNat := by
    unfold roleField; cases w.getLsbD 29 <;> rfl
  rw [hbit, BitVec.getLsbD, Nat.toNat_testBit]

theorem toNat_encodeClose (stats : Bool) : (encodeClose stats).toNat = 3 * 2 ^ 30 + stats.toNat * 2 ^ 29 := by
  cases stats <;> rfl

theorem toNat_statsField (w : Word) : (statsField w).toNat = w.toNat / 2 ^ 29 % 2 := by
  rw [statsField, BitVec.getLsbD, Nat.toNat_testBit]

/-- A field that is zero, as a fact about the word's value. -/
theorem field_eq_zero {w : Word} {start len : Nat} (h : w.extractLsb' start len = 0) : w.toNat / 2 ^ start % 2 ^ len = 0 := by
  rw [← toNat_field, h]; rfl

theorem opField_value {w : Word} {n : Nat} (h : (opField w).toNat = n) : w.toNat / 2 ^ 30 % 4 = n := by
  rw [← h, opField, toNat_field]; rfl

theorem encodeOpen_fields {w : Word} (hop : (opField w).toNat = 0) (hres : w.extractLsb' 24 5 = 0) :
    encodeOpen (roleField w) (retryField w) (timeoutField w) = w := by
  have hop := opField_value hop
  have hres := field_eq_zero hres
  have := w.isLt
  apply BitVec.eq_of_toNat_eq
  rw [toNat_encodeOpen, toNat_roleBit_roleField, retryField, timeoutField, toNat_field, toNat_field]
  omega

theorem encodeSend_fields {w : Word} (hop : (opField w).toNat = 1) (hres : w.extractLsb' 16 14 = 0) :
    encodeSend (lenField w) = w := by
  have hop := opField_value hop
  have hres := field_eq_zero hres
  have := w.isLt
  apply BitVec.eq_of_toNat_eq
  rw [toNat_encodeSend, lenField, toNat_field]
  omega

theorem encodeReceive_fields {w : Word} (hop : (opField w).toNat = 2) (hres : w.extractLsb' 0 30 = 0) : encodeReceive = w := by
  have hop := opField_value hop
  have hres := field_eq_zero hres
  have := w.isLt
  have hval : encodeReceive.toNat = 2 ^ 31 := rfl
  apply BitVec.eq_of_toNat_eq
  omega

theorem encodeClose_fields {w : Word} (hop : (opField w).toNat = 3) (hres : w.extractLsb' 0 29 = 0) :
    encodeClose (statsField w) = w := by
  have hop := opField_value hop
  have hres := field_eq_zero hres
  have := w.isLt
  apply BitVec.eq_of_toNat_eq
  rw [toNat_encodeClose, toNat_statsField]
  omega

theorem encode_of_decodeCommand {w : Word} {i : Instr} (h : decodeCommand w = .ok i) : encode i = .command w := by
  unfold decodeCommand at h
  split at h <;> split at h <;> cases h
  case h_1.isTrue hop hres => exact congrArg Encoded.command (encodeOpen_fields hop hres)
  case h_2.isTrue hop hres => exact congrArg Encoded.command (encodeSend_fields hop hres)
  case h_3.isTrue hop hres => exact congrArg Encoded.command (encodeReceive_fields hop hres)
  case h_4.isTrue h0 h1 h2 hres =>
    have hlt := (opField w).isLt
    rw [imp_false] at h0 h1 h2
    have hop : (opField w).toNat = 3 := by omega
    exact congrArg Encoded.command (encodeClose_fields hop hres)

/-! ### Encoding what a byte or a pair decodes to -/

theorem encode_of_decodeControl {c : Byte} {i : Instr} (h : decodeControl c = .ok i) : encode i = .byte c := by
  unfold decodeControl at h
  (repeat' split at h) <;> cases h <;> simp_all [encode]

theorem encode_of_decodePair {first second : Byte} {i : Instr} (h : decodePair first second = .ok i) :
    encode i = .pair first second := by
  unfold decodePair at h
  (repeat' split at h) <;> cases h <;> simp_all [encode]

/-- Settles O2: by the shape of what is decoded, a command word field by field, a byte and a pair by the match on all their bits. -/
theorem encodeOfDecode : Obligations.EncodeOfDecode := by
  intro e i h
  cases e with
  | command w => exact encode_of_decodeCommand h
  | byte b =>
    by_cases hb : b = FLAG
    · simp only [decode, if_pos hb, Except.ok.injEq] at h
      rw [← h, hb, encode]
    · rw [decode, if_neg hb] at h
      exact encode_of_decodeControl h
  | pair first second => exact encode_of_decodePair h

/-- Settles O3: sixteen closed words, each decoded by evaluation. -/
theorem knownWordsDecode : Obligations.KnownWordsDecode := by
  unfold Obligations.KnownWordsDecode
  decide

end Sys2Proof

/-! PROOFS. The frame codec (spec/40_frame_codec.md R132 to R143): stuffing and its inverse, delimited frames, the payload check, and the
bounded collection buffer. -/

namespace Sys2Proof.Machine

/-! ### Stuffing and destuffing (R133 to R135) -/

theorem destuff_stuffByte_append (x : Byte) (ys : List Byte) : destuff (stuffByte x ++ ys) = (destuff ys).map (x :: ·) := by
  obtain ⟨rfl, h⟩ | ⟨rfl, h⟩ | ⟨-, hesc, h⟩ := stuffByte_cases x <;> rw [h]
  · exact destuff_esc 0x5E ys
  · exact destuff_esc 0x5D ys
  · exact destuff_literal hesc ys

theorem destuff_stuff (xs : List Byte) : destuff (stuff xs) = some xs := by
  induction xs with
  | nil => rfl
  | cons x xs ih => rw [stuff_cons, destuff_stuffByte_append, ih, Option.map_some]

theorem decodePayload_of_destuff {m : Nat} {region payload : List Byte} {last : Byte}
    (hd : destuff region = some (payload ++ [last])) (hlen : payload.length ≤ m) :
    decodePayload m region = some (payload, last) := by
  rw [decodePayload, hd]
  cases h : payload ++ [last] with
  | nil => simp at h
  | cons x xs =>
    have hxs : xs.length = payload.length := by
      have := congrArg List.length h; simp at this; omega
    have hfront : (x :: xs).dropLast = payload := by rw [← h]; simp
    have hlast : (x :: xs).getLast (List.cons_ne_nil x xs) = last := by simp [← h]
    simp only [hfront, hlast]
    rw [if_neg (by omega)]

/-- Settles O8: byte by byte, `destuff` gives back what each `stuffByte` stands for; the payload decoder then splits off the last byte. -/
theorem stuffingRoundTrip : Obligations.StuffingRoundTrip :=
  ⟨destuff_stuff, fun _ payload hlen => decodePayload_of_destuff (destuff_stuff (payload ++ [bcc2 payload])) hlen⟩

theorem flag_not_mem_stuff (xs : List Byte) : FLAG ∉ stuff xs := by
  induction xs with
  | nil => simp
  | cons x xs ih =>
    have hx : FLAG ∉ stuffByte x := by
      obtain ⟨-, h⟩ | ⟨-, h⟩ | ⟨hflag, -, h⟩ := stuffByte_cases x <;> rw [h]
      · decide
      · decide
      · simpa using Ne.symm hflag
    simp [hx, ih]

/-- In front of a list whose escapes are all followed by `0x5E` or `0x5D`, a stuffed byte adds only such escapes. -/
theorem esc_followed_of_stuffByte {x : Byte} {ys before after : List Byte}
    (ih : ∀ before after, ys = before ++ ESC :: after → ∃ rest, after = 0x5E :: rest ∨ after = 0x5D :: rest)
    (h : stuffByte x ++ ys = before ++ ESC :: after) : ∃ rest, after = 0x5E :: rest ∨ after = 0x5D :: rest := by
  have pair : ∀ z : Byte, z ≠ ESC → z = 0x5E ∨ z = 0x5D → ESC :: z :: ys = before ++ ESC :: after →
      ∃ rest, after = 0x5E :: rest ∨ after = 0x5D :: rest := by
    intro z hz hz' h
    match before, h with
    | [], h =>
      obtain ⟨-, rfl⟩ := List.cons.inj h
      exact ⟨ys, hz'.imp (congrArg (· :: ys)) (congrArg (· :: ys))⟩
    | [b], h => exact absurd (List.cons.inj (List.cons.inj h).2).1 hz
    | b :: b' :: before, h => exact ih before after (List.cons.inj (List.cons.inj h).2).2
  obtain ⟨-, hs⟩ | ⟨-, hs⟩ | ⟨-, hesc, hs⟩ := stuffByte_cases x <;> rw [hs] at h
  · exact pair 0x5E (by decide) (.inl rfl) h
  · exact pair 0x5D (by decide) (.inr rfl) h
  · match before, h with
    | [], h => exact absurd (List.cons.inj h).1 hesc
    | b :: before, h => exact ih before after (List.cons.inj h).2

theorem esc_followed_in_stuff (xs before after : List Byte) (h : stuff xs = before ++ ESC :: after) :
    ∃ rest, after = 0x5E :: rest ∨ after = 0x5D :: rest := by
  induction xs generalizing before after with
  | nil => simp at h
  | cons x xs ih => exact esc_followed_of_stuffByte ih h

theorem length_stuff_eq (xs : List Byte) :
    (stuff xs).length = xs.length + (xs.filter fun x => x == 0x7E || x == 0x7D).length := by
  induction xs with
  | nil => rfl
  | cons x xs ih =>
    rw [stuff_cons, List.length_append, ih]
    obtain ⟨rfl, h⟩ | ⟨rfl, h⟩ | ⟨hflag, hesc, h⟩ := stuffByte_cases x <;> rw [h]
    · rw [List.filter_cons_of_pos (by decide)]; simp only [List.length_cons, List.length_nil]; omega
    · rw [List.filter_cons_of_pos (by decide)]; simp only [List.length_cons, List.length_nil]; omega
    · have hplain : ¬ (x == 0x7E || x == 0x7D) = true := by
        rw [Bool.or_eq_true, beq_iff_eq, beq_iff_eq]; exact not_or.2 ⟨hflag, hesc⟩
      rw [List.filter_cons, if_neg hplain]; simp only [List.length_cons, List.length_nil]; omega

/-- Settles O9: each part by induction over the list, a stuffed byte at a time. -/
theorem stuffingExhaustive : Obligations.StuffingExhaustive :=
  fun xs => ⟨flag_not_mem_stuff xs, esc_followed_in_stuff xs, length_stuff_eq xs⟩

/-- R135 (d): each output byte takes one byte or a pair. -/
theorem length_destuff (ys : List Byte) : ∀ d, destuff ys = some d → ys.length ≤ 2 * d.length ∧ d.length ≤ ys.length := by
  induction ys using destuff_induction with
  | nil => intro d h; cases h; exact ⟨le_rfl, le_rfl⟩
  | last => intro d h; cases h
  | pair z ys ih =>
    intro d h
    rw [destuff_esc] at h
    obtain ⟨e, he, rfl⟩ := Option.map_eq_some_iff.1 h
    have := ih e he
    simp only [List.length_cons]; omega
  | literal y ys hy ih =>
    intro d h
    rw [destuff_literal hy] at h
    obtain ⟨e, he, rfl⟩ := Option.map_eq_some_iff.1 h
    have := ih e he
    simp only [List.length_cons]; omega

/-- Settles O10: a failing list ends in a dangling escape (`destuff_eq_none`), and a list that destuffs followed by one fails. -/
theorem destuffFailsOnlyDangling : Obligations.DestuffFailsOnlyDangling := by
  refine fun ys => ⟨⟨fun h => ?_, ?_⟩, length_destuff ys⟩
  · obtain ⟨before, d, hys, hd⟩ := destuff_eq_none h
    exact ⟨before, hys, by simp [hd]⟩
  · rintro ⟨before, rfl, hne⟩
    obtain ⟨d, hd⟩ := Option.ne_none_iff_exists'.1 hne
    rw [destuff_append before _ d hd, destuff_esc_last, Option.map_none]

/-! ### Delimited frames (R141) -/

theorem addressOk_iff {a : Byte} {controls : List Byte} :
    addressOk a controls = true ↔ a ≠ FLAG ∧ ∀ c ∈ controls, a ^^^ c ≠ FLAG := by
  simp only [addressOk, Bool.and_eq_true, List.all_eq_true, bne_iff_ne]

/-- R7 and R8, one constraint at a time. -/
theorem paramsOk_iff (p : Params) :
    p.ok = true ↔ p.aCmd ≠ p.aRpl ∧ addressOk p.aCmd commandControls = true ∧ addressOk p.aRpl replyControls = true ∧
      p.maxPayload ≤ 65535 := by
  simp only [Params.ok, Bool.and_eq_true, bne_iff_ne, decide_eq_true_eq, and_assoc]

theorem flag_not_mem_header {a : Byte} {controls : List Byte} {c : Byte} (h : addressOk a controls = true)
    (hc : c ∈ controls) (hflag : c ≠ FLAG) : FLAG ∉ [a, c, bcc1 a c] := by
  obtain ⟨ha, hbcc⟩ := addressOk_iff.1 h
  have hb : bcc1 a c ≠ FLAG := hbcc c hc
  simp [ha.symm, hflag.symm, hb.symm]

theorem supervisory_delimited {a : Byte} {controls : List Byte} {c : Byte} (h : addressOk a controls = true)
    (hc : c ∈ controls) (hflag : c ≠ FLAG) :
    ∃ body, encodeSupervisory c a = [FLAG] ++ body ++ [FLAG] ∧ FLAG ∉ body :=
  ⟨[a, c, bcc1 a c], rfl, flag_not_mem_header h hc hflag⟩

theorem controlOfI_ne_flag (t : Toggle) : controlOfI t ≠ FLAG := by cases t <;> decide

theorem iFrame_delimited {a : Byte} (h : addressOk a commandControls = true) (t : Toggle) (payload : List Byte) :
    ∃ body, encodeIFrame a t payload = [FLAG] ++ body ++ [FLAG] ∧ FLAG ∉ body := by
  have hc : controlOfI t ∈ commandControls := by cases t <;> decide
  refine ⟨[a, controlOfI t, bcc1 a (controlOfI t)] ++ stuffedRegion payload, by simp [encodeIFrame], ?_⟩
  rw [List.mem_append]
  exact not_or.2 ⟨flag_not_mem_header h hc (controlOfI_ne_flag t), flag_not_mem_stuff _⟩

/-- Settles O11: the header bytes are no FLAG by R8, the stuffed region holds none by R133. -/
theorem framesDelimited : Obligations.FramesDelimited := by
  intro p hp
  obtain ⟨-, hcmd, hrpl, -⟩ := (paramsOk_iff p).1 hp
  refine ⟨fun c hc => ?_, fun c hc => ?_, fun t payload => iFrame_delimited hcmd t payload⟩
  · have h : c ∈ commandControls ∧ c ≠ FLAG := by revert c; decide
    exact supervisory_delimited hcmd h.1 h.2
  · have h : c ≠ FLAG := by revert c; decide
    exact supervisory_delimited hrpl hc h

/-! ### The payload check (R139) and the bounded buffer (R143) -/

/-- Settles O12: what an accepting verdict says (`checkPayload_accept`), and that a sound region is accepted (`checkPayload_of_destuff`). -/
theorem payloadAcceptedExactly : Obligations.PayloadAcceptedExactly := by
  intro m raw ovf payload
  constructor
  · exact checkPayload_accept
  · rintro ⟨rfl, hd, hlen⟩
    exact checkPayload_of_destuff hd hlen

/-- `ovf` is sticky. -/
theorem collect_ovf_of_ovf {s : State} (h : s.ovf = true) (region : List Byte) : (s.collect region).ovf = true := by
  induction region generalizing s with
  | nil => exact h
  | cons b region ih =>
    apply ih
    obtain ⟨-, hs⟩ | ⟨-, hs⟩ := appendRaw_cases s b <;> rw [hs]
    exact h

@[simp] theorem collect_params (s : State) (region : List Byte) : (s.collect region).params = s.params := by
  induction region generalizing s with
  | nil => rfl
  | cons b region ih => rw [State.collect, ih, State.appendRaw_params]

/-- A region that fits into the space left is collected whole. -/
theorem collect_of_fits {s : State} {region : List Byte} (hp : s.params.maxPayload ≤ 65535)
    (hfit : s.rawLen.toNat + region.length ≤ s.params.rawCap) :
    (s.collect region).rawBytes = s.rawBytes ++ region ∧ (s.collect region).ovf = s.ovf := by
  induction region generalizing s with
  | nil => simp [State.collect]
  | cons b region ih =>
    rw [List.length_cons] at hfit
    have hroom : s.rawLen.toNat < s.params.rawCap := by omega
    have hbytes := rawBytes_appendRaw s b hp hroom
    obtain ⟨-, hs⟩ | ⟨hfull, -⟩ := appendRaw_cases s b
    · have hlen : (s.appendRaw b).rawLen.toNat = s.rawLen.toNat + 1 := by rw [hs]; exact rawLen_succ hp hroom
      have hovf : (s.appendRaw b).ovf = s.ovf := by rw [hs]
      have hrest := ih (s := s.appendRaw b) (by simpa using hp) (by rw [hlen, State.appendRaw_params]; omega)
      rw [State.collect, hrest.1, hrest.2, hbytes, hovf]
      simp
    · omega

/-- A region longer than the space left sets `ovf`. -/
theorem collect_of_overflow {s : State} {region : List Byte} (hp : s.params.maxPayload ≤ 65535)
    (hlong : s.params.rawCap < s.rawLen.toNat + region.length) (hbound : s.rawLen.toNat ≤ s.params.rawCap) :
    (s.collect region).ovf = true := by
  induction region generalizing s with
  | nil => rw [List.length_nil] at hlong; omega
  | cons b region ih =>
    rw [List.length_cons] at hlong
    rw [State.collect]
    obtain ⟨hroom, hs⟩ | ⟨-, hs⟩ := appendRaw_cases s b
    · have hlen : (s.appendRaw b).rawLen.toNat = s.rawLen.toNat + 1 := by rw [hs]; exact rawLen_succ hp hroom
      refine ih (by simpa using hp) ?_ ?_ <;> rw [hlen, State.appendRaw_params] <;> omega
    · exact collect_ovf_of_ovf (by rw [hs]) region

theorem rawBytes_of_empty {s : State} (h : s.rawLen = 0) : s.rawBytes = [] := by simp [State.rawBytes, h]

/-- Settles O13: a region that fits is collected as it is; one that does not fit sets `ovf`, and is too long to hold a payload within the
bound (R135 (d)). -/
theorem boundedBufferIsExact : Obligations.BoundedBufferIsExact := by
  intro s region payload hp hempty hovf
  have hlen0 : s.rawLen.toNat = 0 := by rw [hempty]; rfl
  by_cases hfit : region.length ≤ s.params.rawCap
  · obtain ⟨hbytes, hovf'⟩ := collect_of_fits (s := s) hp (by omega : s.rawLen.toNat + region.length ≤ _)
    rw [hbytes, hovf', hovf, rawBytes_of_empty hempty, List.nil_append]
  · have hover := collect_of_overflow (s := s) (region := region) hp (by omega) (by omega)
    constructor
    · intro h
      obtain ⟨hfalse, -⟩ := checkPayload_accept h
      rw [hover] at hfalse; cases hfalse
    · intro h
      obtain ⟨-, hd, hmax⟩ := checkPayload_accept h
      have hbound := (length_destuff region _ hd).1
      rw [List.length_append, List.length_singleton] at hbound
      rw [Params.rawCap] at hfit
      omega

end Sys2Proof.Machine

/-! PROOFS. Every step keeps the invariant of the engine (spec/45_timeout_retry.md R260, 10_state.md, 41_frame_reader.md): one lemma per operation, each
from the lemmas of the invariant's parts. -/

namespace Sys2Proof.Machine

/-! ### What is left alone keeps its part of the invariant -/

theorem same_buffer {s t : State} (h : s.BufferInv) (hparams : t.params = s.params) (htxbuf : t.txbuf = s.txbuf)
    (hrxbuf : t.rxbuf = s.rxbuf) (hraw : t.raw = s.raw) : t.BufferInv := by
  obtain ⟨h1, h2, h3⟩ := h
  constructor <;> rw [hparams] <;> simpa only [htxbuf, hrxbuf, hraw]

theorem same_counter {s t : State} (h : s.CounterInv) (htotal : t.framesTotal = s.framesTotal)
    (hvalid : t.framesValid = s.framesValid) (hinvalid : t.framesInvalid = s.framesInvalid)
    (hduplicate : t.framesDuplicate = s.framesDuplicate) : t.CounterInv := by
  unfold State.CounterInv at h ⊢
  rw [htotal, hvalid, hinvalid, hduplicate, h]

theorem clearOutputs_inv {s : State} (h : s.Inv) : s.clearOutputs.Inv :=
  ⟨same_control h.control rfl rfl rfl rfl rfl rfl rfl rfl rfl (.inl rfl) rfl rfl,
    same_reader h.reader rfl rfl rfl rfl rfl (.inl rfl) (.inl ⟨rfl, rfl⟩),
    same_buffer h.buffer rfl rfl rfl rfl, same_counter h.counter rfl rfl rfl rfl⟩

theorem dropEvent_inv {s : State} (h : s.Inv) (rest : List Event) : (s.dropEvent rest).Inv :=
  ⟨same_control h.control rfl rfl rfl rfl rfl rfl rfl rfl rfl (.inl rfl) rfl rfl,
    same_reader h.reader rfl rfl rfl rfl rfl (.inl rfl) (.inl ⟨rfl, rfl⟩),
    same_buffer h.buffer rfl rfl rfl rfl, same_counter h.counter rfl rfl rfl rfl⟩

theorem sampleAvail_inv {s : State} (h : s.Inv) (avail : Bool) : (s.sampleAvail avail).Inv :=
  ⟨same_control h.control rfl rfl rfl rfl rfl rfl rfl rfl rfl (.inl rfl) rfl rfl,
    same_reader h.reader rfl rfl rfl rfl rfl (.inl rfl) (.inl ⟨rfl, rfl⟩),
    same_buffer h.buffer rfl rfl rfl rfl, same_counter h.counter rfl rfl rfl rfl⟩

/-- `t` has the parameters, the buffers and the counter sum of `s`. -/
structure State.KeepsStores (s t : State) : Prop where
  params : t.params = s.params
  txbuf : t.txbuf = s.txbuf
  rxbuf : t.rxbuf = s.rxbuf
  raw : t.raw = s.raw
  counter : s.CounterInv → t.CounterInv

/-- `t` has the reader's registers of `s`, but that the reader may have stopped. -/
structure State.KeepsReader (s t : State) : Prop where
  ctl : t.ctl = s.ctl
  rawLen : t.rawLen = s.rawLen
  ovf : t.ovf = s.ovf
  rs : t.rs = s.rs ∨ t.rs = .start

/-- `t` has the queue, the budget, the lengths and the timeout of `s`. -/
structure State.KeepsBounds (s t : State) : Prop where
  txq : t.txq = s.txq
  tries : t.tries = s.tries
  retryLimit : t.retryLimit = s.retryLimit
  opLen : t.opLen = s.opLen
  rxLen : t.rxLen = s.rxLen
  timeoutDuration : t.timeoutDuration = s.timeoutDuration

/-- A step out of the WAIT phases needs only its part about phase, queue and timer. -/
theorem inv_of_leaves {s t : State} (h : s.Inv) (hs : s.KeepsStores t) (hr : s.KeepsReader t) (hp : t.phase.isWait = false)
    (hc : t.ControlInv) : t.Inv :=
  ⟨hc, same_reader h.reader hs.params hr.ctl hs.raw hr.rawLen hr.ovf hr.rs (.inr hp),
    same_buffer h.buffer hs.params hs.txbuf hs.rxbuf hs.raw, hs.counter h.counter⟩

/-- A step that starts a wait, or initialises the reader in one. -/
theorem inv_of_fresh {s t : State} (h : s.Inv) (hs : s.KeepsStores t) (hctl : t.ctl = s.ctl) (hrs : t.rs = .start)
    (hlen : t.rawLen = 0) (hovf : t.ovf = false) (hc : t.ControlInv) : t.Inv :=
  ⟨hc, fresh_reader (hctl ▸ h.reader.ctlKnown) hrs hlen hovf,
    same_buffer h.buffer hs.params hs.txbuf hs.rxbuf hs.raw, hs.counter h.counter⟩

/-! ### What the phase says of the bounds, the timer and the queue -/

theorem Phase.not_timed_of_tx {p : Phase} (h : p.isTx = true) : p.isTimed = false := by
  revert h; cases p <;> decide

theorem Phase.ne_idle_of_wait {p : Phase} (h : p.isWait = true) : p ≠ .idle := by rintro rfl; cases h

theorem Phase.ne_idle_of_tx {p : Phase} (h : p.isTx = true) : p ≠ .idle := by rintro rfl; cases h

/-- Outside the TX phases the queue is empty. -/
theorem bounded_of_not_tx {s : State} (h : s.ControlInv) (hp : s.phase.isTx = false) : s.Bounded where
  queue := by
    by_contra hq
    rw [h.txqPhase.1 hq] at hp; cases hp
  tries := h.triesBound
  opLen := h.opLenBound
  rxLen := h.rxLenBound

theorem bounded_of_wait {s : State} (h : s.ControlInv) (hp : s.phase.isWait = true) : s.Bounded :=
  bounded_of_not_tx h (Phase.not_tx_of_wait hp)

theorem bounded_of_idle {s : State} (h : s.ControlInv) (hp : s.phase = .idle) : s.Bounded :=
  bounded_of_not_tx h (by rw [hp]; rfl)

theorem disarmed_of_not_timed {s : State} (h : s.ControlInv) (hp : s.phase.isTimed = false) : s.armed = false :=
  h.armedPhase.trans hp

/-- A command in progress whose timer has been turned off. -/
theorem busy_disarm {s : State} (h : s.ControlInv) (hp : s.phase ≠ .idle) : s.disarm.Busy :=
  ⟨rfl, h.timeoutPos (.inl hp), h.busyNotDone hp⟩

/-- A command in progress in a phase without a timer. -/
theorem busy_of_not_timed {s : State} (h : s.ControlInv) (hp : s.phase ≠ .idle) (ht : s.phase.isTimed = false) : s.Busy :=
  ⟨disarmed_of_not_timed h ht, h.timeoutPos (.inl hp), h.busyNotDone hp⟩

theorem timeout_of_session {s : State} (h : s.ControlInv) : s.sess = .opened → s.timeoutDuration ≠ 0 :=
  fun hs => h.timeoutPos (.inr hs)

/-! ### Host commands -/

theorem refuse_inv {s : State} (h : s.Inv) (hp : s.phase = .idle) : s.refuse.Inv :=
  ⟨same_control h.control rfl rfl rfl rfl rfl rfl rfl rfl rfl (.inr hp) rfl rfl,
    same_reader h.reader rfl rfl rfl rfl rfl (.inl rfl) (.inl ⟨rfl, rfl⟩),
    same_buffer h.buffer rfl rfl rfl rfl, same_counter h.counter rfl rfl rfl rfl⟩

theorem channelUnavailable_inv {s : State} (h : s.Inv) (hp : s.phase = .idle) :
    (s.complete .channelUnavailable 0).Inv :=
  inv_of_leaves h ⟨rfl, rfl, rfl, rfl, id⟩ ⟨rfl, rfl, rfl, .inl rfl⟩ rfl
    (complete_control (bounded_of_idle h.control hp) (timeout_of_session h.control))

theorem beginOpen_inv {s : State} (h : s.Inv) (hp : s.phase = .idle) (hsess : s.sess = .closed) {role : Role} {n : BitVec 8}
    {d : BitVec 16} (hd : d ≠ 0) : (s.beginOpen role n d).Inv := by
  obtain ⟨hqueue, -, hop, hrx⟩ := bounded_of_idle h.control hp
  have harmed := disarmed_of_not_timed h.control (by rw [hp]; rfl)
  have hzero : (0 : BitVec 8) ≤ n := by simp [BitVec.le_def]
  cases role with
  | initiator =>
    refine inv_of_leaves h (by constructor <;> simp [State.beginOpen, State.CounterInv])
      (by constructor <;> simp [State.beginOpen]) (attempt_notWait _ _) ?_
    exact attempt_control ⟨hqueue, hzero, hop, hrx⟩ ⟨harmed, hd, rfl⟩ (.inl ⟨rfl, hsess⟩)
  | responder =>
    refine inv_of_fresh h (by constructor <;> simp [State.beginOpen, State.CounterInv]) (by simp [State.beginOpen])
      (by simp [State.beginOpen]) (by simp [State.beginOpen]) (by simp [State.beginOpen]) ?_
    unfold State.beginOpen
    exact startWait_control ⟨hqueue, hzero, hop, hrx⟩ ⟨harmed, hd, rfl⟩ rfl (fun _ => hsess) (fun hf => by cases hf)

theorem beginSend_inv {s : State} (h : s.Inv) (hp : s.phase = .idle) (hsess : s.sess = .opened) {len : BitVec 16}
    (hlen : len.toNat ≤ s.params.maxPayload) : (s.beginSend len).Inv := by
  obtain ⟨hqueue, -, -, hrx⟩ := bounded_of_idle h.control hp
  have harmed := disarmed_of_not_timed h.control (by rw [hp]; rfl)
  have htimeout := timeout_of_session h.control hsess
  have hzero : (0 : BitVec 8) ≤ s.retryLimit := by simp [BitVec.le_def]
  refine inv_of_leaves h (by constructor <;> simp [State.beginSend, State.CounterInv])
    (by constructor <;> simp [State.beginSend]) (attempt_notWait _ _) ?_
  exact attempt_control ⟨hqueue, hzero, hlen, hrx⟩ ⟨harmed, htimeout, rfl⟩
    (.inr ⟨by simp, hsess⟩)

theorem beginReceive_inv {s : State} (h : s.Inv) (hp : s.phase = .idle) (hsess : s.sess = .opened) : s.beginReceive.Inv := by
  obtain ⟨hqueue, htries, hop, hrx⟩ := bounded_of_idle h.control hp
  have harmed := disarmed_of_not_timed h.control (by rw [hp]; rfl)
  have htimeout := timeout_of_session h.control hsess
  refine inv_of_fresh h (by constructor <;> simp [State.beginReceive, State.CounterInv]) (by simp [State.beginReceive])
    (by simp [State.beginReceive]) (by simp [State.beginReceive]) (by simp [State.beginReceive]) ?_
  exact startWait_control ⟨hqueue, htries, hop, hrx⟩ ⟨harmed, htimeout, rfl⟩ rfl
    (fun hf => by cases hf) (fun _ => hsess)

theorem beginClose_inv {s : State} (h : s.Inv) (hp : s.phase = .idle) (hsess : s.sess = .opened) (stats : Bool) :
    (s.beginClose stats).Inv := by
  obtain ⟨hqueue, -, hop, hrx⟩ := bounded_of_idle h.control hp
  have harmed := disarmed_of_not_timed h.control (by rw [hp]; rfl)
  have htimeout := timeout_of_session h.control hsess
  have hzero : (0 : BitVec 8) ≤ s.retryLimit := by simp [BitVec.le_def]
  cases hrole : s.role with
  | initiator =>
    simp only [State.beginClose, hrole]
    refine inv_of_leaves h (by constructor <;> simp [State.CounterInv]) (by constructor <;> simp) (attempt_notWait _ _) ?_
    exact attempt_control ⟨hqueue, hzero, hop, hrx⟩ ⟨harmed, htimeout, rfl⟩ (.inr ⟨by simp, hsess⟩)
  | responder =>
    simp only [State.beginClose, hrole]
    refine inv_of_fresh h (by constructor <;> simp [State.CounterInv]) (by simp) (by simp) (by simp) (by simp) ?_
    exact startWait_control ⟨hqueue, hzero, hop, hrx⟩ ⟨harmed, htimeout, rfl⟩ rfl (fun hf => by cases hf) (fun _ => hsess)

theorem cmd_inv {s t : State} {w : Word} {avail : Bool} (h : s.Inv) (hp : s.phase = .idle)
    (hstep : stepEvent (.cmd w avail) s = .next t) : t.Inv := by
  have h' := sampleAvail_inv h avail
  have hp' : (s.sampleAvail avail).phase = .idle := hp
  obtain rfl | ⟨role, n, d, -, hsess, hd, ⟨-, rfl⟩ | ⟨-, rfl⟩⟩ | ⟨len, -, hsess, hlen, rfl⟩ | ⟨-, hsess, rfl⟩ |
    ⟨stats, -, hsess, rfl⟩ := cmd_next hp hstep
  · exact refuse_inv h' hp'
  · exact channelUnavailable_inv h' hp'
  · exact beginOpen_inv h' hp' hsess hd
  · exact beginSend_inv h' hp' hsess hlen
  · exact beginReceive_inv h' hp' hsess
  · exact beginClose_inv h' hp' hsess stats

/-! ### The reader -/

/-- A byte collected keeps what is known of RAW (R30, R64). -/
theorem appendRaw_raw {s : State} {b : Byte} (h : s.ReaderInv) (hp : s.params.maxPayload ≤ 65535) (hb : b ≠ FLAG) :
    (s.appendRaw b).rawLen.toNat ≤ s.params.rawCap ∧
      (∀ i, i < (s.appendRaw b).rawLen.toNat → ∃ x, (s.appendRaw b).raw.read? i = some x ∧ x ≠ FLAG) ∧
      ((s.appendRaw b).ovf = true → (s.appendRaw b).rawLen.toNat = s.params.rawCap) := by
  obtain ⟨hroom, hs⟩ | ⟨hfull, hs⟩ := appendRaw_cases s b
  · have hlen := rawLen_succ hp hroom
    simp only [hs, hlen]
    refine ⟨hroom, fun i hi => ?_, fun hovf => ?_⟩
    · obtain rfl | hne := eq_or_ne s.rawLen.toNat i
      · exact ⟨b, Memory.read?_write_self _ _ _, hb⟩
      · rw [Memory.read?_write_ne _ _ hne]
        exact h.rawWritten i (by omega)
    · have := h.ovfFull hovf; omega
  · simp only [hs]
    exact ⟨h.rawBound, h.rawWritten, fun _ => le_antisymm h.rawBound hfull⟩

theorem readerStep_reader {s : State} {b : Byte} (h : s.ReaderInv) (hp : s.params.maxPayload ≤ 65535) (hb : b ≠ FLAG)
    (hw : s.phase.isWait = true) : (s.readerStep b).ReaderInv := by
  obtain ⟨hn, hs⟩ | ⟨hn, hs⟩ | ⟨hnc, hnr, hs⟩ := readerStep_cases s b <;> rw [hs]
  · obtain ⟨hrs, -, hacc⟩ := readerNext_controlSeen hn
    exact ⟨by simp, accept_subset _ _ hacc, fun _ _ => hacc, by simp, h.rawBound, h.rawWritten, h.ovfFull,
      fun _ _ => h.emptyBefore hw (by simp [hrs])⟩
  · obtain ⟨-, hrs⟩ := readerNext_collecting hn
    obtain ⟨hbound, hwritten, hfull⟩ := appendRaw_raw h hp hb
    have hacc : s.ctl ∈ s.phase.accept := h.ctlAccepted hw (hrs.symm.imp And.left id |> .inr)
    have hinfo : isInfo s.ctl = true := hrs.elim h.collectingInfo And.right
    exact ⟨by simp, by simpa using h.ctlKnown, by simpa using fun _ => hacc, by simpa using hinfo, by simpa using hbound,
      hwritten, by simpa using hfull, by simp⟩
  · have hset := readerNext_settled (a := s.phase.expAddr s.params) (accept := s.phase.accept) (ctl := s.ctl) hb h.settled.1
      h.settled.2
    refine ⟨hset, h.ctlKnown, fun _ hrs => ?_, fun hrs => absurd hrs hnr, h.rawBound, h.rawWritten, h.ovfFull, fun _ _ => ?_⟩
    · obtain hrs | hrs | hrs := hrs
      · exact absurd hrs hnc
      · exact h.ctlAccepted hw (.inl (readerNext_bccOk hrs))
      · exact absurd hrs hnr
    · refine h.emptyBefore hw fun hrs => hnr ?_
      rw [hrs, readerNext, if_neg hb]

theorem readerStep_buffer {s : State} (b : Byte) (h : s.BufferInv) : (s.readerStep b).BufferInv := by
  obtain ⟨-, hs⟩ | ⟨-, hs⟩ | ⟨-, -, hs⟩ := readerStep_cases s b <;> rw [hs]
  · exact same_buffer h rfl rfl rfl rfl
  · obtain ⟨hroom, hs⟩ | ⟨-, hs⟩ := appendRaw_cases s b <;> rw [hs]
    · exact ⟨h.txbufWithin, h.rxbufWithin, Memory.write_within h.rawWithin hroom⟩
    · exact same_buffer h rfl rfl rfl rfl
  · exact same_buffer h rfl rfl rfl rfl

theorem readerStep_control {s : State} (b : Byte) (h : s.ControlInv) : (s.readerStep b).ControlInv := by
  obtain ⟨-, hs⟩ | ⟨-, hs⟩ | ⟨-, -, hs⟩ := readerStep_cases s b <;> rw [hs] <;> apply same_control h <;> simp

theorem readerStep_counter {s : State} (b : Byte) (h : s.CounterInv) : (s.readerStep b).CounterInv := by
  obtain ⟨-, hs⟩ | ⟨-, hs⟩ | ⟨-, -, hs⟩ := readerStep_cases s b <;> rw [hs] <;> apply same_counter h <;> simp

theorem readerStep_inv {s : State} {b : Byte} (h : s.Inv) (hp : s.params.maxPayload ≤ 65535) (hb : b ≠ FLAG)
    (hw : s.phase.isWait = true) : (s.readerStep b).Inv :=
  ⟨readerStep_control b h.control, readerStep_reader h.reader hp hb hw, readerStep_buffer b h.buffer,
    readerStep_counter b h.counter⟩

/-! ### Completed frames -/

/-- A FLAG that opens a header. -/
theorem flagSeen_inv {s : State} (h : s.Inv) (hw : s.phase.isWait = true) (hrs : s.rs ≠ .collecting) :
    ({ s with rs := .flagSeen } : State).Inv := by
  obtain ⟨hc, hr, hb, hn⟩ := h
  refine ⟨same_control hc rfl rfl rfl rfl rfl rfl rfl rfl rfl (.inl rfl) rfl rfl, ?_, same_buffer hb rfl rfl rfl rfl, hn⟩
  exact ⟨by simp, hr.ctlKnown, by simp, by simp, hr.rawBound, hr.rawWritten, hr.ovfFull, fun _ _ => hr.emptyBefore hw hrs⟩

theorem countValid_counter {s : State} (h : s.CounterInv) : s.countValid.CounterInv := by
  simp only [State.CounterInv, State.countValid] at h ⊢; rw [h]; ac_rfl

theorem countInvalid_counter {s : State} (h : s.CounterInv) : s.countInvalid.CounterInv := by
  simp only [State.CounterInv, State.countInvalid] at h ⊢; rw [h]; ac_rfl

theorem countDuplicate_counter {s : State} (h : s.CounterInv) : s.countDuplicate.CounterInv := by
  simp only [State.CounterInv, State.countDuplicate] at h ⊢; rw [h]; ac_rfl

theorem length_replyFrame (s : State) (c : Byte) :
    s.replyFrame c ≠ [] ∧ (s.replyFrame c).length ≤ 2 * (s.params.maxPayload + 1) + 5 := by
  rw [replyFrame_eq]
  exact ⟨by simp, by simp⟩

/-- A reply put into the queue in a wait without a timer. -/
theorem reply_control {s : State} {c : Byte} {p : Phase} (h : s.Bounded) (r : s.Busy) (hp : p.isTx = true)
    (hopening : p.isOpening = true → s.sess = .closed) (hother : p.isOpening = false → s.sess = .opened) :
    (s.transmit (s.replyFrame c) p).ControlInv :=
  transmit_control h r (length_replyFrame s c).1 (length_replyFrame s c).2 hp hopening hother

theorem set_inv {s : State} (h : s.Inv) (hp : s.phase = .openRWait) :
    (s.readerStop.transmit (s.replyFrame C_UA) .openRTx).Inv := by
  obtain ⟨hqueue, htries, hop, hrx⟩ := bounded_of_wait h.control (by rw [hp]; rfl)
  obtain ⟨harmed, htimeout, hdone⟩ := busy_of_not_timed h.control (by rw [hp]; simp) (by rw [hp]; rfl)
  refine inv_of_leaves h ⟨rfl, rfl, rfl, rfl, id⟩ ⟨rfl, rfl, rfl, .inr rfl⟩ rfl ?_
  exact reply_control (s := s.readerStop) ⟨hqueue, htries, hop, hrx⟩ ⟨harmed, htimeout, hdone⟩ rfl
    (fun _ => h.control.openingClosed (by rw [hp]; rfl)) (fun hf => by cases hf)

/-- A frame that completes the command in progress, whatever it does to the session. -/
theorem frameCompletes_inv {s u : State} {st : Status} {n : BitVec 16} (h : s.Inv) (hw : s.phase.isWait = true)
    (hs : s.KeepsStores u) (hr : s.KeepsReader u) (hb : s.KeepsBounds u) : (u.complete st n).Inv := by
  obtain ⟨hqueue, htries, hop, hrx⟩ := bounded_of_wait h.control hw
  have htimeout := h.control.timeoutPos (.inl (Phase.ne_idle_of_wait hw))
  refine inv_of_leaves h ⟨hs.params, hs.txbuf, hs.rxbuf, hs.raw, hs.counter⟩ ⟨hr.ctl, hr.rawLen, hr.ovf, hr.rs⟩ rfl
    (complete_control ⟨?_, ?_, ?_, ?_⟩ fun _ => ?_)
  · rwa [hb.txq]
  · rwa [hb.tries, hb.retryLimit]
  · rwa [hb.opLen, hs.params]
  · rwa [hb.rxLen, hs.params]
  · rwa [hb.timeoutDuration]

theorem discReply_inv {s : State} (h : s.Inv) (hp : s.phase = .closeRWait) :
    (s.readerStop.transmit (s.replyFrame C_DISC) .closeRTx).Inv := by
  obtain ⟨hqueue, htries, hop, hrx⟩ := bounded_of_wait h.control (by rw [hp]; rfl)
  obtain ⟨harmed, htimeout, hdone⟩ := busy_of_not_timed h.control (by rw [hp]; simp) (by rw [hp]; rfl)
  refine inv_of_leaves h ⟨rfl, rfl, rfl, rfl, id⟩ ⟨rfl, rfl, rfl, .inr rfl⟩ rfl ?_
  exact reply_control (s := s.readerStop) ⟨hqueue, htries, hop, hrx⟩ ⟨harmed, htimeout, hdone⟩ rfl
    (fun hf => by cases hf) (fun _ => h.control.othersOpen (by rw [hp]; simp) (by rw [hp]; rfl))

theorem onRR_inv {s : State} (h : s.Inv) (hp : s.phase = .sendWait) (r : Toggle) : (s.onRR r).Inv := by
  obtain ⟨-, hs⟩ | ⟨-, hs⟩ := onRR_cases s r <;> rw [hs]
  · have hn : s.CounterInv → s.readerStop.flipSendToggle.countValid.CounterInv := fun hn =>
      same_counter (countValid_counter hn) (by simp) (by simp) (by simp) (by simp)
    exact frameCompletes_inv h (by rw [hp]; rfl) ⟨by simp, by simp, by simp, by simp, hn⟩ (by constructor <;> simp)
      (by constructor <;> simp)
  · exact inv_of_fresh h ⟨rfl, rfl, rfl, rfl, id⟩ rfl rfl rfl rfl
      (same_control h.control rfl rfl rfl rfl rfl rfl rfl rfl rfl (.inl rfl) rfl rfl)

theorem onREJ_inv {s : State} (h : s.Inv) (hp : s.phase = .sendWait) : s.onREJ.Inv := by
  have hidle : s.phase ≠ .idle := by rw [hp]; simp
  obtain ⟨hqueue, htries, hop, hrx⟩ := bounded_of_wait h.control (by rw [hp]; rfl)
  obtain ⟨harmed, htimeout, hdone⟩ := busy_disarm h.control hidle
  have hsess : s.sess = .opened := h.control.othersOpen hidle (by rw [hp]; rfl)
  obtain ⟨-, hs⟩ | ⟨-, hs⟩ := onREJ_cases s <;> rw [hs]
  · refine inv_of_leaves h ⟨by simp, by simp, by simp, by simp, fun hn => ?_⟩
      ⟨by simp, by simp, by simp, by simp⟩ (attempt_notWait _ _) ?_
    · exact same_counter (countInvalid_counter hn) (by simp) (by simp) (by simp) (by simp)
    · exact attempt_control ⟨hqueue, htries, hop, hrx⟩ ⟨harmed, htimeout, hdone⟩ (.inr ⟨by simp, hsess⟩)
  · refine inv_of_leaves h ⟨by simp, by simp, by simp, by simp, fun hn => ?_⟩ ⟨by simp, by simp, by simp, by simp⟩ rfl ?_
    · exact same_counter (countInvalid_counter hn) (by simp) (by simp) (by simp) (by simp)
    have hlen := length_requestFrame s.readerStop.disarm.countInvalid.countRetransmission .sendOp hop
    exact transmit_control ⟨hqueue, htries, hop, hrx⟩ ⟨harmed, htimeout, hdone⟩ hlen.1 hlen.2 rfl (fun hf => by cases hf)
      (fun _ => hsess)

theorem Memory.writeBytes_within {m : Memory} {n : Nat} {bs : List Byte} (h : m.within n) (hlen : bs.length ≤ n) :
    (m.writeBytes 0 bs).within n := by
  refine ⟨Memory.writeBytes_keeps_wf 0 bs h.1, fun c hc => ?_⟩
  obtain hc | hc := Memory.mem_writeBytes hc
  · omega
  · exact h.2 c hc

theorem toNat_payloadLength {payload : List Byte} {m : Nat} (hlen : payload.length ≤ m) (hm : m ≤ 65535) :
    (BitVec.ofNat 16 payload.length).toNat = payload.length := by
  rw [BitVec.toNat_ofNat]; omega

theorem onInfo_inv {s : State} (h : s.Inv) (hm : s.params.maxPayload ≤ 65535) (hp : s.phase = .recvWait) (r : Toggle) :
    (s.onInfo r).Inv := by
  have hidle : s.phase ≠ .idle := by rw [hp]; simp
  obtain ⟨hqueue, htries, hop, hrx⟩ := bounded_of_wait h.control (by rw [hp]; rfl)
  obtain ⟨harmed, htimeout, hdone⟩ := busy_of_not_timed h.control hidle (by rw [hp]; rfl)
  have hsess : s.sess = .opened := h.control.othersOpen hidle (by rw [hp]; rfl)
  obtain ⟨why, -, hs⟩ | ⟨payload, hpay, ⟨-, hs⟩ | ⟨-, hs⟩⟩ := onInfo_cases s r <;> rw [hs]
  · refine inv_of_leaves h ⟨by simp, by simp, by simp, by simp, fun hn => ?_⟩ ⟨by simp, by simp, by simp, by simp⟩ rfl ?_
    · exact same_counter (countInvalid_counter hn) (by simp) (by simp) (by simp) (by simp)
    exact reply_control (s := s.readerStop.countInvalid) ⟨hqueue, htries, hop, hrx⟩ ⟨harmed, htimeout, hdone⟩ rfl
      (fun hf => by cases hf) (fun _ => hsess)
  · refine inv_of_leaves h ⟨by simp, by simp, by simp, by simp, fun hn => ?_⟩ ⟨by simp, by simp, by simp, by simp⟩ rfl ?_
    · exact same_counter (countDuplicate_counter hn) (by simp) (by simp) (by simp) (by simp)
    exact reply_control (s := s.readerStop.countDuplicate) ⟨hqueue, htries, hop, hrx⟩ ⟨harmed, htimeout, hdone⟩ rfl
      (fun hf => by cases hf) (fun _ => hsess)
  · have hlen := (checkPayload_accept hpay).2.2
    have hrx' : (BitVec.ofNat 16 payload.length).toNat ≤ s.params.maxPayload := by rwa [toNat_payloadLength hlen hm]
    refine ⟨?_, same_reader h.reader (by simp) (by simp) (by simp) (by simp) (by simp) (by simp) (.inr rfl), ?_,
      same_counter (countValid_counter h.counter) (by simp) (by simp) (by simp) (by simp)⟩
    · exact reply_control (s := (s.readerStop.storePayload payload).flipExpectToggle.countValid) ⟨hqueue, htries, hop, hrx'⟩
        ⟨harmed, htimeout, hdone⟩ rfl (fun hf => by cases hf) (fun _ => hsess)
    · exact ⟨by simpa using h.buffer.txbufWithin, by simpa using Memory.writeBytes_within h.buffer.rxbufWithin hlen,
        by simpa using h.buffer.rawWithin⟩

theorem reaction_inv {s t : State} (h : s.Inv) (hm : s.params.maxPayload ≤ 65535) (hr : Reaction s t) : t.Inv := by
  obtain ⟨hp, rfl⟩ | ⟨hp, rfl⟩ | ⟨hp, r, rfl⟩ | ⟨hp, rfl⟩ | ⟨hp, r, rfl⟩ | ⟨hp, rfl⟩ | ⟨hp, rfl⟩ := hr
  · exact frameCompletes_inv h (by rw [hp]; rfl) ⟨rfl, rfl, rfl, rfl, id⟩ ⟨rfl, rfl, rfl, .inr rfl⟩
      ⟨rfl, rfl, rfl, rfl, rfl, rfl⟩
  · exact set_inv h hp
  · exact onRR_inv h hp r
  · exact onREJ_inv h hp
  · exact onInfo_inv h hm hp r
  · exact frameCompletes_inv h (by rw [hp]; rfl) ⟨rfl, rfl, rfl, rfl, id⟩ ⟨rfl, rfl, rfl, .inr rfl⟩
      ⟨rfl, rfl, rfl, rfl, rfl, rfl⟩
  · exact discReply_inv h hp

theorem flag_inv {s t : State} (h : s.Inv) (hm : s.params.maxPayload ≤ 65535) (hw : s.phase.isWait = true)
    (hstep : execFlag s = .next t) : t.Inv := by
  obtain ⟨hrs, rfl⟩ | ⟨hrs, hr | ⟨-, hdrop⟩⟩ := flag_next hw hstep
  · exact flagSeen_inv h hw (by rintro hc; simp [hc] at hrs)
  · exact reaction_inv h hm hr
  · -- the invariant excludes a held header that is not accepted
    obtain hctl | ⟨hcol, hinfo⟩ := hdrop
    · exact absurd (h.reader.ctlAccepted hw (.inr hrs)) hctl
    · rw [h.reader.collectingInfo hcol] at hinfo; cases hinfo

/-! ### Events that are no instruction -/

/-- The last byte of the queue has left: the queue is empty and the engine is busy with its timer off. -/
theorem drained_bounds {s : State} {b : Byte} (h : s.ControlInv) (hq : s.txq ≠ []) :
    ({ s with txq := [], txOut := some b } : State).Bounded ∧ ({ s with txq := [], txOut := some b } : State).Busy := by
  have htx := h.txqPhase.1 hq
  obtain ⟨harmed, htimeout, hdone⟩ := busy_of_not_timed h (Phase.ne_idle_of_tx htx) (Phase.not_timed_of_tx htx)
  exact ⟨⟨rfl, h.triesBound, h.opLenBound, h.rxLenBound⟩, ⟨harmed, htimeout, hdone⟩⟩

/-- The end of a TX phase that starts a wait. -/
theorem drainedWait_inv {s : State} {b : Byte} {p : Phase} (h : s.Inv) (hq : s.txq ≠ []) (hp : p.isWait = true)
    (hopening : p.isOpening = true → s.sess = .closed) (hother : p.isOpening = false → s.sess = .opened) :
    (State.startWait { s with txq := [], txOut := some b } p).Inv := by
  obtain ⟨hb, r⟩ := drained_bounds (b := b) h.control hq
  exact inv_of_fresh h ⟨by simp, by simp, by simp, by simp, fun hn => same_counter hn (by simp) (by simp) (by simp) (by simp)⟩
    (by simp) (by simp) (by simp) (by simp) (startWait_control hb r hp hopening hother)

theorem takeTx_inv {s t : State} (h : s.Inv) (hstep : s.takeTx = .next t) : t.Inv := by
  obtain ⟨-, rfl⟩ | ⟨b, q, hq, hne, rfl⟩ | ⟨b, hq, hdone⟩ := takeTx_next hstep
  · exact h
  · obtain ⟨hc, hr, hb, hn⟩ := h
    have htx : s.phase.isTx = true := hc.txqPhase.1 (by simp [hq])
    have hlen : q.length ≤ 2 * (s.params.maxPayload + 1) + 5 := by
      have := hc.txqBound; rw [hq, List.length_cons] at this; omega
    refine ⟨⟨⟨fun _ => htx, fun _ => hne⟩, hlen, hc.armedPhase, hc.remainingPos, hc.triesBound, hc.timeoutPos, hc.openingClosed,
      hc.othersOpen, hc.busyNotDone, hc.opLenBound, hc.rxLenBound⟩, ?_, same_buffer hb rfl rfl rfl rfl, hn⟩
    exact same_reader hr rfl rfl rfl rfl rfl (.inl rfl) (.inl ⟨rfl, rfl⟩)
  · have hne : s.txq ≠ [] := by simp [hq]
    have hb := (drained_bounds (b := b) h.control hne).1
    have htimeout : s.timeoutDuration ≠ 0 :=
      h.control.timeoutPos (.inl (Phase.ne_idle_of_tx (h.control.txqPhase.1 hne)))
    have hclosed := h.control.openingClosed
    have hopen := h.control.othersOpen
    obtain ⟨hp, rfl⟩ | ⟨hp, rfl⟩ | ⟨hp, rfl⟩ | ⟨hp, rfl⟩ | ⟨hp, rfl⟩ | ⟨hp, rfl⟩ | ⟨hp, rfl⟩ | ⟨hp, rfl⟩ := txDone_next hdone <;>
      change s.phase = _ at hp <;> rw [hp] at hclosed hopen
    · exact drainedWait_inv h hne rfl (fun _ => hclosed rfl) (fun hf => by cases hf)
    · exact drainedWait_inv h hne rfl (fun hf => by cases hf) (fun _ => hopen (by simp) rfl)
    · exact drainedWait_inv h hne rfl (fun hf => by cases hf) (fun _ => hopen (by simp) rfl)
    · exact drainedWait_inv h hne rfl (fun hf => by cases hf) (fun _ => hopen (by simp) rfl)
    all_goals
      refine inv_of_leaves h ⟨rfl, rfl, rfl, rfl, id⟩ ⟨rfl, rfl, rfl, .inl rfl⟩ rfl (complete_control ?_ fun _ => htimeout)
      exact ⟨hb.queue, hb.tries, hb.opLen, hb.rxLen⟩

theorem takeTick_inv {s t : State} (h : s.Inv) (hstep : s.takeTick = .next t) : t.Inv := by
  obtain ⟨-, rfl⟩ | ⟨harmed, hrem, rfl⟩ | ⟨harmed, hrem, op, hop, rfl⟩ := takeTick_next hstep
  · exact h
  · obtain ⟨hc, hr, hb, hn⟩ := h
    have hpos : s.remaining - 1 ≠ 0 := by
      intro h0
      have := congrArg BitVec.toNat h0
      rw [BitVec.toNat_sub] at this; simp at this; omega
    exact ⟨⟨hc.txqPhase, hc.txqBound, hc.armedPhase, fun _ => hpos, hc.triesBound, hc.timeoutPos, hc.openingClosed, hc.othersOpen,
      hc.busyNotDone, hc.opLenBound, hc.rxLenBound⟩, same_reader hr rfl rfl rfl rfl rfl (.inl rfl) (.inl ⟨rfl, rfl⟩),
      same_buffer hb rfl rfl rfl rfl, hn⟩
  · have hw : s.phase.isWait = true := Phase.wait_of_timed ((isTimed_iff_timedOp _).2 ⟨op, hop⟩)
    have hidle := Phase.ne_idle_of_wait hw
    obtain ⟨hqueue, htries, hopl, hrx⟩ := bounded_of_wait h.control hw
    obtain ⟨hdis, htimeout, hdone⟩ := busy_disarm h.control hidle
    refine inv_of_leaves h ⟨by simp, by simp, by simp, by simp, fun hn => same_counter hn (by simp) (by simp) (by simp) (by simp)⟩
      ⟨by simp, by simp, by simp, by simp⟩ (attempt_notWait _ _) ?_
    refine attempt_control ⟨hqueue, htries, hopl, hrx⟩ ⟨hdis, htimeout, hdone⟩ ?_
    have hclosed := h.control.openingClosed
    have hopen := h.control.othersOpen hidle
    revert hop hclosed hopen
    cases s.phase <;> simp [Phase.timedOp, Phase.isOpening]
    case openIWait => rintro rfl hs; exact .inl ⟨rfl, hs⟩
    case sendWait => rintro rfl hs; exact .inr ⟨by simp, hs⟩
    case closeIWait => rintro rfl hs; exact .inr ⟨by simp, hs⟩

/-- What a channel error does to the command in progress, by the kind of its phase (R280). -/
theorem takeChanErr_cases (s : State) :
    (s.phase = .idle ∧ s.takeChanErr = s) ∨
      (s.phase ≠ .idle ∧
        ((s.phase.isClosing = true ∧ s.takeChanErr = State.complete (State.teardown { s with txq := [] }) .ioError 0) ∨
          (s.phase.isOpening = true ∧ s.takeChanErr = State.complete (State.releaseChannel { s with txq := [] }) .ioError 0) ∨
          (s.phase.isClosing = false ∧ s.phase.isOpening = false ∧
            s.takeChanErr = State.complete { s with txq := [] } .ioError 0))) := by
  unfold State.takeChanErr
  by_cases hidle : s.phase = .idle
  · exact .inl ⟨hidle, by rw [if_pos hidle]⟩
  · refine .inr ⟨hidle, ?_⟩
    rw [if_neg hidle]
    cases hc : s.phase.isClosing with
    | true => exact .inl ⟨rfl, rfl⟩
    | false =>
      cases ho : s.phase.isOpening with
      | true => exact .inr (.inl ⟨rfl, rfl⟩)
      | false => exact .inr (.inr ⟨rfl, rfl, rfl⟩)

theorem takeChanErr_inv {s : State} (h : s.Inv) : s.takeChanErr.Inv := by
  have hc := h.control
  obtain ⟨-, hs⟩ | ⟨hidle, hs⟩ := takeChanErr_cases s
  · rw [hs]; exact h
  · have htimeout : s.timeoutDuration ≠ 0 := hc.timeoutPos (.inl hidle)
    obtain ⟨-, hs⟩ | ⟨-, hs⟩ | ⟨-, -, hs⟩ := hs <;> rw [hs] <;>
      refine inv_of_leaves h ⟨by simp, by simp, by simp, by simp, by simp [State.CounterInv]⟩
        ⟨by simp, by simp, by simp, by simp⟩ rfl (complete_control ?_ fun _ => by simpa using htimeout)
    all_goals exact ⟨by simp, by simpa using hc.triesBound, by simpa using hc.opLenBound, by simpa using hc.rxLenBound⟩

theorem takeHostWrite_inv {s : State} {a : BitVec 16} (h : s.Inv) (ha : a.toNat < s.params.maxPayload) (v : Byte) :
    (s.takeHostWrite a v).Inv :=
  ⟨same_control h.control rfl rfl rfl rfl rfl rfl rfl rfl rfl (.inl rfl) rfl rfl,
    same_reader h.reader rfl rfl rfl rfl rfl (.inl rfl) (.inl ⟨rfl, rfl⟩),
    ⟨Memory.write_within h.buffer.txbufWithin ha, h.buffer.rxbufWithin, h.buffer.rawWithin⟩, h.counter⟩

/-! ### Reset, and every step -/

theorem resetWith_inv (p : Params) : (State.resetWith p).Inv where
  control := by constructor <;> simp [State.resetWith, Phase.isTx, Phase.isTimed, Phase.isOpening]
  reader := by constructor <;> simp [State.resetWith, controlBytes, C_I0]
  buffer := ⟨⟨Memory.wf_nil, by simp [State.resetWith]⟩, ⟨Memory.wf_nil, by simp [State.resetWith]⟩,
    ⟨Memory.wf_nil, by simp [State.resetWith]⟩⟩
  counter := rfl

theorem takeReset_inv (s : State) : s.takeReset.Inv :=
  have h := resetWith_inv s.params
  ⟨same_control h.control rfl rfl rfl rfl rfl rfl rfl rfl rfl (.inl rfl) rfl rfl,
    same_reader h.reader rfl rfl rfl rfl rfl (.inl rfl) (.inl ⟨rfl, rfl⟩),
    same_buffer h.buffer rfl rfl rfl rfl, same_counter h.counter rfl rfl rfl rfl⟩

/-- Settles O47: every register at its reset value, every buffer empty. -/
theorem invAfterReset : Obligations.InvAfterReset := fun p _ => resetWith_inv p

/-- Settles O48: by the cases of a step, each operation keeping the invariant from the state with the head event taken off. -/
theorem stepKeepsInv : Obligations.StepKeepsInv := by
  intro s t h hstep
  obtain ⟨hok, ⟨-, rfl⟩ | ⟨e, rest, -, hcase⟩⟩ := step_cases hstep
  · exact clearOutputs_inv h
  · have h' := dropEvent_inv h rest
    have hm : (s.dropEvent rest).params.maxPayload ≤ 65535 := ((paramsOk_iff _).1 hok).2.2.2
    obtain rfl | ⟨w, a, -, hp, hcmd⟩ | ⟨b, -, hb, hw, -, -, rfl⟩ | ⟨-, hw, hflag⟩ | ⟨-, -, htx⟩ | ⟨-, htick⟩ | ⟨-, rfl⟩ |
      ⟨a, v, -, hp, ha, rfl⟩ | ⟨-, rfl⟩ := hcase
    · exact h'
    · exact cmd_inv h' hp hcmd
    · exact readerStep_inv h' hm hb hw
    · exact flag_inv h' hm hw hflag
    · exact takeTx_inv h' htx
    · exact takeTick_inv h' htick
    · exact takeChanErr_inv h'
    · exact takeHostWrite_inv h' ha v
    · exact takeReset_inv _

/-- Settles O55: the state after the step meets the invariant, and there `done` is 1 in IDLE alone, where the queue is empty and the timer
off. -/
theorem completionPointIsQuiet : Obligations.CompletionPointIsQuiet := by
  intro s t h hstep _ hdone
  have hc := (stepKeepsInv s t h hstep).control
  have hidle : t.phase = .idle := by
    by_contra hbusy
    rw [hc.busyNotDone hbusy] at hdone; cases hdone
  exact ⟨(bounded_of_idle hc hidle).queue, disarmed_of_not_timed hc (by rw [hidle]; rfl), hidle⟩

end Sys2Proof.Machine

/-! PROOFS. The frames received and the bytes of a stuffed region: what each instruction does in the state its last byte needs, and what it leaves
alone (spec/41_frame_reader.md, 43_session_send.md, 44_session_receive.md). -/

namespace Sys2Proof.Machine

/-! ### The arms of the frame kinds -/

theorem exec_rej0 (s : State) : exec .rej0 s = execRej0 s := rfl

theorem exec_rej1 (s : State) : exec .rej1 s = execRej1 s := rfl

theorem exec_i0 (s : State) : exec .i0 s = execI0 s := rfl

theorem exec_i1 (s : State) : exec .i1 s = execI1 s := rfl

theorem exec_rr_of_sendWait {s : State} {i : Instr} {t : Toggle} (hp : s.phase = .sendWait)
    (hi : i = .rr0 ∧ t = false ∨ i = .rr1 ∧ t = true) : exec i s = .next (s.onRR t) := by
  obtain ⟨rfl, rfl⟩ | ⟨rfl, rfl⟩ := hi
  · rw [exec_rr0, execRr0_of_sendWait hp]
  · rw [exec_rr1, execRr1_of_sendWait hp]

theorem exec_rej_of_sendWait {s : State} {i : Instr} (hp : s.phase = .sendWait) (hi : i = .rej0 ∨ i = .rej1) :
    exec i s = .next s.onREJ := by
  obtain rfl | rfl := hi
  · rw [exec_rej0, execRej0, if_pos hp]
  · rw [exec_rej1, execRej1, if_pos hp]

theorem exec_info_of_recvWait {s : State} {i : Instr} {t : Toggle} (hp : s.phase = .recvWait)
    (hi : i = .i0 ∧ t = false ∨ i = .i1 ∧ t = true) : exec i s = .next (s.onInfo t) := by
  obtain ⟨rfl, rfl⟩ | ⟨rfl, rfl⟩ := hi
  · rw [exec_i0, execI0, if_pos hp]
  · rw [exec_i1, execI1, if_pos hp]

/-! ### Acknowledgments in SEND_WAIT (R215, R216) -/

/-- Settles O27: the RR naming `send_toggle` is `ReaderInit` and nothing more. -/
theorem sameToggleRrIgnored : Obligations.SameToggleRrIgnored := by
  intro s i hp hi
  have hrr : exec i s = .next (s.onRR s.sendToggle) := exec_rr_of_sendWait hp hi
  obtain ⟨hother, -⟩ | ⟨-, hs⟩ := onRR_cases s s.sendToggle
  · cases h : s.sendToggle <;> rw [h] at hother <;> cases hother
  · rw [hrr, hs, State.readerInit]

theorem attempt_of_budget {s : State} {op : TimedOp} (h : s.tries < s.retryLimit) :
    s.attempt op = { s with tries := s.tries + 1 }.retransmit op := if_pos h

theorem attempt_of_exhausted {s : State} {op : TimedOp} (h : s.retryLimit ≤ s.tries) : s.attempt op = s.exhausted op :=
  if_neg (BitVec.not_lt.2 h)

/-- What a REJ counts, with the reader stopped and the timer off. -/
theorem rejCounted_eq (s : State) :
    s.readerStop.disarm.countInvalid.countRetransmission = { s with
      rs := .start, armed := false, framesInvalid := s.framesInvalid + 1, framesTotal := s.framesTotal + 1
      retransmissions := s.retransmissions + 1 } := by
  ext1 <;> simp

/-- Settles O28: a REJ goes through the attempt loop, or around it where REJs use no budget. -/
theorem rejRetransmitsAtOnce : Obligations.RejRetransmitsAtOnce := by
  intro s i hp hi
  rw [exec_rej_of_sendWait hp hi]
  constructor
  · intro hbudget
    obtain ⟨hconsumes, hs⟩ | ⟨hfree, hs⟩ := onREJ_cases s
    · have hlt : s.tries < s.retryLimit := hbudget.resolve_left (by simp [hconsumes])
      rw [hs, rejCounted_eq, attempt_of_budget, hconsumes]
      · rfl
      · exact hlt
    · rw [hs, rejCounted_eq, hfree]; rfl
  · intro hconsumes hle
    obtain ⟨-, hs⟩ | ⟨hfree, -⟩ := onREJ_cases s
    · rw [hs, rejCounted_eq, attempt_of_exhausted]
      · rfl
      · exact hle
    · rw [hconsumes] at hfree; cases hfree

/-! ### Information frames in RECV_WAIT (R233, R235, R237) -/

theorem onInfo_of_reject {s : State} {why : RejectReason} (h : checkPayload s.params.maxPayload s.rawBytes s.ovf = .reject why)
    (t : Toggle) :
    s.onInfo t = s.readerStop.countInvalid.transmit (s.replyFrame (controlOfREJ s.expectToggle)) .recvTxRej := by
  rw [State.onInfo, h]

theorem onInfo_of_duplicate {s : State} {payload : List Byte} {t : Toggle}
    (h : checkPayload s.params.maxPayload s.rawBytes s.ovf = .accept payload) (ht : t ≠ s.expectToggle) :
    s.onInfo t = s.readerStop.countDuplicate.transmit (s.replyFrame (controlOfRR s.expectToggle)) .recvTxDup := by
  rw [State.onInfo, h]; exact if_pos ht

theorem onInfo_of_new {s : State} {payload : List Byte}
    (h : checkPayload s.params.maxPayload s.rawBytes s.ovf = .accept payload) :
    s.onInfo s.expectToggle = (s.readerStop.storePayload payload).flipExpectToggle.countValid.transmit
      (s.replyFrame (controlOfRR (!s.expectToggle))) .recvTxAck := by
  rw [State.onInfo, h]; exact if_neg (by simp)

theorem rejected_eq (s : State) (xs : List Byte) :
    s.readerStop.countInvalid.transmit xs .recvTxRej = { s with
      rs := .start, framesInvalid := s.framesInvalid + 1, framesTotal := s.framesTotal + 1, phase := .recvTxRej, txq := xs } := by
  ext1 <;> simp

theorem duplicate_eq (s : State) (xs : List Byte) :
    s.readerStop.countDuplicate.transmit xs .recvTxDup = { s with
      rs := .start, framesDuplicate := s.framesDuplicate + 1, framesTotal := s.framesTotal + 1, phase := .recvTxDup
      txq := xs } := by
  ext1 <;> simp

theorem stored_eq (s : State) (payload xs : List Byte) :
    (s.readerStop.storePayload payload).flipExpectToggle.countValid.transmit xs .recvTxAck = { s with
      rs := .start, rxbuf := s.rxbuf.writeBytes 0 payload, rxLen := BitVec.ofNat 16 payload.length
      expectToggle := !s.expectToggle, framesValid := s.framesValid + 1, framesTotal := s.framesTotal + 1, phase := .recvTxAck
      txq := xs } := by
  ext1 <;> simp

/-- Settles O29: the reject path is the same whichever toggle the frame carries and whatever the reason. -/
theorem rejectedFrameAnsweredByRej : Obligations.RejectedFrameAnsweredByRej := by
  intro s i why hp hi hreject
  have hinfo : ∃ t, exec i s = .next (s.onInfo t) :=
    hi.elim (fun h => ⟨false, exec_info_of_recvWait hp (.inl ⟨h, rfl⟩)⟩) fun h => ⟨true, exec_info_of_recvWait hp (.inr ⟨h, rfl⟩)⟩
  obtain ⟨t, ht⟩ := hinfo
  rw [ht, onInfo_of_reject hreject, rejected_eq]; rfl

/-- Settles O30: an accepted frame of the toggle not expected. -/
theorem duplicateFrameAcknowledgedAgain : Obligations.DuplicateFrameAcknowledgedAgain := by
  intro s i payload hp hi haccept
  have hinfo : exec i s = .next (s.onInfo (!s.expectToggle)) := by
    apply exec_info_of_recvWait hp
    obtain ⟨rfl, ht⟩ | ⟨rfl, ht⟩ := hi <;> simp [ht]
  rw [hinfo, onInfo_of_duplicate haccept (by simp), duplicate_eq]; rfl

theorem replyFrame_rr_not (s : State) :
    s.replyFrame (controlOfRR (!s.expectToggle)) = encodeSupervisory (if s.expectToggle then 0xAA else 0xAB) s.params.aRpl := by
  cases s.expectToggle <;> rfl

/-- Settles O31: the payload is written from `RXBUF[0]` up, so the buffer reads as the payload below its length and as before above. -/
theorem newFrameDelivered : Obligations.NewFrameDelivered := by
  intro s i payload hp hi haccept
  have hinfo : exec i s = .next (s.onInfo s.expectToggle) := exec_info_of_recvWait hp hi
  refine ⟨s.rxbuf.writeBytes 0 payload, ?_, fun k hk => Memory.read?_writeBytes_below _ _ _ hk,
    fun k hk => Memory.read?_writeBytes_above _ _ _ hk⟩
  rw [hinfo, onInfo_of_new haccept, stored_eq, replyFrame_rr_not]

/-! ### The delimiter, and frames no wait accepts (R151 to R159, R101) -/

/-- The nine control bytes and the frame kinds they stand for (R95). -/
theorem decodeControl_cases {c : Byte} {i : Instr} (h : decodeControl c = .ok i) :
    c = C_SET ∧ i = .set ∨ c = C_UA ∧ i = .ua ∨ c = C_DISC ∧ i = .disc ∨ c = C_RR0 ∧ i = .rr0 ∨ c = C_RR1 ∧ i = .rr1 ∨
      c = C_REJ0 ∧ i = .rej0 ∨ c = C_REJ1 ∧ i = .rej1 ∨ c = C_I0 ∧ i = .i0 ∨ c = C_I1 ∧ i = .i1 := by
  unfold decodeControl at h
  (repeat' split at h) <;> cases h <;> simp_all

/-- The frame kinds run as themselves. -/
theorem runFrame_eq_exec {c : Byte} {i : Instr} (h : decodeControl c = .ok i) (s : State) : runFrame i s = exec i s := by
  obtain ⟨-, rfl⟩ | ⟨-, rfl⟩ | ⟨-, rfl⟩ | ⟨-, rfl⟩ | ⟨-, rfl⟩ | ⟨-, rfl⟩ | ⟨-, rfl⟩ | ⟨-, rfl⟩ | ⟨-, rfl⟩ :=
    decodeControl_cases h <;> rfl

theorem phase_ne_of_not_accepted {p q : Phase} {c : Byte} (h : c ∉ p.accept) (hq : c ∈ q.accept) : p ≠ q := by
  rintro rfl; exact h hq

/-- Where the wait does not accept the frame's control byte, its closing FLAG ends no accepted frame. -/
theorem exec_of_not_accepted {s : State} {c : Byte} {i : Instr} (h : decodeControl c = .ok i) (hacc : c ∉ s.phase.accept) :
    exec i s = s.takeIdleFlag := by
  have hne : ∀ q : Phase, c ∈ q.accept → s.phase ≠ q := fun q => phase_ne_of_not_accepted hacc
  obtain ⟨rfl, rfl⟩ | ⟨rfl, rfl⟩ | ⟨rfl, rfl⟩ | ⟨rfl, rfl⟩ | ⟨rfl, rfl⟩ | ⟨rfl, rfl⟩ | ⟨rfl, rfl⟩ | ⟨rfl, rfl⟩ | ⟨rfl, rfl⟩ :=
    decodeControl_cases h
  · exact if_neg (hne .openRWait (by decide))
  · exact if_neg (hne .openIWait (by decide))
  · exact (if_neg (hne .closeIWait (by decide))).trans (if_neg (hne .closeRWait (by decide)))
  · exact if_neg (hne .sendWait (by decide))
  · exact if_neg (hne .sendWait (by decide))
  · exact if_neg (hne .sendWait (by decide))
  · exact if_neg (hne .sendWait (by decide))
  · exact if_neg (hne .recvWait (by decide))
  · exact if_neg (hne .recvWait (by decide))

theorem takeIdleFlag_outside_wait {s : State} (h : s.phase.isWait = false) : s.takeIdleFlag = .next s := by
  simp [State.takeIdleFlag, h]

/-- A FLAG while the reader hunts or holds part of a header. -/
theorem takeIdleFlag_in_header {s : State} (hw : s.phase.isWait = true)
    (hrs : s.rs = .start ∨ s.rs = .flagSeen ∨ s.rs = .addressSeen ∨ s.rs = .controlSeen) :
    s.takeIdleFlag = .next { s with rs := .flagSeen } := by
  rw [State.takeIdleFlag, if_pos hw]
  obtain hrs | hrs | hrs | hrs := hrs <;> rw [hrs]

/-- Settles O32: an unaccepted kind's FLAG is `takeIdleFlag`. -/
theorem unacceptedFrameIgnored : Obligations.UnacceptedFrameIgnored := by
  intro s i c hd hacc
  rw [exec_of_not_accepted hd hacc]
  refine ⟨fun hw h1 h2 h3 h4 => takeIdleFlag_in_header hw ?_, takeIdleFlag_outside_wait⟩
  cases hrs : s.rs <;> simp_all

theorem heldFrame_of_header {s : State} (hrs : s.rs = .start ∨ s.rs = .flagSeen ∨ s.rs = .addressSeen ∨ s.rs = .controlSeen) :
    s.heldFrame = none := by
  obtain hrs | hrs | hrs | hrs := hrs <;> rw [State.heldFrame, hrs]

theorem heldFrame_of_complete {s : State} {i : Instr} (hrs : s.rs = .bccOk ∨ s.rs = .collecting ∧ isInfo s.ctl = true)
    (hd : decodeControl s.ctl = .ok i) : s.heldFrame = some i := by
  obtain hrs | ⟨hrs, hinfo⟩ := hrs
  · simp only [State.heldFrame, hrs, hd]; rfl
  · simp only [State.heldFrame, hrs, hinfo, hd, if_true]; rfl

/-- A FLAG that ends a frame whose header is complete runs the frame of the remembered control byte. -/
theorem execFlag_of_complete {s : State} {i : Instr} (hrs : s.rs = .bccOk ∨ s.rs = .collecting ∧ isInfo s.ctl = true)
    (hd : decodeControl s.ctl = .ok i) : execFlag s = exec i s := by
  rw [execFlag, heldFrame_of_complete hrs hd]
  exact runFrame_eq_exec hd s

theorem execFlag_in_header {s : State} (hw : s.phase.isWait = true)
    (hrs : s.rs = .start ∨ s.rs = .flagSeen ∨ s.rs = .addressSeen ∨ s.rs = .controlSeen) :
    execFlag s = .next { s with rs := .flagSeen } := by
  rw [execFlag, heldFrame_of_header hrs]
  exact takeIdleFlag_in_header hw hrs

theorem execFlag_outside_wait {s : State} (h : s.phase.isWait = false) : execFlag s = .next s := by
  unfold execFlag
  split
  · next i hheld =>
    have hd := (heldFrame_some hheld).2
    rw [runFrame_eq_exec hd, exec_of_not_accepted hd (by rw [Phase.accept_nil h]; simp), takeIdleFlag_outside_wait h]
  · exact takeIdleFlag_outside_wait h

/-- Settles O33: by what the reader holds. -/
theorem flagOpensOrEndsFrame : Obligations.FlagOpensOrEndsFrame :=
  fun _ => ⟨execFlag_outside_wait, execFlag_in_header, fun _ => execFlag_of_complete⟩

/-! ### Escape pairs (R134, R156, R157) -/

/-- The second byte of an escape pair is taken like any other byte. -/
theorem exec_escape {s : State} {i : Instr} {x : Byte}
    (hi : i = .escFlag ∧ x = 0x5E ∨ i = .escEsc ∧ x = 0x5D ∨ i = .escAny x ∧ x ≠ 0x7E) : x ≠ FLAG ∧ exec i s = s.takeByte x := by
  obtain ⟨rfl, rfl⟩ | ⟨rfl, rfl⟩ | ⟨rfl, hx⟩ := hi
  · exact ⟨by decide, rfl⟩
  · exact ⟨by decide, rfl⟩
  · exact ⟨hx, if_neg hx⟩

theorem takeByte_outside_wait {s : State} (h : s.phase.isWait = false) (b : Byte) : s.takeByte b = .next s := by
  simp [State.takeByte, h]

theorem takeByte_in_wait {s : State} (hw : s.phase.isWait = true) (hcheck : s.rs ≠ .check) (hdone : s.rs ≠ .done) (b : Byte) :
    s.takeByte b = .next (s.readerStep b) := by
  rw [State.takeByte, if_pos hw]
  cases hrs : s.rs <;> simp_all

/-- The reader's step where the table leads neither to CONTROL_SEEN nor to COLLECTING. -/
theorem readerStep_of_next {s : State} {b : Byte} {r : ReaderState}
    (h : readerNext (s.phase.expAddr s.params) s.phase.accept s.ctl s.rs b = r) (hc : r ≠ .controlSeen) (hr : r ≠ .collecting) :
    s.readerStep b = { s with rs := r } := by
  subst h
  obtain ⟨h, -⟩ | ⟨h, -⟩ | ⟨-, -, hs⟩ := readerStep_cases s b
  · exact absurd h hc
  · exact absurd h hr
  · exact hs

theorem readerStep_of_accepted {s : State} {b : Byte} (hrs : s.rs = .addressSeen) (hb : b ≠ FLAG) (hacc : b ∈ s.phase.accept) :
    s.readerStep b = { s with rs := .controlSeen, ctl := b } := by
  rw [State.readerStep, hrs, readerNext, if_neg hb, if_pos hacc]

/-- The reader's step that collects a byte of the region. -/
theorem readerStep_of_region {s : State} {b : Byte} (hrs : s.rs = .collecting ∨ s.rs = .bccOk ∧ isInfo s.ctl = true)
    (hb : b ≠ FLAG) : s.readerStep b = { s.appendRaw b with rs := .collecting } := by
  obtain hrs | ⟨hrs, hinfo⟩ := hrs
  · rw [State.readerStep, hrs, readerNext, if_neg hb]
  · rw [State.readerStep, hrs, readerNext, if_pos hinfo, if_neg hb]

/-- Settles O35: `takeByte`, by the rows of the reader's table. -/
theorem escapeBytesPlainOutsideRegion : Obligations.EscapeBytesPlainOutsideRegion := by
  intro s i x hi
  obtain ⟨hx, hexec⟩ := exec_escape (s := s) hi
  rw [hexec]
  refine ⟨fun hw => ⟨?_, fun hrs => ?_, fun hrs => ?_, fun hrs => ?_⟩, fun hw => takeByte_outside_wait hw x⟩
  · rintro (hrs | ⟨hrs, hinfo⟩) <;> rw [takeByte_in_wait hw (by simp [hrs]) (by simp [hrs])]
    · rw [readerStep_of_next (r := .start) (by rw [hrs, readerNext, if_neg hx]) (by simp) (by simp)]
    · rw [readerStep_of_next (r := .start) (by simp [hrs, readerNext, hinfo, hx]) (by simp) (by simp)]
  · rw [takeByte_in_wait hw (by simp [hrs]) (by simp [hrs])]
    rw [readerStep_of_next (by rw [hrs, readerNext, if_neg hx]) (by split <;> simp) (by split <;> simp)]
  · rw [takeByte_in_wait hw (by simp [hrs]) (by simp [hrs])]
    split
    · next hacc => rw [readerStep_of_accepted hrs hx hacc]
    · next hacc =>
      rw [readerStep_of_next (r := .start) (by rw [hrs, readerNext, if_neg hx, if_neg hacc]) (by simp) (by simp)]
  · rw [takeByte_in_wait hw (by simp [hrs]) (by simp [hrs])]
    rw [readerStep_of_next (by rw [hrs, readerNext, if_neg hx]) (by split <;> simp) (by split <;> simp)]
    rfl

theorem readerStep_collecting {s : State} {b : Byte} (hrs : s.rs = .collecting) (hb : b ≠ FLAG) :
    s.readerStep b = s.appendRaw b := by
  rw [readerStep_of_region (.inl hrs) hb]
  ext1 <;> simp [hrs]

/-- Settles O34: the byte is appended behind the pending escape, and the pair destuffs to one byte (`destuff_pair`). -/
theorem escapePairDestuffs : Obligations.EscapePairDestuffs := by
  intro s i x before d hi hw hrs hm hraw hd
  obtain ⟨hx, hexec⟩ := exec_escape (s := s) hi
  rw [hexec, takeByte_in_wait hw (by simp [hrs]) (by simp [hrs]), readerStep_collecting hrs hx]
  constructor
  · intro hroom
    have hbytes : (s.appendRaw x).rawBytes = before ++ [ESC, x] := by
      rw [rawBytes_appendRaw s x hm hroom, hraw, List.append_assoc]; rfl
    refine ⟨s.appendRaw x, rfl, hbytes, ?_, ?_⟩
    · rw [hbytes]; exact destuff_pair before d x hd
    · obtain ⟨-, hs⟩ | ⟨hfull, -⟩ := appendRaw_cases s x
      · rw [hs]
      · omega
  · intro hfull
    obtain ⟨hroom, -⟩ | ⟨-, hs⟩ := appendRaw_cases s x
    · omega
    · rw [hs]

/-! ### What the frames leave alone -/

/-- A FLAG that ends no accepted frame moves `rs` alone. -/
theorem takeIdleFlag_rs {s t : State} (h : s.takeIdleFlag = .next t) : ∃ r, t = { s with rs := r } := by
  obtain ⟨-, rfl⟩ | ⟨-, -, rfl⟩ | ⟨-, -, rfl⟩ := takeIdleFlag_next h
  · exact ⟨t.rs, rfl⟩
  · exact ⟨_, rfl⟩
  · exact ⟨_, rfl⟩

/-- A frame kind either meets its wait or is a FLAG that ends no accepted frame. -/
theorem next_of_frame {p : Prop} [Decidable p] {s t u : State} (h : (if p then Host.Outcome.next u else s.takeIdleFlag) = .next t) :
    t = u ∨ ∃ r, t = { s with rs := r } := by
  split at h
  · exact .inl (by simpa using h.symm)
  · exact .inr (takeIdleFlag_rs h)

/-- Everything a supervisory frame can do. -/
theorem supervisory_next {s t : State} {i : Instr} (hi : i ∈ [Instr.set, .ua, .disc, .rr0, .rr1, .rej0, .rej1])
    (h : exec i s = .next t) :
    (∃ r, t = { s with rs := r }) ∨ i = .set ∧ t = s.readerStop.transmit (s.replyFrame C_UA) .openRTx ∨
      i = .ua ∧ t = { s.readerStop with sess := .opened }.complete .ok 0 ∨
      i = .disc ∧ (t = s.readerStop.teardown.complete .ok 0 ∨ t = s.readerStop.transmit (s.replyFrame C_DISC) .closeRTx) ∨
      i ∈ [Instr.rr0, .rr1] ∧ (∃ r, t = s.onRR r) ∨ i ∈ [Instr.rej0, .rej1] ∧ t = s.onREJ := by
  simp only [List.mem_cons, List.not_mem_nil, or_false] at hi
  obtain rfl | rfl | rfl | rfl | rfl | rfl | rfl := hi
  · obtain ht | hr := next_of_frame h
    · exact .inr (.inl ⟨rfl, ht⟩)
    · exact .inl hr
  · obtain ht | hr := next_of_frame h
    · exact .inr (.inr (.inl ⟨rfl, ht⟩))
    · exact .inl hr
  · rw [exec_disc, execDisc] at h
    split at h
    · cases h; exact .inr (.inr (.inr (.inl ⟨rfl, .inl rfl⟩)))
    · obtain ht | hr := next_of_frame h
      · exact .inr (.inr (.inr (.inl ⟨rfl, .inr ht⟩)))
      · exact .inl hr
  · obtain ht | hr := next_of_frame h
    · exact .inr (.inr (.inr (.inr (.inl ⟨by simp, false, ht⟩))))
    · exact .inl hr
  · obtain ht | hr := next_of_frame h
    · exact .inr (.inr (.inr (.inr (.inl ⟨by simp, true, ht⟩))))
    · exact .inl hr
  · obtain ht | hr := next_of_frame h
    · exact .inr (.inr (.inr (.inr (.inr ⟨by simp, ht⟩))))
    · exact .inl hr
  · obtain ht | hr := next_of_frame h
    · exact .inr (.inr (.inr (.inr (.inr ⟨by simp, ht⟩))))
    · exact .inl hr

/-- Settles O37: by everything a supervisory frame can do, field by field. -/
theorem supervisoryFrameFrame : Obligations.SupervisoryFrameFrame := by
  intro s t i hi h
  obtain ⟨r, rfl⟩ | ⟨rfl, rfl⟩ | ⟨rfl, rfl⟩ | ⟨rfl, rfl | rfl⟩ | ⟨hi, r, rfl⟩ | ⟨hi, rfl⟩ := supervisory_next hi h
  · exact ⟨fun _ => ⟨rfl, rfl, rfl⟩, by simp⟩
  · simp
  · simp [State.txbufByte, State.rxbufByte, State.rawByte]
  · simp
  · simp
  · have hi' : i ∉ [Instr.rej0, .rej1] ∧ i ∉ [Instr.ua, .disc] ∧ i ≠ .disc ∧ i ≠ .set := by
      simp only [List.mem_cons, List.not_mem_nil, or_false] at hi
      obtain rfl | rfl := hi <;> simp
    obtain ⟨-, hs⟩ | ⟨-, hs⟩ := onRR_cases s r <;> rw [hs] <;> simp [hi, hi']
  · have hi' : i ∉ [Instr.rr0, .rr1] ∧ i ∉ [Instr.ua, .disc] ∧ i ≠ .disc ∧ i ≠ .set ∧ i ∉ [Instr.ua, .rr0, .rr1] := by
      simp only [List.mem_cons, List.not_mem_nil, or_false] at hi
      obtain rfl | rfl := hi <;> simp
    obtain ⟨-, hs⟩ | ⟨-, hs⟩ := onREJ_cases s <;> rw [hs] <;> simp [hi, hi']

/-- Everything an information frame can do. -/
theorem info_next {s t : State} {i : Instr} (hi : i ∈ [Instr.i0, .i1]) (h : exec i s = .next t) :
    (∃ r, t = { s with rs := r }) ∨ ∃ r, t = s.onInfo r := by
  simp only [List.mem_cons, List.not_mem_nil, or_false] at hi
  obtain rfl | rfl := hi
  · exact (next_of_frame h).symm.imp_right fun ht => ⟨false, ht⟩
  · exact (next_of_frame h).symm.imp_right fun ht => ⟨true, ht⟩

/-- RXBUF above the payload that is written to it. -/
theorem storePayload_rxbufByte_above (s : State) {payload : List Byte} {a : Nat} (h : payload.length ≤ a) :
    (s.storePayload payload).rxbufByte a = s.rxbufByte a := by
  simp only [State.rxbufByte, State.storePayload, Memory.read?_writeBytes_above _ _ _ h]

/-- Settles O38: by the three ends of an information frame; only the new frame writes RXBUF, and it flips the toggle. -/
theorem informationFrameFrame : Obligations.InformationFrameFrame := by
  intro s t i hi h
  obtain ⟨r, rfl⟩ | ⟨r, rfl⟩ := info_next hi h
  · exact ⟨fun _ => ⟨rfl, rfl⟩, fun _ _ _ _ => rfl, fun _ _ _ => rfl, fun _ => ⟨fun _ => rfl, rfl⟩, by simp⟩
  · obtain ⟨why, -, hs⟩ | ⟨payload, haccept, ⟨-, hs⟩ | ⟨-, hs⟩⟩ := onInfo_cases s r <;> rw [hs]
    · simp
    · simp
    · rw [haccept]
      refine ⟨by simp, ?_, by simp, by simp, by simp⟩
      rintro _ ⟨⟩ a ha
      simpa using storePayload_rxbufByte_above s.readerStop ha

/-- Settles O39: the byte goes through the reader's table; only the entry to CONTROL_SEEN writes `ctl`, only that to COLLECTING writes RAW. -/
theorem escapePairFrame : Obligations.EscapePairFrame := by
  intro s t i hi h
  have hx : ∃ x, (i = .escFlag ∧ x = 0x5E ∨ i = .escEsc ∧ x = 0x5D ∨ i = .escAny x ∧ x ≠ 0x7E) := by
    obtain rfl | rfl | ⟨x, rfl, hx⟩ := hi
    · exact ⟨0x5E, by simp⟩
    · exact ⟨0x5D, by simp⟩
    · exact ⟨x, .inr (.inr ⟨rfl, hx⟩)⟩
  obtain ⟨x, hx⟩ := hx
  rw [(exec_escape hx).2] at h
  obtain ⟨-, rfl⟩ | ⟨hw, -, -, rfl⟩ := takeByte_next h
  · simp
  · obtain ⟨hn, hs⟩ | ⟨hn, hs⟩ | ⟨-, -, hs⟩ := readerStep_cases s x <;> rw [hs]
    · have hrs := (readerNext_controlSeen hn).1
      exact ⟨rfl, fun _ _ => rfl, fun _ => ⟨fun _ => rfl, rfl⟩, fun hctl => absurd ⟨hw, hrs⟩ hctl⟩
    · have hregion := (readerNext_collecting hn).2
      obtain ⟨hroom, hs⟩ | ⟨-, hs⟩ := appendRaw_cases s x <;> rw [hs]
      · refine ⟨rfl, fun a ha => ?_, fun hno => absurd ⟨hw, hregion, hroom⟩ hno, fun _ => rfl⟩
        simp only [State.rawByte, Memory.read?_write_ne _ _ ha.symm]
      · exact ⟨rfl, fun _ _ => rfl, fun _ => ⟨fun _ => rfl, rfl⟩, fun _ => rfl⟩
    · exact ⟨rfl, fun _ _ => rfl, fun _ => ⟨fun _ => rfl, rfl⟩, fun _ => rfl⟩

end Sys2Proof.Machine

/-! PROOFS. The four host commands (spec/42_session_open_close.md, 43_session_send.md, 44_session_receive.md, 60_exceptions.md R277, R286). -/

namespace Sys2Proof.Machine

/-! ### The arms of the commands, and which of their cases a state selects -/

theorem exec_openCmd (role : Role) (n : BitVec 8) (d : BitVec 16) (s : State) :
    exec (.openCmd role n d) s = execOpenCmd role n d s := rfl

theorem exec_sendCmd (len : BitVec 16) (s : State) : exec (.sendCmd len) s = execSendCmd len s := rfl

theorem exec_receiveCmd (s : State) : exec .receiveCmd s = execReceiveCmd s := rfl

theorem exec_closeCmd (stats : Bool) (s : State) : exec (.closeCmd stats) s = execCloseCmd stats s := rfl

theorem execOpenCmd_accepted {s : State} {role : Role} {n : BitVec 8} {d : BitVec 16} (hp : s.phase = .idle)
    (hsess : s.sess = .closed) (hd : d ≠ 0) (havail : s.chanAvail = true) :
    execOpenCmd role n d s = .next (s.beginOpen role n d) := by
  rw [execOpenCmd, if_neg (by simp [hp]), if_neg (by simp [hsess]), if_neg hd, if_neg (by simp [havail])]

theorem execOpenCmd_unavailable {s : State} {role : Role} {n : BitVec 8} {d : BitVec 16} (hp : s.phase = .idle)
    (hsess : s.sess = .closed) (hd : d ≠ 0) (havail : s.chanAvail = false) :
    execOpenCmd role n d s = .next (s.complete .channelUnavailable 0) := by
  rw [execOpenCmd, if_neg (by simp [hp]), if_neg (by simp [hsess]), if_neg hd, if_pos havail]

theorem execOpenCmd_refused {s : State} {role : Role} {n : BitVec 8} {d : BitVec 16} (hp : s.phase = .idle)
    (h : s.sess = .opened ∨ d = 0) : execOpenCmd role n d s = .next s.refuse := by
  obtain h | h := h <;> simp [execOpenCmd, hp, h]

theorem execSendCmd_accepted {s : State} {len : BitVec 16} (hp : s.phase = .idle) (hsess : s.sess = .opened)
    (hlen : len.toNat ≤ s.params.maxPayload) : execSendCmd len s = .next (s.beginSend len) := by
  simp [execSendCmd, hp, hsess, Nat.not_lt.2 hlen]

theorem execSendCmd_refused {s : State} {len : BitVec 16} (hp : s.phase = .idle)
    (h : s.sess = .closed ∨ s.params.maxPayload < len.toNat) : execSendCmd len s = .next s.refuse := by
  obtain h | h := h <;> simp [execSendCmd, hp, h]

theorem execReceiveCmd_accepted {s : State} (hp : s.phase = .idle) (hsess : s.sess = .opened) :
    execReceiveCmd s = .next s.beginReceive := by
  simp [execReceiveCmd, hp, hsess]

theorem execReceiveCmd_refused {s : State} (hp : s.phase = .idle) (hsess : s.sess = .closed) :
    execReceiveCmd s = .next s.refuse := by
  simp [execReceiveCmd, hp, hsess]

theorem execCloseCmd_accepted {s : State} {stats : Bool} (hp : s.phase = .idle) (hsess : s.sess = .opened) :
    execCloseCmd stats s = .next (s.beginClose stats) := by
  simp [execCloseCmd, hp, hsess]

theorem execCloseCmd_refused {s : State} {stats : Bool} (hp : s.phase = .idle) (hsess : s.sess = .closed) :
    execCloseCmd stats s = .next s.refuse := by
  simp [execCloseCmd, hp, hsess]

/-! ### What a command begins, field by field -/

/-- The registers an accepted OPEN writes before its handshake starts (R181). -/
theorem beginOpen_eq (s : State) (role : Role) (n : BitVec 8) (d : BitVec 16) :
    s.beginOpen role n d =
      let t : State := { s with
        done := false, role := role, retryLimit := n, timeoutDuration := d, sendToggle := false, expectToggle := false
        framesTotal := 0, framesValid := 0, framesInvalid := 0, framesDuplicate := 0, retransmissions := 0, timeouts := 0
        statsValid := false, tries := 0 }
      match role with
      | .initiator => t.attempt .openOp
      | .responder => t.startWait .openRWait := by
  cases role <;> rfl

/-- A wait without a timer starts with the reader initialised (R259). -/
theorem startWait_of_not_timed {p : Phase} (s : State) (hp : p.isTimed = false) :
    s.startWait p = { s with phase := p, rs := .start, rawLen := 0, ovf := false } := by
  simp only [State.startWait, hp]; rfl

theorem beginClose_initiator {s : State} (h : s.role = .initiator) (stats : Bool) :
    s.beginClose stats = State.attempt { s with done := false, tries := 0, statsValid := stats } .closeOp := by
  rw [State.beginClose, h]

theorem beginClose_responder {s : State} (h : s.role = .responder) (stats : Bool) :
    s.beginClose stats = State.startWait { s with done := false, tries := 0, statsValid := stats } .closeRWait := by
  rw [State.beginClose, h]

theorem zero_lt_of_ne_zero {n : BitVec 8} (h : n ≠ 0) : (0 : BitVec 8) < n := by bv_omega

/-! ### The obligations -/

/-- Settles O14: the registers of R181, then the first attempt within the budget. -/
theorem openInitiatorSendsSet : Obligations.OpenInitiatorSendsSet := by
  intro s n d hp hsess hd havail hn
  rw [exec_openCmd, execOpenCmd_accepted hp hsess hd havail, beginOpen_eq]
  dsimp only
  rw [attempt_of_budget]
  · rfl
  · exact zero_lt_of_ne_zero hn

/-- Settles O15: the registers of R181, then a wait without a timer. -/
theorem openResponderWaits : Obligations.OpenResponderWaits := by
  intro s n d hp hsess hd havail
  rw [exec_openCmd, execOpenCmd_accepted hp hsess hd havail, beginOpen_eq]
  dsimp only
  rw [startWait_of_not_timed _ rfl]

/-- Settles O16: `Complete` in IDLE with the timer off moves the completion record alone. -/
theorem openChannelUnavailable : Obligations.OpenChannelUnavailable := by
  intro s role n d hp hsess hd havail harmed
  rw [exec_openCmd, execOpenCmd_unavailable hp hsess hd havail, complete_eq]
  congr 1
  ext1 <;> simp [hp, harmed]

/-- What `exhausted` leaves, in IDLE (R255). -/
theorem exhausted_in_idle {s : State} (hp : s.phase = .idle) :
    s.exhausted .openOp = { s with
      chanRelease := true, armed := false, done := true, status := .handshakeTimeout, resultLen := 0 } ∧
    s.exhausted .sendOp = { s with armed := false, done := true, status := .linkExhausted, resultLen := 0 } ∧
    s.exhausted .closeOp = { s with
      sess := .closed, chanRelease := true, armed := false, done := true, status := .handshakeTimeout, resultLen := 0 } := by
  refine ⟨?_, ?_, ?_⟩ <;> ext1 <;> simp [State.exhausted, hp]

/-- Settles O17: with no budget the attempt loop fails before its first attempt, in IDLE still. -/
theorem zeroRetryLimitFailsAtOnce : Obligations.ZeroRetryLimitFailsAtOnce := by
  intro s hp
  refine ⟨fun d hsess hd havail => ?_, fun len hsess hretry hlen => ?_, fun stats hsess hrole hretry => ?_⟩
  · rw [exec_openCmd, execOpenCmd_accepted hp hsess hd havail, beginOpen_eq]
    dsimp only
    rw [attempt_of_exhausted (by simp), (exhausted_in_idle _).1]
    exact hp
  · rw [exec_sendCmd, execSendCmd_accepted hp hsess hlen, State.beginSend, attempt_of_exhausted (by simp [hretry]),
      (exhausted_in_idle _).2.1]
    exact hp
  · rw [exec_closeCmd, execCloseCmd_accepted hp hsess, beginClose_initiator hrole, attempt_of_exhausted (by simp [hretry]),
      (exhausted_in_idle _).2.2]
    exact hp

/-- Settles O18: each command's own check answers `Refuse`. -/
theorem illegalCommandsRefused : Obligations.IllegalCommandsRefused := by
  intro s i hp hi
  obtain ⟨role, n, d, rfl, h⟩ | ⟨len, rfl, h⟩ | ⟨rfl, h⟩ | ⟨stats, rfl, h⟩ := hi
  · rw [exec_openCmd, execOpenCmd_refused hp h, State.refuse]
  · rw [exec_sendCmd, execSendCmd_refused hp h, State.refuse]
  · rw [exec_receiveCmd, execReceiveCmd_refused hp h, State.refuse]
  · rw [exec_closeCmd, execCloseCmd_refused hp h, State.refuse]

/-- Settles O19: the first attempt of the SEND, within the budget. -/
theorem sendEmitsFrame : Obligations.SendEmitsFrame := by
  intro s len hp hsess hlen hretry
  rw [exec_sendCmd, execSendCmd_accepted hp hsess hlen, State.beginSend, attempt_of_budget]
  · rfl
  · exact zero_lt_of_ne_zero hretry

/-- Settles O20: the start of RECV_WAIT, which has no timer. -/
theorem receiveStartsReading : Obligations.ReceiveStartsReading := by
  intro s hp hsess
  rw [exec_receiveCmd, execReceiveCmd_accepted hp hsess, State.beginReceive, startWait_of_not_timed _ rfl]

/-- Settles O21: the first attempt as initiator, the start of a wait as responder. -/
theorem closeStartsHandshake : Obligations.CloseStartsHandshake := by
  intro s stats hp hsess
  rw [exec_closeCmd, execCloseCmd_accepted hp hsess]
  constructor
  · intro hrole hretry
    rw [beginClose_initiator hrole, attempt_of_budget]
    · rfl
    · exact zero_lt_of_ne_zero hretry
  · intro hrole
    rw [beginClose_responder hrole, startWait_of_not_timed _ rfl]

/-- Settles O22: the first check of each command. -/
theorem busyTakesNoCommand : Obligations.BusyTakesNoCommand := by
  intro s i hp hi
  obtain ⟨role, n, d, rfl⟩ | ⟨len, rfl⟩ | rfl | ⟨stats, rfl⟩ := hi
  · rw [exec_openCmd, execOpenCmd, if_pos hp]
  · rw [exec_sendCmd, execSendCmd, if_pos hp]
  · rw [exec_receiveCmd, execReceiveCmd, if_pos hp]
  · rw [exec_closeCmd, execCloseCmd, if_pos hp]

/-- Everything a host command can do. -/
theorem command_next {s t : State} {i : Instr}
    (hi : (∃ role n d, i = .openCmd role n d) ∨ (∃ len, i = .sendCmd len) ∨ i = .receiveCmd ∨ ∃ stats, i = .closeCmd stats)
    (h : exec i s = .next t) :
    t = s ∨ t = s.refuse ∨
      (∃ role n d, i = .openCmd role n d ∧ (t = s.complete .channelUnavailable 0 ∨ t = s.beginOpen role n d)) ∨
      (∃ len, i = .sendCmd len ∧ t = s.beginSend len) ∨ i = .receiveCmd ∧ t = s.beginReceive ∨
      ∃ stats, i = .closeCmd stats ∧ t = s.beginClose stats := by
  obtain ⟨role, n, d, rfl⟩ | ⟨len, rfl⟩ | rfl | ⟨stats, rfl⟩ := hi
  · rw [exec_openCmd, execOpenCmd] at h
    (repeat' split at h) <;> cases h <;> simp
  · rw [exec_sendCmd, execSendCmd] at h
    (repeat' split at h) <;> cases h <;> simp
  · rw [exec_receiveCmd, execReceiveCmd] at h
    (repeat' split at h) <;> cases h <;> simp
  · rw [exec_closeCmd, execCloseCmd] at h
    (repeat' split at h) <;> cases h <;> simp

/-- Settles O36: by everything a host command can do, field by field. -/
theorem hostCommandFrame : Obligations.HostCommandFrame := by
  intro s t i hi h
  obtain rfl | rfl | ⟨role, n, d, rfl, rfl | rfl⟩ | ⟨len, rfl, rfl⟩ | ⟨rfl, rfl⟩ | ⟨stats, rfl, rfl⟩ := command_next hi h
  · simp
  · simp
  · simp
  · rw [beginOpen_eq]
    cases role <;> simp [State.txbufByte, State.rxbufByte, State.rawByte, Phase.isTimed]
  · simp [State.beginSend, State.txbufByte, State.rxbufByte, State.rawByte]
  · simp [State.beginReceive, State.txbufByte, State.rxbufByte, State.rawByte, Phase.isTimed]
  · cases hrole : s.role with
    | initiator => simp [beginClose_initiator hrole, hrole, State.txbufByte, State.rxbufByte, State.rawByte]
    | responder => simp [beginClose_responder hrole, hrole, State.txbufByte, State.rxbufByte, State.rawByte, Phase.isTimed]

end Sys2Proof.Machine

/-! PROOFS. The events that are no instruction, and the status registers (spec/45_timeout_retry.md R252 to R257, 60_exceptions.md R280,
70_reset_and_hazards.md R310, 20_memory.md R62, 10_state.md R46). -/

namespace Sys2Proof.Machine

/-! ### TxTake (R257) -/

theorem step_txTake {s : State} {rest : List Event} (hok : s.params.ok = true) (hu : s.upcoming = .txTake :: rest)
    (hq : s.txq ≠ []) : step s = (s.dropEvent rest).takeTx :=
  step_enabled hok hu (by simpa [Event.enabled] using hq)

theorem takeTx_of_more {s : State} {b : Byte} {q : List Byte} (h : s.txq = b :: q) (hq : q ≠ []) :
    s.takeTx = .next { s with txq := q, txOut := some b } := by
  obtain ⟨c, q, rfl⟩ := List.exists_cons_of_ne_nil hq
  rw [State.takeTx, h]

theorem takeTx_of_last {s : State} {b : Byte} (h : s.txq = [b]) :
    s.takeTx = { s with txq := [], txOut := some b }.txDone := by
  rw [State.takeTx, h]

/-- A timed wait starts with the reader initialised and the timer armed (R259). -/
theorem startWait_of_timed {p : Phase} (s : State) (hp : p.isTimed = true) :
    s.startWait p = { s with
      phase := p, rs := .start, rawLen := 0, ovf := false, armed := true, remaining := s.timeoutDuration } := by
  simp only [State.startWait, hp]; rfl

/-- The end of the TX phase of a timed operation: its wait starts. -/
theorem txDone_of_request {s : State} (h : s.phase = .openITx ∨ s.phase = .sendTx ∨ s.phase = .closeITx) :
    s.txDone = .next { s with
      phase := if s.phase = .openITx then .openIWait else if s.phase = .sendTx then .sendWait else .closeIWait
      rs := .start, rawLen := 0, ovf := false, armed := true, remaining := s.timeoutDuration } := by
  obtain h | h | h := h <;> rw [State.txDone, h] <;> dsimp only <;> rw [startWait_of_timed _ rfl] <;> rfl

/-- Settles O40: the head leaves; the last byte runs `TxDone` of the phase. -/
theorem txTakeDrainsQueue : Obligations.TxTakeDrainsQueue := by
  intro s b q rest hok hu hq
  rw [step_txTake hok hu (by simp [hq])]
  constructor
  · intro hne
    rw [takeTx_of_more (s := s.dropEvent rest) hq hne]; rfl
  · rintro rfl
    have hlast : (s.dropEvent rest).takeTx = State.txDone { s with
        txq := [], txOut := some b, chanRelease := false, events := rest, steps := s.steps + 1 } :=
      takeTx_of_last (s := s.dropEvent rest) hq
    rw [hlast]
    refine ⟨fun hp => ?_, fun hp => ?_, fun hp => ?_, fun hp => ?_, fun hp => ?_, fun hp => ?_⟩
    · rw [txDone_of_request]
      exact hp
    all_goals
      rw [State.txDone]
      simp only [hp]
    · rw [startWait_of_not_timed _ rfl]
    · rw [complete_eq]
    · rw [complete_eq]; rfl
    · rw [complete_eq]
    · rw [complete_eq]

/-! ### Tick (R252 to R255) -/

theorem step_tick {s : State} {rest : List Event} (hok : s.params.ok = true) (hu : s.upcoming = .tick :: rest) :
    step s = (s.dropEvent rest).takeTick := step_enabled hok hu rfl

theorem takeTick_expires {s : State} {op : TimedOp} (harmed : s.armed = true) (hrem : s.remaining = 1)
    (hop : s.phase.timedOp = some op) : s.takeTick = .next (s.disarm.countTimeout.countRetransmission.attempt op) := by
  rw [State.takeTick, if_neg (by simp [harmed]), if_neg (by simp [hrem]), State.expire, hop]

/-- What an expiry counts, with the timer off and the outputs of the step still low. -/
theorem expiryCounted_eq (s : State) (rest : List Event) :
    (s.dropEvent rest).disarm.countTimeout.countRetransmission = { s with
      armed := false, timeouts := s.timeouts + 1, retransmissions := s.retransmissions + 1
      chanRelease := false, txOut := none, events := rest, steps := s.steps + 1 } := by
  ext1 <;> simp

/-- Settles O42: the expiry goes through the attempt loop of the operation the wait belongs to. -/
theorem expiryRetriesOrFails : Obligations.ExpiryRetriesOrFails := by
  intro s rest hok hu harmed hrem hp
  rw [step_tick hok hu]
  obtain ⟨op, hop⟩ : ∃ op, s.phase.timedOp = some op := by
    obtain hp | hp | hp := hp <;> rw [hp] <;> exact ⟨_, rfl⟩
  rw [takeTick_expires (s := s.dropEvent rest) harmed hrem hop, expiryCounted_eq]
  constructor
  · intro hbudget
    rw [attempt_of_budget]
    · obtain hp | hp | hp := hp <;> simp only [hp] at hop ⊢ <;> cases hop <;> rfl
    · exact hbudget
  · intro hused
    rw [attempt_of_exhausted]
    · obtain hp | hp | hp := hp <;> simp only [hp] at hop ⊢ <;> cases hop <;> rfl
    · exact hused

/-! ### ChanErr (R280) -/

theorem isClosing_iff_mem (p : Phase) :
    p ∈ [Phase.closeITx, .closeIWait, .closeRWait, .closeRTx] ↔ p.isClosing = true := by
  cases p <;> decide

theorem isClosing_or_isOpening_iff_mem (p : Phase) :
    p ∈ [Phase.closeITx, .closeIWait, .closeRWait, .closeRTx, .openITx, .openIWait, .openRWait, .openRTx] ↔
      p.isClosing = true ∨ p.isOpening = true := by
  cases p <;> decide

theorem Phase.not_closing_of_opening {p : Phase} (h : p.isOpening = true) : p.isClosing = false := by
  revert h; cases p <;> decide

/-- Settles O43: by the kind of the phase, a closing one tears the session down, an opening one releases the channel. -/
theorem channelErrorAborts : Obligations.ChannelErrorAborts := by
  intro s rest hok hu
  have hstep : step s = .next (s.dropEvent rest).takeChanErr := step_enabled hok hu rfl
  obtain ⟨hidle, hs⟩ | ⟨hbusy, hs⟩ := takeChanErr_cases (s.dropEvent rest)
  · exact ⟨fun _ => by rw [hstep, hs]; rfl, fun h => absurd hidle h⟩
  · refine ⟨fun h => absurd h hbusy, fun _ => ?_⟩
    simp only [isClosing_iff_mem, isClosing_or_isOpening_iff_mem]
    change _ ∧ _ ∨ _ ∧ _ ∨ _ at hs
    simp only [State.dropEvent_phase] at hs
    obtain ⟨hc, hs⟩ | ⟨ho, hs⟩ | ⟨hc, ho, hs⟩ := hs <;> rw [hstep, hs, complete_eq] <;> congr 1
    · simp only [hc]; rfl
    · have hc := Phase.not_closing_of_opening ho
      simp only [hc, ho]; rfl
    · simp only [hc, ho]; rfl

/-! ### Reset and HostBufWrite (R310, R62) -/

theorem sr_resetWith (p : Params) (i : BitVec 4) : (State.resetWith p).sr i = 0 := by
  apply BitVec.eq_of_toNat_eq
  unfold State.sr
  split
  case h_1 =>
    simp [toNat_srStatus, State.resetWith, State.busy, Status.code, Session.code, roleCode, ReaderState.code, Phase.code]
  case h_2 => simp [toNat_srResultLen, State.resetWith]
  case h_3 => simp [toNat_srConfig, State.resetWith]
  case h_10 => simp [toNat_srProgress, State.resetWith]
  case h_11 => simp [toNat_srLengths, State.resetWith]
  all_goals rfl

/-- Settles O44: every register by its reset value; the status registers, `cmd_ready`, `rx_ready` and `tx_valid` are those of
`State.resetWith`. -/
theorem resetClearsRegisters : Obligations.ResetClearsRegisters := by
  intro s rest hok hu
  have hstep : step s = .next (s.dropEvent rest).takeReset := step_enabled hok hu rfl
  exact ⟨_, hstep, rfl, sr_resetWith s.params, rfl, rfl, rfl⟩

/-- Settles O45: the read-after-write laws of a space. -/
theorem hostWritesTxbuf : Obligations.HostWritesTxbuf := by
  intro s a v rest hok hu hp ha
  have henabled : (Event.hostBufWrite a v).enabled s = true := by simp [Event.enabled, hp, ha]
  have hstep : step s = .next ((s.dropEvent rest).takeHostWrite a v) := step_enabled hok hu henabled
  refine ⟨_, hstep, ?_, fun k hk => ?_, rfl⟩
  · simp [State.txbufByte, State.takeHostWrite]
  · simp [State.txbufByte, State.takeHostWrite, Memory.read?_write_ne _ _ hk.symm]

/-! ### Status registers (R46) -/

theorem getLsbD_of_value {w : Word} {k : Nat} {b : Bool} (h : w.toNat / 2 ^ k % 2 = b.toNat) : w.getLsbD k = b := by
  rw [BitVec.getLsbD, Nat.testBit_eq_decide_div_mod_eq, h]
  cases b <;> rfl

theorem field_of_value {w : Word} {start len : Nat} {x : BitVec len} (h : w.toNat / 2 ^ start % 2 ^ len = x.toNat) :
    w.extractLsb' start len = x :=
  BitVec.eq_of_toNat_eq ((toNat_field w start len).trans h)

theorem toNat_sessCode (x : Session) : x.code.toNat = (decide (x = .opened)).toNat := by cases x <;> rfl

theorem toNat_roleCode (r : Role) : (roleCode r).toNat = (decide (r = .responder)).toNat := by cases r <;> rfl

theorem busy_eq (s : State) : s.busy = decide (s.phase ≠ .idle) := by
  unfold State.busy; cases s.phase <;> rfl

/-- Where the fields of `sr[0]` stand, as digits of its value. -/
theorem srStatus_digits (s : State) :
    s.srStatus.toNat / 2 ^ 0 % 2 ^ 3 = s.status.code.toNat ∧ s.srStatus.toNat / 2 ^ 3 % 2 = s.done.toNat ∧
      s.srStatus.toNat / 2 ^ 4 % 2 = s.busy.toNat ∧ s.srStatus.toNat / 2 ^ 5 % 2 = s.sess.code.toNat ∧
      s.srStatus.toNat / 2 ^ 6 % 2 = (roleCode s.role).toNat ∧ s.srStatus.toNat / 2 ^ 7 % 2 = s.sendToggle.toNat ∧
      s.srStatus.toNat / 2 ^ 8 % 2 = s.expectToggle.toNat ∧ s.srStatus.toNat / 2 ^ 9 % 2 = s.statsValid.toNat ∧
      s.srStatus.toNat / 2 ^ 10 % 2 = s.armed.toNat ∧ s.srStatus.toNat / 2 ^ 11 % 2 ^ 3 = s.rs.code.toNat ∧
      s.srStatus.toNat / 2 ^ 14 % 2 ^ 4 = s.phase.code.toNat ∧ s.srStatus.toNat / 2 ^ 18 % 2 = s.ovf.toNat ∧
      s.srStatus.toNat / 2 ^ 19 % 2 ^ 13 = 0 := by
  have h0 := s.status.code.isLt
  have h3 := s.done.toNat_lt
  have h4 := s.busy.toNat_lt
  have h5 := s.sess.code.isLt
  have h6 := (roleCode s.role).isLt
  have h7 := s.sendToggle.toNat_lt
  have h8 := s.expectToggle.toNat_lt
  have h9 := s.statsValid.toNat_lt
  have h10 := s.armed.toNat_lt
  have h11 := s.rs.code.isLt
  have h14 := s.phase.code.isLt
  have h18 := s.ovf.toNat_lt
  rw [toNat_srStatus]
  refine ⟨?_, ?_, ?_, ?_, ?_, ?_, ?_, ?_, ?_, ?_, ?_, ?_, ?_⟩ <;> omega

theorem srResultLen_fields (s : State) :
    s.srResultLen.extractLsb' 0 16 = s.resultLen ∧ s.srResultLen.extractLsb' 16 16 = s.rxLen := by
  have h0 := s.resultLen.isLt
  have h16 := s.rxLen.isLt
  constructor <;> apply field_of_value <;> rw [toNat_srResultLen] <;> omega

theorem srConfig_fields (s : State) :
    s.srConfig.extractLsb' 0 8 = s.retryLimit ∧ s.srConfig.extractLsb' 8 16 = s.timeoutDuration ∧
      s.srConfig.extractLsb' 24 8 = 0 := by
  have h0 := s.retryLimit.isLt
  have h8 := s.timeoutDuration.isLt
  refine ⟨?_, ?_, ?_⟩ <;> apply field_of_value <;> rw [toNat_srConfig]
  · omega
  · omega
  · change _ = 0; omega

theorem srProgress_fields (s : State) :
    s.srProgress.extractLsb' 0 8 = s.tries ∧ s.srProgress.extractLsb' 8 16 = s.remaining ∧
      s.srProgress.extractLsb' 24 8 = s.ctl := by
  have h0 := s.tries.isLt
  have h8 := s.remaining.isLt
  have h24 := s.ctl.isLt
  refine ⟨?_, ?_, ?_⟩ <;> apply field_of_value <;> rw [toNat_srProgress] <;> omega

theorem srLengths_fields (s : State) :
    s.srLengths.extractLsb' 0 16 = s.opLen ∧ s.srLengths.extractLsb' 16 16 = s.rawLen.extractLsb' 0 16 := by
  have h0 := s.opLen.isLt
  constructor <;> apply field_of_value <;> rw [toNat_srLengths]
  · omega
  · rw [BitVec.extractLsb'_toNat, Nat.shiftRight_zero]; omega

theorem sr_unused (s : State) (i : BitVec 4) (h : 11 ≤ i.toNat) : s.sr i = 0 := by
  unfold State.sr
  split
  case h_12 => rfl
  all_goals omega

/-- Settles O46: each register's fields as digits of its value; the code tables by evaluation. -/
theorem statusRegisterFields : Obligations.StatusRegisterFields := by
  intro s
  obtain ⟨h0, h3, h4, h5, h6, h7, h8, h9, h10, h11, h14, h18, h19⟩ := srStatus_digits s
  obtain ⟨hresult, hrx⟩ := srResultLen_fields s
  obtain ⟨hretry, htimeout, hzero⟩ := srConfig_fields s
  obtain ⟨htries, hremaining, hctl⟩ := srProgress_fields s
  obtain ⟨hop, hraw⟩ := srLengths_fields s
  rw [busy_eq] at h4
  rw [toNat_sessCode] at h5
  rw [toNat_roleCode] at h6
  exact ⟨field_of_value h0, getLsbD_of_value h3, getLsbD_of_value h4, getLsbD_of_value h5, getLsbD_of_value h6,
    getLsbD_of_value h7, getLsbD_of_value h8, getLsbD_of_value h9, getLsbD_of_value h10, field_of_value h11, field_of_value h14,
    getLsbD_of_value h18, field_of_value h19, hresult, hrx, hretry, htimeout, hzero, rfl, rfl, rfl, rfl, rfl, rfl,
    htries, hremaining, hctl, hop, hraw, sr_unused s, by decide, by decide, by decide⟩

end Sys2Proof.Machine

/-! PROOFS. One step: which instruction it runs, when it is refused or does nothing, that it never stops under the invariant, and what it can do to
the registers a session lives by (spec/00_scope.md R11, R14, 10_state.md R22 to R25, R40 to R42, 20_memory.md R62, R63). -/

namespace Sys2Proof.Machine

/-! ### Commands and received bytes through a step -/

/-- R115: the reserved bits of each operation are looked at before its operands. -/
theorem decodeCommand_reserved {w : Word}
    (h : w.extractLsb' 30 2 = 0 ∧ w.extractLsb' 24 5 ≠ 0 ∨ w.extractLsb' 30 2 = 1 ∧ w.extractLsb' 16 14 ≠ 0 ∨
      w.extractLsb' 30 2 = 2 ∧ w.extractLsb' 0 30 ≠ 0 ∨ w.extractLsb' 30 2 = 3 ∧ w.extractLsb' 0 29 ≠ 0) :
    decodeCommand w = .error .reservedBit := by
  obtain ⟨hop, hbits⟩ | ⟨hop, hbits⟩ | ⟨hop, hbits⟩ | ⟨hop, hbits⟩ := h <;> rw [decodeCommand, opField, hop] <;>
    exact if_neg hbits

theorem step_cmd {s : State} {w : Word} {avail : Bool} {rest : List Event} (hok : s.params.ok = true) (hp : s.phase = .idle)
    (hu : s.upcoming = .cmd w avail :: rest) : step s = stepEvent (.cmd w avail) (s.dropEvent rest) :=
  step_enabled hok hu (by simp [Event.enabled, hp])

/-- Settles O4: the word does not decode, and IDLE answers it with `Refuse`. -/
theorem reservedBitRefused : Obligations.ReservedBitRefused := by
  intro s w avail rest hok hp hu hbits
  have hp' : ((s.dropEvent rest).sampleAvail avail).phase = .idle := hp
  rw [step_cmd hok hp hu]
  simp only [stepEvent, decodeCommand_reserved hbits, State.refuseWord, hp', ne_eq, not_true_eq_false, if_false]
  rfl

/-- The second bytes that complete an escape pair. -/
theorem decodePair_cases {b : Byte} {i : Instr} (h : decodePair ESC b = .ok i) :
    i = .escFlag ∧ b = 0x5E ∨ i = .escEsc ∧ b = 0x5D ∨ i = .escAny b ∧ b ≠ 0x7E := by
  unfold decodePair at h
  rw [if_neg (by simp)] at h
  split at h
  · cases h
  · next hflag =>
    split at h
    · next hb => cases h; exact .inl ⟨rfl, hb⟩
    · split at h
      · next hb => cases h; exact .inr (.inl ⟨rfl, hb⟩)
      · cases h; exact .inr (.inr ⟨rfl, hflag⟩)

/-- Settles O5: a command word by its decoding; a FLAG by the header that is held; the byte after a pending escape by the pair. -/
theorem stepRunsDecodedInstr : Obligations.StepRunsDecodedInstr := by
  intro s rest hok
  refine ⟨fun w avail i hp hu hd => ?_, fun hw hu => ⟨fun i hrs hd => ?_, fun _ _ => ?_⟩, fun b i hw hu hrs _ hd => ?_⟩
  · change decodeCommand w = .ok i at hd
    rw [step_cmd hok hp hu, stepEvent, hd]; rfl
  · rw [step_flag s hok hw hu]
    exact execFlag_of_complete hrs hd
  · exact step_flag s hok hw hu
  · obtain ⟨hb, hexec⟩ := exec_escape (s := s.dropEvent rest) (decodePair_cases hd)
    rw [step_enabled hok hu (by simpa [Event.enabled] using hw), rx_byte hb]
    exact hexec.symm

/-! ### Steps that do nothing, and steps that are refused -/

theorem step_disabled {s : State} {e : Event} {rest : List Event} (hok : s.params.ok = true) (hu : s.upcoming = e :: rest)
    (he : e.enabled s = false) : step s = .next (s.dropEvent rest) := by
  simp [step, hok, hu, he]

/-- Settles O6: the "enabled when" column of R11. -/
theorem disabledEventChangesNothing : Obligations.DisabledEventChangesNothing := by
  intro s hok
  constructor
  · intro hu
    simp only [step, hok, hu, if_true]; rfl
  · intro rest h
    obtain ⟨w, avail, hu, hp⟩ | ⟨b, hu, hw⟩ | ⟨hu, hq⟩ | ⟨a, v, hu, hno⟩ := h
    · exact step_disabled hok hu (by simpa [Event.enabled] using hp)
    · exact step_disabled hok hu hw
    · exact step_disabled hok hu (by simp [Event.enabled, hq])
    · refine step_disabled hok hu ?_
      obtain hno | hno := hno <;> simp [Event.enabled, hno]

theorem step_refused_iff (s : State) : step s = .refused .parametersOutsideSpec ↔ s.params.ok = false := by
  constructor
  · intro h
    by_contra hok
    exact step_ne_refused (by simpa using hok) _ h
  · intro h
    simp [step, h]

theorem xor_eq_iff_eq_xor {a c f : Byte} : a ^^^ c = f ↔ a = f ^^^ c := by
  constructor <;> rintro rfl <;> simp

theorem addressOk_command_iff (a : Byte) : addressOk a commandControls = true ↔ a ∉ [0x7E, 0x7D, 0x75, 0xFE] := by
  simp only [addressOk_iff, commandControls, List.mem_cons, List.not_mem_nil, or_false, forall_eq_or_imp, forall_eq, ne_eq,
    xor_eq_iff_eq_xor, not_or, FLAG, C_SET, C_DISC, C_I0, C_I1, BitVec.reduceXOr]
  tauto

theorem addressOk_reply_iff (a : Byte) :
    addressOk a replyControls = true ↔ a ∉ [0x7E, 0x79, 0x75, 0xD4, 0xD5, 0x2A, 0x2B] := by
  simp only [addressOk_iff, replyControls, List.mem_cons, List.not_mem_nil, or_false, forall_eq_or_imp, forall_eq, ne_eq,
    xor_eq_iff_eq_xor, not_or, FLAG, C_UA, C_DISC, C_RR0, C_RR1, C_REJ0, C_REJ1, BitVec.reduceXOr]
  exact Iff.rfl

/-- Settles O7: the constraints of R7 and R8, each address test solved for the address. -/
theorem badParametersRefused : Obligations.BadParametersRefused := by
  intro s
  rw [step_refused_iff, ← Bool.not_eq_true, paramsOk_iff, addressOk_command_iff, addressOk_reply_iff, ← Nat.not_le]
  tauto

/-! ### Under the invariant a step always answers (log entry 7) -/

theorem takeIdleFlag_answers {s : State} (h1 : s.rs ≠ .check) (h2 : s.rs ≠ .done) : ∃ t, s.takeIdleFlag = .next t := by
  unfold State.takeIdleFlag
  split
  · cases hrs : s.rs <;> simp_all
  · exact ⟨_, rfl⟩

theorem ite_answers {p : Prop} [Decidable p] {u : State} {r : Result} (h : ∃ t, r = .next t) :
    ∃ t, (if p then .next u else r) = .next t := by
  split
  · exact ⟨u, rfl⟩
  · exact h

theorem exec_frame_answers {s : State} {c : Byte} {i : Instr} (hd : decodeControl c = .ok i) (h1 : s.rs ≠ .check)
    (h2 : s.rs ≠ .done) : ∃ t, exec i s = .next t := by
  have hidle := takeIdleFlag_answers h1 h2
  obtain ⟨-, rfl⟩ | ⟨-, rfl⟩ | ⟨-, rfl⟩ | ⟨-, rfl⟩ | ⟨-, rfl⟩ | ⟨-, rfl⟩ | ⟨-, rfl⟩ | ⟨-, rfl⟩ | ⟨-, rfl⟩ := decodeControl_cases hd
  case inr.inr.inl => exact ite_answers (ite_answers hidle)
  all_goals exact ite_answers hidle

theorem execFlag_answers {s : State} (h1 : s.rs ≠ .check) (h2 : s.rs ≠ .done) : ∃ t, execFlag s = .next t := by
  unfold execFlag
  split
  · next i hheld =>
    have hd := (heldFrame_some hheld).2
    rw [runFrame_eq_exec hd]
    exact exec_frame_answers hd h1 h2
  · exact takeIdleFlag_answers h1 h2

/-- A command word decodes to one of the four host commands (R110). -/
theorem decodeCommand_cases {w : Word} {i : Instr} (h : decodeCommand w = .ok i) :
    (∃ role n d, i = .openCmd role n d) ∨ (∃ len, i = .sendCmd len) ∨ i = .receiveCmd ∨ ∃ stats, i = .closeCmd stats := by
  unfold decodeCommand at h
  (repeat' split at h) <;> cases h <;> simp

theorem exec_command_answers {i : Instr} (s : State)
    (hi : (∃ role n d, i = .openCmd role n d) ∨ (∃ len, i = .sendCmd len) ∨ i = .receiveCmd ∨ ∃ stats, i = .closeCmd stats) :
    ∃ t, exec i s = .next t := by
  obtain ⟨role, n, d, rfl⟩ | ⟨len, rfl⟩ | rfl | ⟨stats, rfl⟩ := hi
  · exact ite_answers (ite_answers (ite_answers (ite_answers ⟨_, rfl⟩)))
  · exact ite_answers (ite_answers (ite_answers ⟨_, rfl⟩))
  · exact ite_answers (ite_answers ⟨_, rfl⟩)
  · exact ite_answers (ite_answers ⟨_, rfl⟩)

theorem cmd_answers (w : Word) (avail : Bool) (s : State) : ∃ t, stepEvent (.cmd w avail) s = .next t := by
  simp only [stepEvent]
  split
  · next i hd => exact exec_command_answers _ (decodeCommand_cases hd)
  · exact ite_answers ⟨_, rfl⟩

theorem takeTx_answers {s : State} (h : s.ControlInv) : ∃ t, s.takeTx = .next t := by
  cases hq : s.txq with
  | nil => exact ⟨s, by rw [State.takeTx, hq]⟩
  | cons b q =>
    by_cases hne : q = []
    · subst hne
      have htx : s.phase.isTx = true := h.txqPhase.1 (by simp [hq])
      rw [takeTx_of_last hq, State.txDone]
      revert htx
      cases s.phase <;> simp [Phase.isTx]
    · exact ⟨_, takeTx_of_more hq hne⟩

theorem takeTick_answers {s : State} (h : s.ControlInv) : ∃ t, s.takeTick = .next t := by
  unfold State.takeTick
  split
  · exact ⟨_, rfl⟩
  · next harmed =>
    split
    · exact ⟨_, rfl⟩
    · have htimed : s.phase.isTimed = true := by rw [← h.armedPhase]; simpa using harmed
      obtain ⟨op, hop⟩ := (isTimed_iff_timedOp _).1 htimed
      exact ⟨_, by rw [State.expire, hop]⟩

theorem stepEvent_answers {s : State} (h : s.Inv) (e : Event) : ∃ t, stepEvent e s = .next t := by
  obtain ⟨hcheck, hdone⟩ := h.reader.settled
  cases e with
  | cmd w avail => exact cmd_answers w avail s
  | rx b =>
    by_cases hb : b = FLAG
    · subst hb; rw [rx_flag]; exact execFlag_answers hcheck hdone
    · rw [rx_byte hb]
      cases hw : s.phase.isWait with
      | true => exact ⟨_, takeByte_in_wait hw hcheck hdone b⟩
      | false => exact ⟨_, takeByte_outside_wait hw b⟩
  | txTake => exact takeTx_answers h.control
  | tick => exact takeTick_answers h.control
  | chanErr => exact ⟨_, rfl⟩
  | hostBufWrite a v => exact ⟨_, rfl⟩
  | reset => exact ⟨_, rfl⟩

/-- Settles O49: a transient reader state, an expiry outside a timed wait and a drain outside a TX phase are each against the invariant. -/
theorem invStatesNeverStop : Obligations.InvStatesNeverStop := by
  intro s hok h
  cases hu : s.upcoming with
  | nil => exact ⟨s.clearOutputs, by simp [step, hok, hu]⟩
  | cons e rest =>
    cases he : e.enabled s with
    | true => rw [step_enabled hok hu he]; exact stepEvent_answers (dropEvent_inv h rest) e
    | false => exact ⟨_, step_disabled hok hu he⟩

/-! ### What a step can do to toggles, counters, buffers and operands, said once -/

/-- `t` has the parameters, OPEN operands, toggles, counters, host buffers and source of `s`. -/
structure State.Unmoved (s t : State) : Prop where
  params : t.params = s.params
  source : t.source = s.source
  role : t.role = s.role
  retryLimit : t.retryLimit = s.retryLimit
  timeoutDuration : t.timeoutDuration = s.timeoutDuration
  sendToggle : t.sendToggle = s.sendToggle
  expectToggle : t.expectToggle = s.expectToggle
  counters : t.counters = s.counters
  txbuf : t.txbuf = s.txbuf
  rxbuf : t.rxbuf = s.rxbuf
  epoch : t.epoch = s.epoch

theorem unmoved_dropEvent (s : State) (rest : List Event) : s.Unmoved (s.dropEvent rest) := by
  constructor <;> rfl

theorem State.Unmoved.trans {s t u : State} (h : s.Unmoved t) (h' : t.Unmoved u) : s.Unmoved u where
  params := h'.params.trans h.params
  source := h'.source.trans h.source
  role := h'.role.trans h.role
  retryLimit := h'.retryLimit.trans h.retryLimit
  timeoutDuration := h'.timeoutDuration.trans h.timeoutDuration
  sendToggle := h'.sendToggle.trans h.sendToggle
  expectToggle := h'.expectToggle.trans h.expectToggle
  counters := h'.counters.trans h.counters
  txbuf := h'.txbuf.trans h.txbuf
  rxbuf := h'.rxbuf.trans h.rxbuf
  epoch := h'.epoch.trans h.epoch

theorem cmd_moves {s t : State} {w : Word} {avail : Bool} (hp : s.phase = .idle) (h : stepEvent (.cmd w avail) s = .next t) :
    s.Unmoved t ∨ (opField w = 0 ∧ s.sess = .closed ∧ ∃ role n d, t = (s.sampleAvail avail).beginOpen role n d) := by
  obtain rfl | ⟨role, n, d, hd, hsess, -, ⟨-, rfl⟩ | ⟨-, rfl⟩⟩ | ⟨len, -, -, -, rfl⟩ | ⟨-, -, rfl⟩ | ⟨stats, -, -, rfl⟩ :=
    cmd_next hp h
  · left; constructor <;> simp [State.counters]
  · left; constructor <;> simp [State.counters]
  · exact .inr ⟨opField_of_open hd, hsess, role, n, d, rfl⟩
  · left; constructor <;> simp [State.beginSend, State.counters]
  · left; constructor <;> simp [State.beginReceive, State.counters]
  · left
    cases hrole : s.role with
    | initiator => rw [beginClose_initiator (s := s.sampleAvail avail) hrole]; constructor <;> simp [State.counters]
    | responder => rw [beginClose_responder (s := s.sampleAvail avail) hrole]; constructor <;> simp [State.counters]

theorem unmoved_readerStep (s : State) (b : Byte) : s.Unmoved (s.readerStep b) := by
  obtain ⟨-, hs⟩ | ⟨-, hs⟩ | ⟨-, -, hs⟩ := readerStep_cases s b <;> rw [hs] <;> constructor <;> simp [State.counters]

/-- The frames that move toggles or counters: an acknowledging RR, a REJ, an information frame. -/
def FrameMoves (s t : State) : Prop :=
  (s.phase = .sendWait ∧ t = s.readerStop.flipSendToggle.countValid.complete .ok s.opLen) ∨
    (s.phase = .sendWait ∧ t = s.onREJ) ∨ (s.phase = .recvWait ∧ ∃ r, t = s.onInfo r)

theorem flag_moves {s t : State} (hw : s.phase.isWait = true) (h : execFlag s = .next t) : s.Unmoved t ∨ FrameMoves s t := by
  obtain ⟨-, rfl⟩ | ⟨-, hr | ⟨rfl, -⟩⟩ := flag_next hw h
  · left; constructor <;> rfl
  · obtain ⟨-, rfl⟩ | ⟨-, rfl⟩ | ⟨hp, r, rfl⟩ | ⟨hp, rfl⟩ | ⟨hp, r, rfl⟩ | ⟨-, rfl⟩ | ⟨-, rfl⟩ := hr
    · left; constructor <;> simp [State.counters]
    · left; constructor <;> simp [State.counters]
    · obtain ⟨-, hs⟩ | ⟨-, hs⟩ := onRR_cases s r <;> rw [hs]
      · exact .inr (.inl ⟨hp, rfl⟩)
      · left; constructor <;> simp [State.counters]
    · exact .inr (.inr (.inl ⟨hp, rfl⟩))
    · exact .inr (.inr (.inr ⟨hp, r, rfl⟩))
    · left; constructor <;> simp [State.counters]
    · left; constructor <;> simp [State.counters]
  · left; constructor <;> rfl

theorem unmoved_takeTx {s t : State} (h : s.takeTx = .next t) : s.Unmoved t := by
  obtain ⟨-, rfl⟩ | ⟨b, q, -, -, rfl⟩ | ⟨b, -, hdone⟩ := takeTx_next h
  · constructor <;> rfl
  · constructor <;> rfl
  · obtain ⟨-, rfl⟩ | ⟨-, rfl⟩ | ⟨-, rfl⟩ | ⟨-, rfl⟩ | ⟨-, rfl⟩ | ⟨-, rfl⟩ | ⟨-, rfl⟩ | ⟨-, rfl⟩ := txDone_next hdone <;>
      constructor <;> simp [State.counters]

theorem tick_moves {s t : State} (h : s.takeTick = .next t) :
    s.Unmoved t ∨
      (s.armed = true ∧ ∃ op, s.phase.timedOp = some op ∧ t = s.disarm.countTimeout.countRetransmission.attempt op) := by
  obtain ⟨-, rfl⟩ | ⟨-, -, rfl⟩ | ⟨harmed, -, hexpire⟩ := takeTick_next h
  · left; constructor <;> rfl
  · left; constructor <;> rfl
  · exact .inr ⟨harmed, hexpire⟩

theorem unmoved_takeChanErr (s : State) : s.Unmoved s.takeChanErr := by
  obtain ⟨-, hs⟩ | ⟨-, ⟨-, hs⟩ | ⟨-, hs⟩ | ⟨-, -, hs⟩⟩ := takeChanErr_cases s <;> rw [hs] <;> constructor <;>
    simp [State.counters]

/-- Everything a step can do to the registers of `Unmoved`. -/
theorem step_moves {s t : State} (h : step s = .next t) :
    s.Unmoved t ∨ ∃ rest,
      (s.upcoming = .reset :: rest ∧ t = (s.dropEvent rest).takeReset) ∨
        (∃ w avail, s.upcoming = .cmd w avail :: rest ∧ s.phase = .idle ∧ s.sess = .closed ∧ opField w = 0 ∧
          ∃ role n d, t = ((s.dropEvent rest).sampleAvail avail).beginOpen role n d) ∨
        (∃ a v, s.upcoming = .hostBufWrite a v :: rest ∧ s.phase = .idle ∧ t = (s.dropEvent rest).takeHostWrite a v) ∨
        (s.upcoming = .tick :: rest ∧ s.armed = true ∧ ∃ op, s.phase.timedOp = some op ∧
          t = (s.dropEvent rest).disarm.countTimeout.countRetransmission.attempt op) ∨
        (s.upcoming = .rx FLAG :: rest ∧ FrameMoves (s.dropEvent rest) t) := by
  obtain ⟨-, ⟨-, rfl⟩ | ⟨e, rest, hu, hcase⟩⟩ := step_cases h
  · left; constructor <;> rfl
  · have hdrop := unmoved_dropEvent s rest
    obtain rfl | ⟨w, a, rfl, hp, hcmd⟩ | ⟨b, -, -, -, -, -, rfl⟩ | ⟨rfl, hw, hflag⟩ | ⟨-, -, htx⟩ | ⟨rfl, htick⟩ |
      ⟨-, rfl⟩ | ⟨a, v, rfl, hp, -, rfl⟩ | ⟨rfl, rfl⟩ := hcase
    · exact .inl hdrop
    · obtain hun | ⟨hop, hsess, hopen⟩ := cmd_moves (s := s.dropEvent rest) hp hcmd
      · exact .inl (hdrop.trans hun)
      · exact .inr ⟨rest, .inr (.inl ⟨w, a, hu, hp, hsess, hop, hopen⟩)⟩
    · exact .inl (hdrop.trans (unmoved_readerStep _ b))
    · obtain hun | hframe := flag_moves (s := s.dropEvent rest) hw hflag
      · exact .inl (hdrop.trans hun)
      · exact .inr ⟨rest, .inr (.inr (.inr (.inr ⟨hu, hframe⟩)))⟩
    · exact .inl (hdrop.trans (unmoved_takeTx htx))
    · obtain hun | ⟨harmed, hexpire⟩ := tick_moves htick
      · exact .inl (hdrop.trans hun)
      · exact .inr ⟨rest, .inr (.inr (.inr (.inl ⟨hu, harmed, hexpire⟩)))⟩
    · exact .inl (hdrop.trans (unmoved_takeChanErr _))
    · exact .inr ⟨rest, .inr (.inr (.inl ⟨a, v, hu, hp, rfl⟩))⟩
    · exact .inr ⟨rest, .inl ⟨hu, rfl⟩⟩

/-! ### What an OPEN, a REJ and an information frame do to those registers -/

theorem beginOpen_moves (s : State) (role : Role) (n : BitVec 8) (d : BitVec 16) :
    (s.beginOpen role n d).sendToggle = false ∧ (s.beginOpen role n d).expectToggle = false ∧
      (s.beginOpen role n d).counters = ⟨0, 0, 0, 0, 0, 0⟩ ∧ (s.beginOpen role n d).txbufByte = s.txbufByte ∧
      (s.beginOpen role n d).rxbufByte = s.rxbufByte ∧ (s.beginOpen role n d).params = s.params ∧
      (s.beginOpen role n d).source = s.source := by
  rw [beginOpen_eq]
  cases role <;> simp [State.counters] <;> exact ⟨rfl, rfl⟩

theorem onREJ_moves (s : State) :
    s.onREJ.counters = { s.counters with
        invalid := s.framesInvalid + 1, total := s.framesTotal + 1, retransmissions := s.retransmissions + 1 } ∧
      s.onREJ.sendToggle = s.sendToggle ∧ s.onREJ.expectToggle = s.expectToggle ∧ s.onREJ.txbufByte = s.txbufByte ∧
      s.onREJ.rxbufByte = s.rxbufByte ∧ s.onREJ.params = s.params ∧ s.onREJ.source = s.source ∧ s.onREJ.role = s.role ∧
      s.onREJ.retryLimit = s.retryLimit ∧ s.onREJ.timeoutDuration = s.timeoutDuration := by
  obtain ⟨-, hs⟩ | ⟨-, hs⟩ := onREJ_cases s <;> rw [hs] <;> simp [State.counters]

theorem onInfo_keeps (s : State) (r : Toggle) :
    (s.onInfo r).sendToggle = s.sendToggle ∧ (s.onInfo r).txbufByte = s.txbufByte ∧ (s.onInfo r).params = s.params ∧
      (s.onInfo r).source = s.source ∧ (s.onInfo r).role = s.role ∧ (s.onInfo r).retryLimit = s.retryLimit ∧
      (s.onInfo r).timeoutDuration = s.timeoutDuration := by
  obtain ⟨why, -, hs⟩ | ⟨payload, -, ⟨-, hs⟩ | ⟨-, hs⟩⟩ := onInfo_cases s r <;> rw [hs] <;> simp

/-! ### The obligations about those registers -/

/-- Settles O50: of the cases of `step_moves`, the acknowledging RR flips the toggle, an OPEN and a reset clear it. -/
theorem sendToggleFlipsOnlyOnAck : Obligations.SendToggleFlipsOnlyOnAck := by
  intro s t h hne
  obtain hun | ⟨rest, ⟨hu, rfl⟩ | ⟨w, avail, hu, hp, hsess, hop, role, n, d, rfl⟩ | ⟨a, v, -, -, rfl⟩ |
    ⟨-, -, op, -, rfl⟩ | ⟨-, ⟨hp, rfl⟩ | ⟨-, rfl⟩ | ⟨-, r, rfl⟩⟩⟩ := step_moves h
  · exact absurd hun.sendToggle hne
  · exact .inr ⟨rfl, .inl ⟨rest, hu⟩⟩
  · obtain ⟨hclear, -⟩ := beginOpen_moves ((s.dropEvent rest).sampleAvail avail) role n d
    exact .inr ⟨hclear, .inr ⟨w, avail, rest, hu, hp, hsess, hop⟩⟩
  · exact absurd rfl hne
  · exact absurd (by simp) hne
  · exact .inl ⟨hp, by simp⟩
  · obtain ⟨-, hsame, -⟩ := onREJ_moves (s.dropEvent rest)
    exact absurd hsame hne
  · obtain ⟨hsame, -⟩ := onInfo_keeps (s.dropEvent rest) r
    exact absurd hsame hne

/-- Settles O51: the new frame flips the toggle, an OPEN and a reset clear it. -/
theorem expectToggleFlipsOnlyOnNewFrame : Obligations.ExpectToggleFlipsOnlyOnNewFrame := by
  intro s t h hne
  obtain hun | ⟨rest, ⟨hu, rfl⟩ | ⟨w, avail, hu, hp, hsess, hop, role, n, d, rfl⟩ | ⟨a, v, -, -, rfl⟩ |
    ⟨-, -, op, -, rfl⟩ | ⟨-, ⟨-, rfl⟩ | ⟨-, rfl⟩ | ⟨hp, r, rfl⟩⟩⟩ := step_moves h
  · exact absurd hun.expectToggle hne
  · exact .inr ⟨rfl, .inl ⟨rest, hu⟩⟩
  · obtain ⟨-, hclear, -⟩ := beginOpen_moves ((s.dropEvent rest).sampleAvail avail) role n d
    exact .inr ⟨hclear, .inr ⟨w, avail, rest, hu, hp, hsess, hop⟩⟩
  · exact absurd rfl hne
  · exact absurd (by simp) hne
  · exact absurd (by simp) hne
  · obtain ⟨-, -, hsame, -⟩ := onREJ_moves (s.dropEvent rest)
    exact absurd hsame hne
  · obtain ⟨why, -, hs⟩ | ⟨payload, haccept, ⟨-, hs⟩ | ⟨-, hs⟩⟩ := onInfo_cases (s.dropEvent rest) r <;> rw [hs] at hne ⊢
    · exact absurd (by simp) hne
    · exact absurd (by simp) hne
    · exact .inl ⟨hp, by simp, by simp, payload, haccept, by simp⟩

theorem mem_timed_of_timedOp {p : Phase} {op : TimedOp} (h : p.timedOp = some op) :
    p ∈ [Phase.openIWait, .sendWait, .closeIWait] := by
  cases p <;> simp [Phase.timedOp] at h <;> simp

/-- Settles O52: the counters each case of `step_moves` counts. -/
theorem countersMoveOnlyAsListed : Obligations.CountersMoveOnlyAsListed := by
  intro s t h
  obtain hun | ⟨rest, ⟨hu, rfl⟩ | ⟨w, avail, hu, hp, hsess, hop, role, n, d, rfl⟩ | ⟨a, v, -, -, rfl⟩ |
    ⟨hu, harmed, op, hop, rfl⟩ | ⟨hu, ⟨hp, rfl⟩ | ⟨hp, rfl⟩ | ⟨hp, r, rfl⟩⟩⟩ := step_moves h
  · exact .inl hun.counters
  · exact .inr (.inl ⟨rfl, .inl ⟨rest, hu⟩⟩)
  · obtain ⟨-, -, hzero, -⟩ := beginOpen_moves ((s.dropEvent rest).sampleAvail avail) role n d
    exact .inr (.inl ⟨hzero, .inr ⟨w, avail, rest, hu, hp, hsess, hop⟩⟩)
  · exact .inl rfl
  · exact .inr (.inr (.inl ⟨⟨rest, hu⟩, harmed, mem_timed_of_timedOp hop, by simp [State.counters]⟩))
  · change s.phase = _ at hp
    exact .inr (.inr (.inr ⟨⟨rest, hu⟩, .inl ⟨by simp [hp], by simp [State.counters]⟩⟩))
  · obtain ⟨hcounted, -⟩ := onREJ_moves (s.dropEvent rest)
    exact .inr (.inr (.inr ⟨⟨rest, hu⟩, .inr (.inl ⟨hp, hcounted⟩)⟩))
  · refine .inr (.inr (.inr ⟨⟨rest, hu⟩, ?_⟩))
    change s.phase = _ at hp
    obtain ⟨why, -, hs⟩ | ⟨payload, -, ⟨-, hs⟩ | ⟨-, hs⟩⟩ := onInfo_cases (s.dropEvent rest) r <;> rw [hs]
    · exact .inr (.inr (.inl ⟨hp, by simp [State.counters]⟩))
    · exact .inr (.inr (.inr ⟨hp, by simp [State.counters]⟩))
    · exact .inl ⟨by simp [hp], by simp [State.counters]⟩

/-- Settles O53: of the cases of `step_moves` that are no reset, HostBufWrite writes TXBUF and the new frame writes RXBUF. -/
theorem buffersWrittenOnlyAsListed : Obligations.BuffersWrittenOnlyAsListed := by
  intro s t h hreset
  have hok := (step_next h).1
  obtain hun | ⟨rest, ⟨hu, rfl⟩ | ⟨w, avail, -, -, -, -, role, n, d, rfl⟩ | ⟨a, v, hu, hp, rfl⟩ |
    ⟨-, -, op, -, rfl⟩ | ⟨-, ⟨-, rfl⟩ | ⟨-, rfl⟩ | ⟨hp, r, rfl⟩⟩⟩ := step_moves h
  · refine ⟨fun _ k => ?_, .inl fun k => ?_⟩
    · rw [State.txbufByte, State.txbufByte, hun.txbuf, hun.epoch]
    · rw [State.rxbufByte, State.rxbufByte, hun.rxbuf, hun.epoch]
  · exact absurd hu (hreset rest)
  · obtain ⟨-, -, -, htx, hrx, -⟩ := beginOpen_moves ((s.dropEvent rest).sampleAvail avail) role n d
    exact ⟨fun _ => congrFun htx, .inl (congrFun hrx)⟩
  · refine ⟨fun hno => ?_, .inl fun _ => rfl⟩
    obtain hno | hno := hno
    · exact absurd hu (hno a v rest)
    · exact absurd hp hno
  · exact ⟨fun _ k => by simp, .inl fun k => by simp⟩
  · exact ⟨fun _ k => by simp, .inl fun k => by simp⟩
  · obtain ⟨-, -, -, htx, hrx, -⟩ := onREJ_moves (s.dropEvent rest)
    exact ⟨fun _ => congrFun htx, .inl (congrFun hrx)⟩
  · obtain ⟨-, htx, -⟩ := onInfo_keeps (s.dropEvent rest) r
    refine ⟨fun _ => congrFun htx, ?_⟩
    obtain ⟨why, -, hs⟩ | ⟨payload, haccept, ⟨-, hs⟩ | ⟨hr, hs⟩⟩ := onInfo_cases (s.dropEvent rest) r <;> rw [hs]
    · exact .inl fun k => by simp
    · exact .inl fun k => by simp
    · have hm : s.params.maxPayload ≤ 65535 := ((paramsOk_iff _).1 hok).2.2.2
      refine .inr ⟨hp, by simp, by simp, fun k hk => ?_⟩
      simp only [State.transmit_rxLen, State.countValid_rxLen, State.flipExpectToggle_rxLen, State.storePayload_rxLen,
        toNat_payloadLength (checkPayload_accept haccept).2.2 hm] at hk
      simpa using storePayload_rxbufByte_above (s.dropEvent rest).readerStop hk

/-- Settles O54: only an OPEN and a reset are left among the cases of `step_moves`. -/
theorem openOperandsWrittenOnlyByOpen : Obligations.OpenOperandsWrittenOnlyByOpen := by
  intro s t h
  obtain hun | ⟨rest, ⟨hu, rfl⟩ | ⟨w, avail, hu, hp, hsess, hop, role, n, d, rfl⟩ | ⟨a, v, -, -, rfl⟩ |
    ⟨-, -, op, -, rfl⟩ | ⟨-, ⟨-, rfl⟩ | ⟨-, rfl⟩ | ⟨-, r, rfl⟩⟩⟩ := step_moves h
  · exact ⟨hun.params, hun.source, .inl ⟨hun.role, hun.retryLimit, hun.timeoutDuration⟩⟩
  · exact ⟨rfl, rfl, .inr (.inl ⟨rest, hu⟩)⟩
  · obtain ⟨-, -, -, -, -, hparams, hsource⟩ := beginOpen_moves ((s.dropEvent rest).sampleAvail avail) role n d
    exact ⟨hparams, hsource, .inr (.inr ⟨w, avail, rest, hu, hp, hsess, hop⟩)⟩
  · exact ⟨rfl, rfl, .inl ⟨rfl, rfl, rfl⟩⟩
  · simp
  · simp
  · obtain ⟨-, -, -, -, -, hparams, hsource, hoperands⟩ := onREJ_moves (s.dropEvent rest)
    exact ⟨hparams, hsource, .inl hoperands⟩
  · obtain ⟨-, -, hparams, hsource, hoperands⟩ := onInfo_keeps (s.dropEvent rest) r
    exact ⟨hparams, hsource, .inl hoperands⟩

end Sys2Proof.Machine

/-! PROOFS. Runs: a timer's ticks, the events of one clock edge, noise, headers, whole frames read byte by byte (spec/45_timeout_retry.md R252,
60_exceptions.md R283, 41_frame_reader.md R164), and the delivery of an information frame's payload. -/

namespace Sys2Proof.Machine

theorem run_one (s : State) : Host.Core.run Sys2Proof.core 1 s = step s := by
  simp only [Host.Core.run]
  rw [show Sys2Proof.core.step s = step s from rfl]
  cases step s <;> rfl

/-! ### Ticks (R252) -/

theorem step_tick_counts {s : State} {rest : List Event} (hok : s.params.ok = true) (hu : s.upcoming = .tick :: rest)
    (harmed : s.armed = true) (hrem : 1 < s.remaining.toNat) :
    step s = .next { s.dropEvent rest with remaining := s.remaining - 1 } := by
  rw [step_tick hok hu, State.takeTick, if_neg (by simp [harmed]), if_pos (by simpa using hrem)]
  rfl

/-- Settles O41: by induction on the number of ticks, each taking one from `remaining`. -/
theorem timerRunsItsTicks : Obligations.TimerRunsItsTicks := by
  intro s k rest hok harmed hk hevents
  induction k generalizing s with
  | zero =>
    refine ⟨s, rfl, by simp, ?_⟩
    apply State.ext <;> simp [hevents]
  | succ k ih =>
    have hu : s.upcoming = .tick :: (List.replicate k .tick ++ rest) := upcoming_of_cons (by rw [hevents]; rfl)
    have hstep := step_tick_counts hok hu harmed (by omega)
    have hrem : (s.remaining - 1).toNat = s.remaining.toNat - 1 := by
      rw [BitVec.toNat_sub_of_le (by rw [BitVec.le_def]; simp; omega)]; rfl
    obtain ⟨t, hrun, htrem, ht⟩ :=
      ih { s.dropEvent (List.replicate k .tick ++ rest) with remaining := s.remaining - 1 } hok harmed
        (by change k < (s.remaining - 1).toNat; omega) rfl
    refine ⟨t, (run_succ k hstep).trans hrun, ?_, ?_⟩
    · rw [htrem, Nat.add_comm k 1, BitVec.ofNat_add]
      exact BitVec.sub_sub _ _ _
    · rw [ht]
      apply State.ext <;> simp [Nat.add_comm 1, Nat.add_assoc]

/-! ### One clock edge (R283) -/

theorem step_tick_ignored {s : State} {rest : List Event} (hok : s.params.ok = true) (hevents : s.events = .tick :: rest)
    (harmed : s.armed = false) : step s = .next (s.dropEvent rest) := by
  rw [step_tick hok (upcoming_of_cons hevents), State.takeTick, if_pos (by simpa using harmed)]

theorem step_chanErr_ignored {s : State} {rest : List Event} (hok : s.params.ok = true) (hevents : s.events = .chanErr :: rest)
    (hp : s.phase = .idle) : step s = .next (s.dropEvent rest) := by
  rw [step_enabled hok (upcoming_of_cons hevents) rfl, stepEvent, State.takeChanErr, if_pos (by simpa using hp)]

/-- The events of an edge in a WAIT phase, without reset, that presents a FLAG and a tick. -/
theorem clockEdge_events {s : State} {p : InPorts} (hw : s.phase.isWait = true) (hevents : s.events = []) (hrst : p.rst = false)
    (hvalid : p.rxValid = true) (hdata : p.rxData = FLAG) (htick : p.tick = true) :
    (s.clockEdge p).events = .rx FLAG :: .tick :: (if p.chanErr then [.chanErr] else []) := by
  have hbusy : s.cmdReady = false := by simp [State.cmdReady, State.busy, Phase.ne_idle_of_wait hw]
  have hready : s.rxReady = true := hw
  simp [State.clockEdge, InPorts.edgeEvents, InPorts.transfer, hrst, hbusy, hready, hvalid, hdata, htick, hevents]

/-- The first step of such an edge runs the frame whose header is held. -/
theorem step_clockEdge {s : State} {p : InPorts} {i : Instr} (hok : s.params.ok = true) (hw : s.phase.isWait = true)
    (hevents : s.events = []) (hrs : s.rs = .bccOk) (hd : decodeControl s.ctl = .ok i) (hrst : p.rst = false)
    (hvalid : p.rxValid = true) (hdata : p.rxData = FLAG) (htick : p.tick = true) :
    step (s.clockEdge p) = exec i (s.dropEvent (.tick :: (if p.chanErr then [.chanErr] else []))) := by
  have hu := upcoming_of_cons (clockEdge_events hw hevents hrst hvalid hdata htick)
  rw [step_flag (s.clockEdge p) hok hw hu]
  exact execFlag_of_complete (s := s.dropEvent _) (.inl hrs) hd

/-- A completed command outlasts the tick and the channel error of its edge. -/
theorem run_completed_edge {s t : State} (h : step s = .next t) (hok : t.params.ok = true)
    (hevents : t.events = [.tick, .chanErr]) (hp : t.phase = .idle) (harmed : t.armed = false) :
    Host.Core.run Sys2Proof.core 3 s = .next ((t.dropEvent [.chanErr]).dropEvent []) := by
  have htick := step_tick_ignored hok hevents harmed
  have herr : step (t.dropEvent [.chanErr]) = .next ((t.dropEvent [.chanErr]).dropEvent []) :=
    step_chanErr_ignored hok rfl hp
  exact (run_succ 2 h).trans ((run_succ 1 htick).trans (run_succ 0 herr))

/-- A frame without a channel error at its edge: the tick finds the timer off. -/
theorem run_ticked_edge {s t : State} (h : step s = .next t) (hok : t.params.ok = true) (hevents : t.events = [.tick])
    (harmed : t.armed = false) : Host.Core.run Sys2Proof.core 2 s = .next (t.dropEvent []) :=
  (run_succ 1 h).trans (run_succ 0 (step_tick_ignored hok hevents harmed))

theorem decodeControl_rej {c : Byte} (h : c = C_REJ0 ∨ c = C_REJ1) : ∃ i, decodeControl c = .ok i ∧ (i = .rej0 ∨ i = .rej1) := by
  obtain rfl | rfl := h
  · exact ⟨.rej0, rfl, .inl rfl⟩
  · exact ⟨.rej1, rfl, .inr rfl⟩

theorem decodeControl_rr {c : Byte} {t : Toggle} (h : c = C_RR0 ∧ t = true ∨ c = C_RR1 ∧ t = false) :
    ∃ i, decodeControl c = .ok i ∧ (i = .rr0 ∧ t = true ∨ i = .rr1 ∧ t = false) := by
  obtain ⟨rfl, ht⟩ | ⟨rfl, ht⟩ := h
  · exact ⟨.rr0, rfl, .inl ⟨rfl, ht⟩⟩
  · exact ⟨.rr1, rfl, .inr ⟨rfl, ht⟩⟩

/-- Settles O56: the FLAG runs the held frame; the tick then finds the timer off, and the channel error an idle engine. -/
theorem frameWinsOverTickAndError : Obligations.FrameWinsOverTickAndError := by
  intro s p hok hevents hrs hrst hvalid hdata htick
  have edge : ∀ i, s.phase.isWait = true → decodeControl s.ctl = .ok i → step (s.clockEdge p) = _ :=
    fun i hw hd => step_clockEdge hok hw hevents hrs hd hrst hvalid hdata htick
  constructor
  · intro herr
    simp only [herr, if_true] at edge
    refine ⟨fun hp hctl => ?_, fun hp hctl => ?_, fun hp hctl => ?_, fun hp hctl hconsumes hused => ?_⟩
    · obtain ⟨i, hd, hi⟩ := decodeControl_rr hctl
      have hstep := (edge i (by rw [hp]; rfl) hd).trans (acknowledgingRrCompletesSend (s.dropEvent _) i hp hi)
      exact ⟨_, run_completed_edge hstep hok rfl rfl rfl, by simp⟩
    · have hstep := (edge .ua (by rw [hp]; rfl) (by rw [hctl]; rfl)).trans (uaOpensSession (s.dropEvent _) hp)
      exact ⟨_, run_completed_edge hstep hok rfl rfl rfl, by simp⟩
    · have hstep := (edge .disc (by rw [hp]; rfl) (by rw [hctl]; rfl)).trans ((discClosesOrIsAnswered (s.dropEvent _)).1 hp)
      exact ⟨_, run_completed_edge hstep hok rfl rfl rfl, by simp⟩
    · obtain ⟨i, hd, hi⟩ := decodeControl_rej hctl
      have hstep := (edge i (by rw [hp]; rfl) hd).trans ((rejRetransmitsAtOnce (s.dropEvent _) i hp hi).2 hconsumes hused)
      exact ⟨_, run_completed_edge hstep hok rfl rfl rfl, by simp⟩
  · intro herr hp hctl hbudget
    simp only [herr, Bool.false_eq_true, if_false] at edge
    obtain ⟨i, hd, hi⟩ := decodeControl_rej hctl
    have hstep := (edge i (by rw [hp]; rfl) hd).trans ((rejRetransmitsAtOnce (s.dropEvent _) i hp hi).1 hbudget)
    exact ⟨_, run_ticked_edge hstep hok rfl rfl, by simp⟩

end Sys2Proof.Machine

/-! PROOFS. Bytes read one after the other in a WAIT phase (spec/41_frame_reader.md R151 to R164): noise, headers that pass and that fail, and a whole
information frame with its stuffed region (44_session_receive.md R237). -/

namespace Sys2Proof.Machine

/-! ### The reader after `n` more bytes -/

/-- `s` after `n` received bytes that moved the reader to `r` and left `c` in `ctl`. -/
def State.readerAt (s : State) (r : ReaderState) (c : Byte) (n : Nat) : State :=
  { s with rs := r, ctl := c, chanRelease := false, txOut := none, steps := s.steps + n }

theorem readerAt_readerAt (s : State) (r r' : ReaderState) (c c' : Byte) (m n : Nat) :
    (s.readerAt r c m).readerAt r' c' n = s.readerAt r' c' (m + n) := by
  simp only [State.readerAt, Nat.add_assoc]

theorem appendRaw_of_room {s : State} (h : s.rawLen.toNat < s.params.rawCap) (b : Byte) :
    s.appendRaw b = { s with raw := s.raw.write s.rawLen.toNat b, rawLen := s.rawLen + 1 } := if_pos h

theorem appendRaw_of_full {s : State} (h : s.params.rawCap ≤ s.rawLen.toNat) (b : Byte) :
    s.appendRaw b = { s with ovf := true } := if_neg (Nat.not_lt.2 h)

/-- A byte is collected whatever the reader's other registers and the schedule hold. -/
theorem appendRaw_readerAt (s : State) (r : ReaderState) (c : Byte) (n : Nat) (bs : List Byte) (b : Byte) :
    ((s.readerAt r c n).receiving bs).appendRaw b = ((s.appendRaw b).readerAt r c n).receiving bs := by
  obtain h | h := Nat.lt_or_ge s.rawLen.toNat s.params.rawCap
  · rw [appendRaw_of_room h, appendRaw_of_room (s := (s.readerAt r c n).receiving bs) h]; rfl
  · rw [appendRaw_of_full h, appendRaw_of_full (s := (s.readerAt r c n).receiving bs) h]; rfl

/-- What a step that takes the byte `b` starts from. -/
theorem receiving_dropEvent (s : State) (b : Byte) (bs : List Byte) :
    (s.receiving (b :: bs)).dropEvent (bs.map .rx ++ s.events) = (s.readerAt s.rs s.ctl 1).receiving bs := rfl

theorem upcoming_receiving (s : State) (b : Byte) (bs : List Byte) :
    (s.receiving (b :: bs)).upcoming = .rx b :: (bs.map .rx ++ s.events) := rfl

/-! ### One byte -/

/-- A FLAG while the reader hunts or holds part of a header. -/
theorem step_opens {s : State} {bs : List Byte} (hok : s.params.ok = true) (hw : s.phase.isWait = true)
    (hrs : s.rs = .start ∨ s.rs = .flagSeen ∨ s.rs = .addressSeen ∨ s.rs = .controlSeen) :
    step (s.receiving (FLAG :: bs)) = .next ((s.readerAt .flagSeen s.ctl 1).receiving bs) := by
  rw [step_flag (s.receiving (FLAG :: bs)) hok hw (upcoming_receiving s FLAG bs), receiving_dropEvent,
    execFlag_in_header (s := (s.readerAt s.rs s.ctl 1).receiving bs) hw hrs]
  rfl

/-- A byte that leads neither to CONTROL_SEEN nor to COLLECTING. -/
theorem step_moves_reader {s : State} {b : Byte} {bs : List Byte} {r : ReaderState} (hok : s.params.ok = true)
    (hw : s.phase.isWait = true) (hb : b ≠ FLAG) (hcheck : s.rs ≠ .check) (hdone : s.rs ≠ .done)
    (hnext : readerNext (s.phase.expAddr s.params) s.phase.accept s.ctl s.rs b = r) (hc : r ≠ .controlSeen)
    (hr : r ≠ .collecting) : step (s.receiving (b :: bs)) = .next ((s.readerAt r s.ctl 1).receiving bs) := by
  rw [step_rx (s.receiving (b :: bs)) hok hw (upcoming_receiving s b bs) hb hcheck hdone, receiving_dropEvent,
    readerStep_of_next (s := (s.readerAt s.rs s.ctl 1).receiving bs) hnext hc hr]
  rfl

/-- An accepted control byte after the address. -/
theorem step_accepts {s : State} {c : Byte} {bs : List Byte} (hok : s.params.ok = true) (hw : s.phase.isWait = true)
    (hc : c ≠ FLAG) (hrs : s.rs = .addressSeen) (hacc : c ∈ s.phase.accept) :
    step (s.receiving (c :: bs)) = .next ((s.readerAt .controlSeen c 1).receiving bs) := by
  rw [step_rx (s.receiving (c :: bs)) hok hw (upcoming_receiving s c bs) hc (by simp [State.receiving, hrs])
      (by simp [State.receiving, hrs]), receiving_dropEvent,
    readerStep_of_accepted (s := (s.readerAt s.rs s.ctl 1).receiving bs) hrs hc hacc]
  rfl

/-- A byte of the stuffed region. -/
theorem step_collects {s : State} {b : Byte} {bs : List Byte} (hok : s.params.ok = true) (hw : s.phase.isWait = true)
    (hb : b ≠ FLAG) (hrs : s.rs = .collecting ∨ s.rs = .bccOk ∧ isInfo s.ctl = true) :
    step (s.receiving (b :: bs)) = .next (((s.appendRaw b).readerAt .collecting s.ctl 1).receiving bs) := by
  have hsettled : s.rs ≠ .check ∧ s.rs ≠ .done := by
    obtain hrs | ⟨hrs, -⟩ := hrs <;> simp [hrs]
  rw [step_rx (s.receiving (b :: bs)) hok hw (upcoming_receiving s b bs) hb hsettled.1 hsettled.2, receiving_dropEvent,
    readerStep_of_region (s := (s.readerAt s.rs s.ctl 1).receiving bs) hrs hb]
  rw [appendRaw_readerAt]
  rfl

/-- The FLAG that ends the frame whose header is held. -/
theorem step_completes {s : State} {i : Instr} (hok : s.params.ok = true) (hw : s.phase.isWait = true)
    (hrs : s.rs = .bccOk ∨ s.rs = .collecting ∧ isInfo s.ctl = true) (hd : decodeControl s.ctl = .ok i) :
    step (s.receiving [FLAG]) = exec i (s.readerAt s.rs s.ctl 1) := by
  rw [step_flag (s.receiving [FLAG]) hok hw (upcoming_receiving s FLAG []), receiving_dropEvent]
  exact execFlag_of_complete (s := s.readerAt s.rs s.ctl 1) hrs hd

/-! ### Noise (R164 (a)) -/

theorem run_noise {s : State} {noise : List Byte} (hok : s.params.ok = true) (hw : s.phase.isWait = true) (hflag : FLAG ∉ noise)
    (m : Nat) : Host.Core.run Sys2Proof.core noise.length ((s.readerAt .start s.ctl m).receiving noise) =
      .next (s.readerAt .start s.ctl (m + noise.length)) := by
  induction noise generalizing m with
  | nil => rfl
  | cons b noise ih =>
    rw [List.mem_cons, not_or] at hflag
    have hb := Ne.symm hflag.1
    have hstep := step_moves_reader (s := s.readerAt .start s.ctl m) (bs := noise) (r := .start) hok hw hb (by simp [State.readerAt])
      (by simp [State.readerAt]) (if_neg hb) (by simp) (by simp)
    rw [readerAt_readerAt] at hstep
    refine (run_succ noise.length hstep).trans ((ih hflag.2 (m + 1)).trans ?_)
    rw [List.length_cons, Nat.add_assoc, Nat.add_comm 1]

/-- Settles O57: the first byte lowers the outputs, every byte leaves the reader in START. -/
theorem noiseIsIgnored : Obligations.NoiseIsIgnored := by
  intro s noise hok hevents hw hrs hflag
  cases noise with
  | nil => rfl
  | cons b noise =>
    rw [List.mem_cons, not_or] at hflag
    have hb := Ne.symm hflag.1
    have hstep := step_moves_reader (bs := noise) (r := .start) hok hw hb (by simp [hrs]) (by simp [hrs])
      (by rw [hrs]; exact if_neg hb) (by simp) (by simp)
    refine (run_succ noise.length hstep).trans ((run_noise hok hw hflag.2 1).trans ?_)
    rw [List.length_cons, Nat.add_comm, State.readerAt, ← hrs]
    rfl

/-! ### Headers (R164 (b), (e)) -/

/-- R8: the address a wait expects, with every control byte it accepts. -/
theorem expAddr_addressOk {p : Params} (hok : p.ok = true) {q : Phase} (hw : q.isWait = true) :
    ∃ controls, addressOk (q.expAddr p) controls = true ∧ ∀ c ∈ q.accept, c ∈ controls := by
  obtain ⟨-, hcmd, hrpl, -⟩ := (paramsOk_iff p).1 hok
  cases q with
  | openRWait | recvWait | closeRWait => exact ⟨_, hcmd, by simp [Phase.accept, commandControls]⟩
  | openIWait | sendWait | closeIWait => exact ⟨_, hrpl, by simp [Phase.accept, replyControls]⟩
  | idle | openITx | openRTx | sendTx | recvTxRej | recvTxDup | recvTxAck | closeITx | closeRTx => cases hw

theorem accept_ne_flag {q : Phase} {c : Byte} (h : c ∈ q.accept) : c ≠ FLAG := by
  have hno : ∀ c ∈ controlBytes, c ≠ FLAG := by
    simp [controlBytes, FLAG, C_SET, C_UA, C_DISC, C_RR0, C_RR1, C_REJ0, C_REJ1, C_I0, C_I1]
  exact hno c (accept_subset q c h)

section
variable {s : State} {bs : List Byte} (hok : s.params.ok = true) (hw : s.phase.isWait = true)
  (hrs : s.rs = .start ∨ s.rs = .flagSeen)
include hok hw hrs

theorem run_flag (k : Nat) : Host.Core.run Sys2Proof.core (k + 1) (s.receiving (FLAG :: bs)) =
    Host.Core.run Sys2Proof.core k ((s.readerAt .flagSeen s.ctl 1).receiving bs) :=
  run_succ k (step_opens hok hw (by tauto))

theorem run_address (k : Nat) :
    Host.Core.run Sys2Proof.core (k + 2) (s.receiving (FLAG :: s.phase.expAddr s.params :: bs)) =
      Host.Core.run Sys2Proof.core k ((s.readerAt .addressSeen s.ctl 2).receiving bs) := by
  obtain ⟨controls, haddr, -⟩ := expAddr_addressOk hok hw
  have hflag := (addressOk_iff.1 haddr).1
  have hstep := step_moves_reader (s := s.readerAt .flagSeen s.ctl 1) (b := s.phase.expAddr s.params) (bs := bs)
    (r := .addressSeen) hok hw hflag (by simp [State.readerAt]) (by simp [State.readerAt])
    ((if_neg hflag).trans (if_pos rfl)) (by simp) (by simp)
  rw [readerAt_readerAt] at hstep
  exact (run_flag hok hw hrs (k + 1)).trans (run_succ k hstep)

theorem run_control {c : Byte} (hacc : c ∈ s.phase.accept) (k : Nat) :
    Host.Core.run Sys2Proof.core (k + 3) (s.receiving (FLAG :: s.phase.expAddr s.params :: c :: bs)) =
      Host.Core.run Sys2Proof.core k ((s.readerAt .controlSeen c 3).receiving bs) := by
  have hstep := step_accepts (s := s.readerAt .addressSeen s.ctl 2) (bs := bs) hok hw (accept_ne_flag hacc) rfl hacc
  rw [readerAt_readerAt] at hstep
  exact (run_address hok hw hrs (k + 1)).trans (run_succ k hstep)

/-- A whole header of an accepted control byte. -/
theorem run_header {c : Byte} (hacc : c ∈ s.phase.accept) (k : Nat) :
    Host.Core.run Sys2Proof.core (k + 4)
        (s.receiving (FLAG :: s.phase.expAddr s.params :: c :: bcc1 (s.phase.expAddr s.params) c :: bs)) =
      Host.Core.run Sys2Proof.core k ((s.readerAt .bccOk c 4).receiving bs) := by
  obtain ⟨controls, haddr, hcontrols⟩ := expAddr_addressOk hok hw
  have hflag : bcc1 (s.phase.expAddr s.params) c ≠ FLAG := (addressOk_iff.1 haddr).2 c (hcontrols c hacc)
  have hstep := step_moves_reader (s := s.readerAt .controlSeen c 3) (b := bcc1 (s.phase.expAddr s.params) c) (bs := bs)
    (r := .bccOk) hok hw hflag (by simp [State.readerAt]) (by simp [State.readerAt])
    ((if_neg hflag).trans (if_pos rfl)) (by simp) (by simp)
  rw [readerAt_readerAt] at hstep
  exact (run_control hok hw hrs hacc (k + 1)).trans (run_succ k hstep)

end

/-- Settles O58: the header, then the FLAG that completes the frame. -/
theorem supervisoryFrameRecognised : Obligations.SupervisoryFrameRecognised := by
  intro s c i hok hevents hw hrs hacc _ hd
  refine (run_header (bs := [FLAG]) hok hw hrs hacc 1).trans ?_
  rw [run_one, step_completes (s := s.readerAt .bccOk c 4) hok hw (.inl rfl) hd, readerAt_readerAt]
  rfl

/-- The byte that fails, by the row of the table it falls in (R152 to R155). -/
theorem readerNext_fails {s : State} {b : Byte} (hb : b ≠ FLAG)
    (h : s.rs = .flagSeen ∧ b ≠ s.phase.expAddr s.params ∨ s.rs = .addressSeen ∧ b ∉ s.phase.accept ∨
      s.rs = .controlSeen ∧ b ≠ s.phase.expAddr s.params ^^^ s.ctl ∨ s.rs = .bccOk ∧ isInfo s.ctl = false) :
    (s.rs ≠ .check ∧ s.rs ≠ .done) ∧ readerNext (s.phase.expAddr s.params) s.phase.accept s.ctl s.rs b = .start := by
  obtain ⟨hrs, hno⟩ | ⟨hrs, hno⟩ | ⟨hrs, hno⟩ | ⟨hrs, hno⟩ := h <;> rw [hrs] <;> refine ⟨by simp, ?_⟩
  · exact (if_neg hb).trans (if_neg hno)
  · exact (if_neg hb).trans (if_neg hno)
  · exact (if_neg hb).trans (if_neg hno)
  · exact (if_neg (by simp [hno])).trans (if_neg hb)

/-- A failing byte read next. -/
theorem step_fails {s : State} {b : Byte} (hok : s.params.ok = true) (hw : s.phase.isWait = true) (hb : b ≠ FLAG)
    (h : s.rs = .flagSeen ∧ b ≠ s.phase.expAddr s.params ∨ s.rs = .addressSeen ∧ b ∉ s.phase.accept ∨
      s.rs = .controlSeen ∧ b ≠ s.phase.expAddr s.params ^^^ s.ctl ∨ s.rs = .bccOk ∧ isInfo s.ctl = false) :
    step (s.receiving [b]) = .next (s.readerAt .start s.ctl 1) := by
  obtain ⟨⟨hcheck, hdone⟩, hnext⟩ := readerNext_fails hb h
  exact step_moves_reader hok hw hb hcheck hdone hnext (by simp) (by simp)

/-- Settles O59: the byte that fails takes the reader to START; the bytes before it only moved the reader. -/
theorem badHeaderIsSilent : Obligations.BadHeaderIsSilent := by
  intro s hok hw
  refine ⟨fun b rest hu hb h => ?_, fun _ hrs => ⟨fun a ha hno => ?_, fun c hc hno => ?_, fun c k hacc hk hno => ?_⟩⟩
  · obtain ⟨⟨hcheck, hdone⟩, hnext⟩ := readerNext_fails hb h
    rw [step_rx s hok hw hu hb hcheck hdone, readerStep_of_next (s := s.dropEvent rest) hnext (by simp) (by simp)]
    rfl
  · refine (run_flag hok hw hrs 1).trans ?_
    rw [run_one, step_fails (s := s.readerAt .flagSeen s.ctl 1) hok hw ha (.inl ⟨rfl, hno⟩), readerAt_readerAt]
    rfl
  · refine (run_address hok hw hrs 1).trans ?_
    rw [run_one, step_fails (s := s.readerAt .addressSeen s.ctl 2) hok hw hc (.inr (.inl ⟨rfl, hno⟩)), readerAt_readerAt]
    rfl
  · refine (run_control hok hw hrs hacc 1).trans ?_
    rw [run_one, step_fails (s := s.readerAt .controlSeen c 3) hok hw hk (.inr (.inr (.inl ⟨rfl, hno⟩))), readerAt_readerAt]
    rfl

/-! ### A whole information frame (R138, R156, R157, R237) -/

/-- Collecting moves RAW, its length and its overflow flag alone. -/
theorem collect_eq (s : State) (region : List Byte) :
    s.collect region = { s with
      raw := (s.collect region).raw, rawLen := (s.collect region).rawLen, ovf := (s.collect region).ovf } := by
  induction region generalizing s with
  | nil => rfl
  | cons b region ih =>
    rw [State.collect, ih]
    obtain ⟨-, hs⟩ | ⟨-, hs⟩ := appendRaw_cases s b <;> rw [hs]

/-- The bytes of a region, none of them FLAG, are collected one after the other. -/
theorem run_region {s : State} {r : ReaderState} {c : Byte} {region : List Byte} (bs : List Byte) (hok : s.params.ok = true)
    (hw : s.phase.isWait = true) (hinfo : isInfo c = true) (hflag : FLAG ∉ region)
    (hr : r = .collecting ∨ r = .bccOk ∧ region ≠ []) (m k : Nat) :
    Host.Core.run Sys2Proof.core (k + region.length) ((s.readerAt r c m).receiving (region ++ bs)) =
      Host.Core.run Sys2Proof.core k (((s.collect region).readerAt .collecting c (m + region.length)).receiving bs) := by
  induction region generalizing s r m with
  | nil =>
    obtain rfl := hr.resolve_right (by simp)
    rfl
  | cons b region ih =>
    rw [List.mem_cons, not_or] at hflag
    have hregion : (s.readerAt r c m).rs = .collecting ∨ (s.readerAt r c m).rs = .bccOk ∧ isInfo (s.readerAt r c m).ctl = true :=
      hr.imp id fun h => ⟨h.1, hinfo⟩
    have hstep := step_collects (s := s.readerAt r c m) (b := b) (bs := region ++ bs) hok hw (Ne.symm hflag.1) hregion
    have happend : (s.readerAt r c m).appendRaw b = (s.appendRaw b).readerAt r c m := appendRaw_readerAt s r c m [] b
    rw [happend, readerAt_readerAt] at hstep
    have hrest := ih (s := s.appendRaw b) (r := .collecting) (by simpa using hok) (by simpa using hw) hflag.2 (.inl rfl) (m + 1)
    refine (run_succ (k + region.length) hstep).trans (hrest.trans ?_)
    rw [List.length_cons, Nat.add_assoc m, Nat.add_comm 1, State.collect]

/-- Such a frame of toggle `t`, read from START in RECV_WAIT up to its closing FLAG, runs the information frame of that toggle. -/
theorem run_iFrame {s : State} {t : Toggle} {i : Instr} (payload : List Byte) (hok : s.params.ok = true)
    (hp : s.phase = .recvWait) (hrs : s.rs = .start) (hi : decodeControl (controlOfI t) = .ok i) :
    Host.Core.run Sys2Proof.core (encodeIFrame s.params.aCmd t payload).length (s.receiving (encodeIFrame s.params.aCmd t payload)) =
      exec i ((s.collect (stuffedRegion payload)).readerAt .collecting (controlOfI t) (4 + (stuffedRegion payload).length + 1)) := by
  have hw : s.phase.isWait = true := by rw [hp]; rfl
  have haddr : s.phase.expAddr s.params = s.params.aCmd := by rw [hp]; rfl
  have hacc : controlOfI t ∈ s.phase.accept := by rw [hp]; cases t <;> decide
  have hinfo : isInfo (controlOfI t) = true := by cases t <;> rfl
  have hne : stuffedRegion payload ≠ [] := by
    have := (length_stuff (payload ++ [bcc2 payload])).2
    intro h
    rw [stuffedRegion] at h
    simp [h] at this
  have hframe : encodeIFrame s.params.aCmd t payload =
      FLAG :: s.phase.expAddr s.params :: controlOfI t :: bcc1 (s.phase.expAddr s.params) (controlOfI t) ::
        (stuffedRegion payload ++ [FLAG]) := by rw [haddr]; rfl
  have hlen : (encodeIFrame s.params.aCmd t payload).length = 1 + (stuffedRegion payload).length + 4 := by
    rw [hframe]; simp; omega
  rw [hlen, hframe]
  refine (run_header hok hw (.inl hrs) hacc _).trans
    ((run_region (region := stuffedRegion payload) [FLAG] hok hw hinfo (flag_not_mem_stuff _) (.inr ⟨rfl, hne⟩) 4 1).trans ?_)
  have hok' : (s.collect (stuffedRegion payload)).params.ok = true := by simpa using hok
  have hw' : (s.collect (stuffedRegion payload)).phase.isWait = true := by rw [collect_eq]; exact hw
  rw [run_one]
  exact (step_completes (s := State.readerAt _ .collecting _ _) hok' hw' (.inr ⟨rfl, hinfo⟩) hi).trans
    (congrArg (exec i) (readerAt_readerAt _ _ _ _ _ _ _))

/-- What a receiver that waits from START has collected once the region of a payload within the bound has been read. -/
theorem checkPayload_collected {s : State} {payload : List Byte} (hok : s.params.ok = true) (hlen0 : s.rawLen = 0)
    (hovf : s.ovf = false) (hlen : payload.length ≤ s.params.maxPayload) :
    checkPayload s.params.maxPayload (s.collect (stuffedRegion payload)).rawBytes (s.collect (stuffedRegion payload)).ovf =
      .accept payload := by
  have hm : s.params.maxPayload ≤ 65535 := ((paramsOk_iff _).1 hok).2.2.2
  exact (boundedBufferIsExact s _ payload hm hlen0 hovf).2 (checkPayload_of_destuff (destuff_stuff _) hlen)

/-- A memory that reads as `payload` below its length. -/
theorem map_read_eq {buf : Memory} {payload : List Byte} {free : Nat → Byte}
    (h : ∀ k, k < payload.length → buf.read? k = payload[k]?) :
    (List.range payload.length).map (fun k => (buf.read? k).getD (free k)) = payload := by
  apply List.ext_getElem
  · simp
  · intro k h1 h2
    simp [h k h2, List.getElem?_eq_getElem h2]

/-- Settles O60: the frame's bytes run the information frame of the expected toggle (`run_iFrame`) on a buffer that the payload check accepts
(`checkPayload_collected`), and that frame is delivered (`newFrameDelivered`). -/
theorem informationFrameDeliversPayload : Obligations.InformationFrameDeliversPayload := by
  intro s payload hok hinv _ hp hrs hlen
  have hm : s.params.maxPayload ≤ 65535 := ((paramsOk_iff _).1 hok).2.2.2
  obtain ⟨hlen0, hovf⟩ := hinv.reader.emptyBefore (by rw [hp]; rfl) (by rw [hrs]; simp)
  obtain ⟨i, hi, hkind⟩ : ∃ i, decodeControl (controlOfI s.expectToggle) = .ok i ∧
      (i = .i0 ∧ s.expectToggle = false ∨ i = .i1 ∧ s.expectToggle = true) := by
    cases s.expectToggle
    · exact ⟨.i0, rfl, .inl ⟨rfl, rfl⟩⟩
    · exact ⟨.i1, rfl, .inr ⟨rfl, rfl⟩⟩
  have haccept := checkPayload_collected hok hlen0 hovf hlen
  have hrun := run_iFrame payload hok hp hrs hi
  obtain ⟨raw, rawLen, ovf, hcollected⟩ : ∃ raw rawLen ovf,
      s.collect (stuffedRegion payload) = { s with raw := raw, rawLen := rawLen, ovf := ovf } := ⟨_, _, _, collect_eq s _⟩
  rw [hcollected] at hrun haccept
  obtain ⟨buf, hexec, hbelow, habove⟩ :=
    newFrameDelivered (State.readerAt { s with raw := raw, rawLen := rawLen, ovf := ovf } .collecting _ _) i payload hp hkind haccept
  refine ⟨_, hrun.trans hexec, rfl, toNat_payloadLength hlen hm, map_read_eq hbelow, fun k hk => ?_, rfl, rfl, rfl, rfl, rfl, rfl,
    rfl, rfl⟩
  simp only [State.rxbufByte, habove k hk]
  rfl

end Sys2Proof.Machine
